-- ==== Sys2Proof/Word.lean ====
section
/-! DEFINITION. The two widths of MPNA-CORE: the 32-bit register word (10_state.md R20) and the byte of the
buffers (20_memory.md R60). -/

namespace Sys2Proof

/-- A register, a command word or a format word: "registers of 32 bits" (R20). -/
abbrev Word := BitVec 32

/-- The unit of the five buffers, and of every sample and channel: "A byte is 8 bits" (R60). -/
abbrev Byte := BitVec 8

end Sys2Proof
end

