-- ==== Sys2Proof/Syntax.lean ====
section
/-! DEFINITION. The syntax of MPNA-CORE: images, address spaces, registers, the instructions of
spec/opcode_table.json, the raw fields of the two encoded words, and the host's accesses (30_encoding.md). -/

namespace Sys2Proof

/-- The image number k of `IMGk_…`: image 1 is the primary image, image 2 the mask image (00_scope.md section 5). -/
inductive Img where
  | img1
  | img2
  deriving DecidableEq, Repr

/-- The five byte spaces of R60 (the sixth, REG, is addressed by register offset). -/
inductive Space where
  | raw1
  | raw2
  | pal1
  | pal2
  | out
  deriving DecidableEq, Repr

/-- The space RAWk of image k (R35). -/
def Img.rawSpace : Img → Space
  | .img1 => .raw1
  | .img2 => .raw2

/-- The space PALk of image k (R36). -/
def Img.palSpace : Img → Space
  | .img1 => .pal1
  | .img2 => .pal2

/-- The five legal bit depths (R95). -/
inductive Depth where
  | d1
  | d2
  | d4
  | d8
  | d16
  deriving DecidableEq, Repr

/-- The five colour models, in the order of their codes (R96). -/
inductive Model where
  | gray
  | graya
  | rgb
  | rgba
  | idx
  deriving DecidableEq, Repr

/-- The two output modes of the bit_unpacker (R127, R128). -/
inductive Mode where
  | scaled
  | index
  deriving DecidableEq, Repr

/-- A legal format: the decoded operands `n`, `model`, `pp` of R101. -/
structure Format where
  depth : Depth
  model : Model
  palPresent : Bool
  deriving DecidableEq, Repr

/-- One constructor per row of spec/opcode_table.json: the six commands (format CMD, R92), the five depth
encodings (format FMT.DEPTH, R95) and the five model encodings (format FMT.MODEL, R96). -/
inductive Instr where
  /-- NOP: nothing (R224). -/
  | nop
  /-- MERGE: the whole merge of image 1 and image 2 (R208). -/
  | merge
  /-- UNPACK k: the bit unpacker on the selected image (R132). -/
  | unpack (k : Img)
  /-- NORM k: unpack, then normalise the selected image to RGBA (R175). -/
  | norm (k : Img)
  /-- MASK k: unpack, normalise, then luminance of the selected image (R194). -/
  | mask (k : Img)
  /-- ACK: return to IDLE (R225). -/
  | ack
  /-- D1: one-bit samples (R122). -/
  | d1
  /-- D2: two-bit samples (R123). -/
  | d2
  /-- D4: four-bit samples (R124). -/
  | d4
  /-- D8: one sample per byte (R125). -/
  | d8
  /-- D16: one sample per two bytes (R126). -/
  | d16
  /-- GRAY: Grayscale (R167). -/
  | gray
  /-- GRAYA: GrayscaleAlpha (R168). -/
  | graya
  /-- RGB: Rgb (R169). -/
  | rgb
  /-- RGBA: Rgba (R170). -/
  | rgba
  /-- IDX: Indexed; the operand is FMT.PAL_PRESENT (R97, R171). -/
  | idx (palPresent : Bool)
  deriving DecidableEq, Repr

/-- The fields of the word written to CMD (R91): OP 3:0, SEL 4, ZERO 31:5. -/
structure CommandFields where
  op : BitVec 4
  sel : BitVec 1
  zero : BitVec 27
  deriving DecidableEq, Repr

/-- The fields of IMGk_FMT that are stored (R30, R94, R100): DEPTH 4:0, MODEL 10:8, PAL_PRESENT 16. -/
structure FormatFields where
  depth : BitVec 5
  model : BitVec 3
  palPresent : Bool
  deriving DecidableEq, Repr

/-- The register names of R21. -/
inductive Reg where
  | cmd
  | status
  | ctrl
  | outLen
  | errPos
  | width (k : Img)
  | height (k : Img)
  | fmt (k : Img)
  | rawLen (k : Img)
  | palLen (k : Img)
  deriving DecidableEq, Repr

/-- One atomic action of the host (R12, R68, R102, R270). -/
inductive Access where
  /-- The reset event (R270). -/
  | reset
  /-- Write a word at a byte offset of the register space (`WR`). -/
  | wr (offset : Nat) (value : Word)
  /-- Read the word at a byte offset of the register space (`RD`). -/
  | rd (offset : Nat)
  /-- Write one byte of a buffer (one byte of `ST`). -/
  | st (space : Space) (address : Nat) (value : Byte)
  /-- Read one byte of a buffer (one byte of `LD`). -/
  | ld (space : Space) (address : Nat)
  /-- Read STATUS until STATE is not BUSY (`WAIT`). -/
  | wait
  deriving DecidableEq, Repr

/-- Who moves next while the core is BUSY: the open interleaving and duration of U4 and U5, as plain data. -/
inductive Turn where
  /-- The host makes its next access. -/
  | host
  /-- The core runs one phase of the table of R228. -/
  | phase
  /-- The core runs: from the CMD write straight to the completion update (R229). -/
  | run
  deriving DecidableEq, Repr

end Sys2Proof
end

