-- ==== Sys2Proof/Config.lean ====
section
/-! DEFINITION. What an implementation fixes (the parameters AW and PAL_CAP of 00_scope.md R8) and the free
values of 93_implementation_defined.md, which nothing in Lean can evaluate. -/

namespace Sys2Proof

/-- The two open parameters P1 and P2 (R8). -/
structure Params where
  /-- Address width of RAW1 and RAW2, 0 to 26. -/
  aw : Nat
  /-- Capacity of PAL1 and PAL2 in bytes, below 2^32. -/
  palCap : Nat
  deriving DecidableEq, Repr

/-- The defaults of R8: AW = 24, PAL_CAP = 768. -/
def Config.defaultParams : Params := { aw := 24, palCap := 768 }

/-- RAW_CAP = 2^AW (R8). -/
def Params.rawCap (p : Params) : Nat := 2 ^ p.aw

/-- OUT_CAP = 32 · RAW_CAP (R8). -/
def Params.outCap (p : Params) : Nat := 32 * p.rawCap

/-- The size of each byte space (R60). -/
def Params.capacity (p : Params) : Space → Nat
  | .raw1 => p.rawCap
  | .raw2 => p.rawCap
  | .pal1 => p.palCap
  | .pal2 => p.palCap
  | .out => p.outCap

/-- FREE VALUE. What the n-th host read of an unspecified buffer byte returns (R72, R76; U1, U2, U6, U7): "any
value (the read returns a free value: a draw, never a fixed constant and never the old contents)". -/
opaque Config.freeByte : Nat → Byte

/-- FREE VALUE. What a byte of a space holds from the n-th reset on until it is written (R273; U3): "the same byte
reads the same value until written: a draw made once, at reset". -/
opaque Config.powerOnByte : (epoch : Nat) → Space → (address : Nat) → Byte

end Sys2Proof
end

