-- ==== Sys2Proof/WellFormed.lean ====
section
/-! DEFINITION. Well-formedness of everything that can be ill-formed: the fields of a command word (30_encoding.md
R98), the fields of a format word (R99), the parameters (00_scope.md R8) and the host's accesses (10_state.md R33).
A term of `Instr` cannot be ill-formed: each operand type holds exactly the legal operands (R93, R97). -/

namespace Sys2Proof

/-- OP is one of NOP, MERGE, UNPACK, NORM, MASK, ACK: 0x5 to 0xE are reserved (R92). -/
def CommandFields.opLegal (f : CommandFields) : Bool :=
  decide (f.op.toNat ≤ 4) || decide (f.op.toNat = 15)

/-- "For NOP, MERGE and ACK SEL must be 0" (R93). -/
def CommandFields.selLegal (f : CommandFields) : Bool :=
  decide (f.sel = 0#1) || decide (2 ≤ f.op.toNat ∧ f.op.toNat ≤ 4)

/-- A command word is legal when OP is not reserved, no ZERO bit is set, and SEL is used only by UNPACK, NORM and
MASK (R98). -/
def CommandFields.wf (f : CommandFields) : Bool :=
  f.opLegal && decide (f.zero = 0#27) && f.selLegal

/-- DEPTH is one of 1, 2, 4, 8, 16 (R95). -/
def FormatFields.depthLegal (f : FormatFields) : Bool :=
  f.depth.toNat ∈ [1, 2, 4, 8, 16]

/-- MODEL is one of 0 to 4 (R96). -/
def FormatFields.modelLegal (f : FormatFields) : Bool :=
  decide (f.model.toNat ≤ 4)

/-- A format word is legal when both its fields are; all 25 combinations are (R99). -/
def FormatFields.wf (f : FormatFields) : Bool :=
  f.depthLegal && f.modelLegal

/-- "0 ≤ AW ≤ 26" and "0 ≤ PAL_CAP < 2^32" (R8). -/
def Params.wf (p : Params) : Bool :=
  decide (p.aw ≤ 26) && decide (p.palCap < 2 ^ 32)

/-- A register access is a naturally aligned 32-bit word; nothing else is an access of the register port (R33,
U8). Buffer accesses are bytes and cannot be misaligned (R64). -/
def Access.wf : Access → Bool
  | .reset => true
  | .wr offset _ => decide (offset % 4 = 0)
  | .rd offset => decide (offset % 4 = 0)
  | .st _ _ _ => true
  | .ld _ _ => true
  | .wait => true

end Sys2Proof
end

