-- ==== Sys2Proof/Decode.lean ====
section
/-! DEFINITION. Decoding of the command word and of the two fields of the format word (30_encoding.md R90 to R101),
total and rejecting by name, and after it the encoder. -/

namespace Sys2Proof

/-- Why a word, or a field of one, is no instruction: the illegal encodings of R98 and R99. -/
inductive DecodeError where
  /-- A command word with a bit of 31:5 set. -/
  | zeroBitsSet
  /-- A command word with OP in 0x5 to 0xE. -/
  | reservedOp
  /-- NOP, MERGE or ACK with SEL = 1. -/
  | selNotAllowed
  /-- DEPTH is none of 1, 2, 4, 8, 16. -/
  | reservedDepth
  /-- MODEL is 5, 6 or 7. -/
  | reservedModel
  deriving DecidableEq, Repr

/-! ### The command word -/

/-- The three fields of a command word (R91). -/
def commandFields (w : Word) : CommandFields :=
  { op := w.extractLsb' 0 4, sel := w.extractLsb' 4 1, zero := w.extractLsb' 5 27 }

/-- "0 selects image 1, 1 selects image 2" (R91). -/
def imgOfSel (sel : BitVec 1) : Img :=
  if sel = 0#1 then .img1 else .img2

/-- A command that takes no SEL (R93). -/
def withoutSel (sel : BitVec 1) (i : Instr) : Except DecodeError Instr :=
  if sel = 0#1 then .ok i else .error .selNotAllowed

/-- The command a word written to CMD names, or why it names none (R91, R92, R93, R98). -/
def decodeCommand (w : Word) : Except DecodeError Instr :=
  let f := commandFields w
  if f.zero ≠ 0#27 then .error .zeroBitsSet
  else match f.op.toNat with
    | 0 => withoutSel f.sel .nop
    | 1 => withoutSel f.sel .merge
    | 2 => .ok (.unpack (imgOfSel f.sel))
    | 3 => .ok (.norm (imgOfSel f.sel))
    | 4 => .ok (.mask (imgOfSel f.sel))
    | 15 => withoutSel f.sel .ack
    | _ => .error .reservedOp

/-- The four commands that run an operation: the seven operation words of R226. -/
def Instr.isOperation : Instr → Bool
  | .merge => true
  | .unpack _ => true
  | .norm _ => true
  | .mask _ => true
  | .nop => false
  | .ack => false
  | .d1 => false
  | .d2 => false
  | .d4 => false
  | .d8 => false
  | .d16 => false
  | .gray => false
  | .graya => false
  | .rgb => false
  | .rgba => false
  | .idx _ => false

/-- The decode of the latched word at the start of an operation: one of the seven operation words, or none (R226). -/
def decodeOperation (w : Word) : Option Instr :=
  match decodeCommand w with
  | .ok i => if i.isOperation then some i else none
  | .error _ => none

/-! ### The format word -/

/-- What a write of IMGk_FMT stores: "Reserved bits … are not stored" (R94, R100). -/
def formatFields (w : Word) : FormatFields :=
  { depth := w.extractLsb' 0 5, model := w.extractLsb' 8 3, palPresent := w.getLsbD 16 }

/-- What a read of IMGk_FMT returns; the reserved bits read 0 (R30, R33). -/
def formatWord (f : FormatFields) : Word :=
  f.depth.setWidth 32 ||| (f.model.setWidth 32 <<< 8) ||| (if f.palPresent then 0x00010000#32 else 0#32)

/-- DEPTH decode (R95). -/
def depthOfField (d : BitVec 5) : Except DecodeError Depth :=
  match d.toNat with
  | 1 => .ok .d1
  | 2 => .ok .d2
  | 4 => .ok .d4
  | 8 => .ok .d8
  | 16 => .ok .d16
  | _ => .error .reservedDepth

/-- MODEL decode (R96). -/
def modelOfField (m : BitVec 3) : Except DecodeError Model :=
  match m.toNat with
  | 0 => .ok .gray
  | 1 => .ok .graya
  | 2 => .ok .rgb
  | 3 => .ok .rgba
  | 4 => .ok .idx
  | _ => .error .reservedModel

/-- The depth row a depth stands for (format FMT.DEPTH of spec/opcode_table.json). -/
def Depth.instr : Depth → Instr
  | .d1 => .d1
  | .d2 => .d2
  | .d4 => .d4
  | .d8 => .d8
  | .d16 => .d16

/-- The model row a model stands for; PAL_PRESENT is the operand of IDX only (R97, R154). -/
def Model.instr (palPresent : Bool) : Model → Instr
  | .gray => .gray
  | .graya => .graya
  | .rgb => .rgb
  | .rgba => .rgba
  | .idx => .idx palPresent

/-- The extraction the DEPTH field of a format selects (R90, R95). -/
def decodeDepth (f : FormatFields) : Except DecodeError Instr :=
  match depthOfField f.depth with
  | .ok d => .ok d.instr
  | .error e => .error e

/-- The branch the MODEL field of a format selects (R90, R96). -/
def decodeModel (f : FormatFields) : Except DecodeError Instr :=
  match modelOfField f.model with
  | .ok m => .ok (m.instr f.palPresent)
  | .error e => .error e

/-- Both fields at once: the legal formats (R99, R101). -/
def decodeFormat (f : FormatFields) : Except DecodeError Format :=
  match depthOfField f.depth with
  | .error e => .error e
  | .ok d =>
    match modelOfField f.model with
    | .error e => .error e
    | .ok m => .ok { depth := d, model := m, palPresent := f.palPresent }

/-! ### The table's numbering -/

/-- Which of the table's three formats a numbered word belongs to (R90). -/
inductive WordKind where
  | command
  | depth
  | model
  deriving DecidableEq, Repr

/-- The table numbers the words of its three formats alike, so a number alone does not say which decoder it is for:
the hardware knows it from where the word is written (R90). A row of format FMT.DEPTH has its bits in the first
byte, a row of FMT.MODEL in the first two; a 32-bit number is a command word where that is legal, else a format word
in which only the one field is set. -/
def tableKind (nbits w : Nat) : WordKind :=
  if nbits ≤ 8 then .depth
  else if nbits ≤ 16 then .model
  else
    let word := BitVec.ofNat 32 w
    match decodeCommand word with
    | .ok _ => .command
    | .error _ =>
      if word &&& 0xFFFFFFE0#32 = 0#32 && (formatFields word).depthLegal then .depth
      else if word &&& 0xFFFEF8FF#32 = 0#32 && (formatFields word).modelLegal then .model
      else .command

/-- The instruction the decoder reads from a word numbered as spec/opcode_table.json numbers it. All bits above
`nbits` are 0, and the one 32-bit word has no byte order (R20). -/
def decodeTableWord (nbits w : Nat) : Option Instr :=
  let word := BitVec.ofNat 32 w
  match tableKind nbits w with
  | .command => (decodeCommand word).toOption
  | .depth => (decodeDepth (formatFields word)).toOption
  | .model => (decodeModel (formatFields word)).toOption

/-! ### The encoder -/

/-- SEL of an image, at bit 4: "k = SEL + 1" (R93). -/
def selBit : Img → Word
  | .img1 => 0x00000000#32
  | .img2 => 0x00000010#32

/-- DEPTH holds the depth as its own number (R95). -/
def Depth.code : Depth → BitVec 5
  | .d1 => 0b00001#5
  | .d2 => 0b00010#5
  | .d4 => 0b00100#5
  | .d8 => 0b01000#5
  | .d16 => 0b10000#5

/-- The colour model codes (R96). -/
def Model.code : Model → BitVec 3
  | .gray => 0b000#3
  | .graya => 0b001#3
  | .rgb => 0b010#3
  | .rgba => 0b011#3
  | .idx => 0b100#3

/-- The format word of a legal format (R94, R103: `n + (MODELCODE << 8) + (pp << 16)`). -/
def encodeFormat (f : Format) : Word :=
  formatWord { depth := f.depth.code, model := f.model.code, palPresent := f.palPresent }

/-- The word of an instruction: the command word of R92, or the format word whose one field selects the row and
whose other bits are 0 (R95, R96). -/
def encode : Instr → Word
  | .nop => 0x00000000#32
  | .merge => 0x00000001#32
  | .unpack k => 0x00000002#32 ||| selBit k
  | .norm k => 0x00000003#32 ||| selBit k
  | .mask k => 0x00000004#32 ||| selBit k
  | .ack => 0x0000000F#32
  | .d1 => 0x00000001#32
  | .d2 => 0x00000002#32
  | .d4 => 0x00000004#32
  | .d8 => 0x00000008#32
  | .d16 => 0x00000010#32
  | .gray => 0x00000000#32
  | .graya => 0x00000100#32
  | .rgb => 0x00000200#32
  | .rgba => 0x00000300#32
  | .idx palPresent => 0x00000400#32 ||| (if palPresent then 0x00010000#32 else 0#32)

/-- The decoder each instruction's word is for. -/
def Instr.kind : Instr → WordKind
  | .nop => .command
  | .merge => .command
  | .unpack _ => .command
  | .norm _ => .command
  | .mask _ => .command
  | .ack => .command
  | .d1 => .depth
  | .d2 => .depth
  | .d4 => .depth
  | .d8 => .depth
  | .d16 => .depth
  | .gray => .model
  | .graya => .model
  | .rgb => .model
  | .rgba => .model
  | .idx _ => .model

/-- The decoder of a kind, on a whole 32-bit word. -/
def decodeAs (kind : WordKind) (w : Word) : Except DecodeError Instr :=
  match kind with
  | .command => decodeCommand w
  | .depth => decodeDepth (formatFields w)
  | .model => decodeModel (formatFields w)

end Sys2Proof
end

