-- ==== Sys2Proof/Machine/State.lean ====
section
/-! DEFINITION. The state of MPNA-CORE as plain data (10_state.md), the reasons a step can stop, and the state
right after reset (R41). -/

namespace Sys2Proof.Machine

/-- A byte memory: the bytes that have a value, addresses strictly rising. An unlisted address has NO VALUE (R273:
"it gives an unwritten byte no value"), so no entry can equal what an unlisted address reads as. -/
abbrev Memory := List Host.Cell

/-- The canonical form of a memory: addresses strictly rising. -/
def Memory.wf : Memory → Bool
  | [] => true
  | [_] => true
  | (a, _) :: (b, c) :: m => decide (a < b) && Memory.wf ((b, c) :: m)

/-- The four values of STATUS.STATE (R27). -/
inductive RunState where
  | idle
  | busy
  | done
  | error
  deriving DecidableEq, Repr

/-- The seven errors (R241). -/
inductive ErrorCode where
  | sizePngAndPnaAreDifferent
  | lessDataSize
  | paletteNotFoundWhenIndexedPng
  | invalidPalette
  | invalidIndexForPalette
  | illegalCommand
  | illegalConfig
  deriving DecidableEq, Repr

/-- `err(E, pos)` of a pure function (00_scope.md section 4). -/
structure Err where
  code : ErrorCode
  pos : Nat
  deriving DecidableEq, Repr

/-- `raise E(img, pos)`: what an error records; no image is ERR_IMG = 0 (R251, R252). -/
structure Raise where
  code : ErrorCode
  img : Option Img
  pos : Nat
  deriving DecidableEq, Repr

/-- STATUS, CTRL, OUT_LEN and ERR_POS (R23 to R26). CMD stores nothing (R22). -/
structure Control where
  /-- STATUS.STATE. -/
  runState : RunState
  /-- STATUS.ERR; `none` is code 0. -/
  err : Option ErrorCode
  /-- STATUS.ERR_IMG; `none` is 0. -/
  errImg : Option Img
  /-- CTRL.IE. -/
  ie : Bool
  /-- OUT_LEN. -/
  outLen : Word
  /-- ERR_POS. -/
  errPos : Word
  deriving DecidableEq, Repr

/-- The descriptor of one image: its five registers (R28 to R32). -/
structure Desc where
  width : Word
  height : Word
  fmt : FormatFields
  rawLen : Word
  palLen : Word
  deriving DecidableEq, Repr

/-- An entry of the palette LUT: R, G, B (R38). -/
structure Rgb where
  r : Byte
  g : Byte
  b : Byte
  deriving DecidableEq, Repr

/-- The phases of an operation (table of R228). Phases 3 and 6, and 4 and 7, are one phase each here: the image in
work says which of the two it is. -/
inductive Phase where
  /-- Phase 0. -/
  | decode
  /-- Phase 1, configuration check. -/
  | config
  /-- Phase 2, size check. -/
  | size
  /-- Phases 3 and 6. -/
  | unpack
  /-- Phases 4 and 7. -/
  | normalise
  /-- Phase 5, adjust rgba1. -/
  | adjustRgba
  /-- Phase 8. -/
  | luminance
  /-- Phase 9, adjust alpha2. -/
  | adjustAlpha
  /-- Phase 10, compose or copy to OUT. -/
  | compose
  /-- Phase 11, completion update. -/
  | complete
  deriving DecidableEq, Repr

/-- The hidden state, live only while BUSY (R38, R40). -/
structure Hidden where
  /-- The latched command (R221). -/
  latched : Word
  /-- Where in the table of R228 the operation stands. -/
  phase : Phase
  /-- The image in work. -/
  image : Img
  /-- Progress counter: bytes unpacked. -/
  byteIdx : Nat
  /-- Progress counter: samples delivered. -/
  sampleIdx : Nat
  /-- Progress counter: pixels normalised. -/
  pixelIdx : Nat
  /-- The sample sequence of the image in work (R120). -/
  samples : List Byte
  /-- The normalised RGBA buffer of the image in work (R165). -/
  rgba : List Byte
  /-- `rgba1` of R203. -/
  rgba1 : List Byte
  /-- `alpha2` of R204; for MASK the luminance bytes of image k. -/
  alpha2 : List Byte
  /-- The palette LUT (R38, R155). -/
  lut : List Rgb
  /-- The bytes phase 10 copies to OUT. -/
  result : List Byte
  deriving DecidableEq, Repr

/-- The hidden state when no operation runs: "none of it survives the end of the operation" (R40). The values are
the model's own, DESIGN CHOICE, notes/assumptions/7.md. -/
def Hidden.dead : Hidden :=
  { latched := 0#32, phase := .decode, image := .img1, byteIdx := 0, sampleIdx := 0, pixelIdx := 0,
    samples := [], rgba := [], rgba1 := [], alpha2 := [], lut := [], result := [] }

/-- The MODEL's own fields: the host's side of the interface and the counters of the free values. -/
structure Env where
  /-- The host's accesses still to come: "The program is the sequence of register and buffer accesses the host
  makes" (R11; notes/assumptions/1.md). -/
  script : List Access
  /-- Who moves next while BUSY (U4; notes/assumptions/2.md). -/
  turns : List Turn
  /-- The word the last register read returned (notes/assumptions/13.md). -/
  regData : Word
  /-- The byte the last buffer read returned (notes/assumptions/13.md). -/
  bufData : Byte
  /-- How many free bytes were drawn (notes/assumptions/14.md). -/
  draws : Nat
  /-- How many reset events happened (notes/assumptions/14.md). -/
  epoch : Nat
  deriving DecidableEq, Repr

/-- The state. `params` is configuration that no move changes (R8, R11; notes/assumptions/3.md), `env` the model's
own; everything else is what 10_state.md gives the machine. -/
structure State where
  params : Params
  ctl : Control
  img1 : Desc
  img2 : Desc
  raw1 : Memory
  raw2 : Memory
  pal1 : Memory
  pal2 : Memory
  out : Memory
  hidden : Hidden
  env : Env
  deriving DecidableEq, Repr

/-- No step of this hardware ends in a fault: every error of R241 is a NEXT state with STATE = ERROR, and every
access to an address that does not exist has the effect R33 and R76 give it (notes/assumptions/20.md). Safe. -/
inductive Fault where
  deriving DecidableEq, Repr

/-- Why a step has no result. -/
inductive Refusal where
  /-- An instruction that has no meaning in this model. Raised only by an arm of `exec` that gives none; every
  instruction of spec/opcode_table.json has its meaning, so no arm raises it. Safe. -/
  | notModelled (mnemonic : String)
  /-- The host accesses the register port other than by an aligned 32-bit word: "outside this spec" (R33), treatment
  "refuse" (U8). Raised by a host move only, never by an instruction. Safe. -/
  | subWordRegisterAccess
  deriving DecidableEq, Repr

/-- STATUS, CTRL, OUT_LEN and ERR_POS after reset (R41). -/
def Control.reset : Control :=
  { runState := .idle, err := none, errImg := none, ie := false, outLen := 0#32, errPos := 0#32 }

/-- A descriptor after reset: all five registers 0 (R41); DEPTH 0 is a reserved value on purpose (R30). -/
def Desc.reset : Desc :=
  { width := 0#32, height := 0#32, fmt := { depth := 0#5, model := 0#3, palPresent := false },
    rawLen := 0#32, palLen := 0#32 }

/-- The machine right after reset (R41, R270): every register at its value, no byte of a buffer with a value (R273),
the hidden state dead, no access of the host pending. -/
def State.reset : State :=
  { params := Config.defaultParams
    ctl := Control.reset
    img1 := Desc.reset
    img2 := Desc.reset
    raw1 := []
    raw2 := []
    pal1 := []
    pal2 := []
    out := []
    hidden := Hidden.dead
    env := { script := [], turns := [], regData := 0#32, bufData := 0#8, draws := 0, epoch := 0 } }

end Sys2Proof.Machine
end

