-- ==== Sys2Proof/Machine/Flags.lean ====
section
/-! DEFINITION. The flags: the STATUS word and the `irq` level. "These fields are the only flags the hardware has"
(10_state.md R23). -/

namespace Sys2Proof.Machine

/-- The number of STATUS.STATE (R23). -/
def RunState.code : RunState → BitVec 2
  | .idle => 0#2
  | .busy => 1#2
  | .done => 2#2
  | .error => 3#2

/-- The number of STATUS.ERR (R241); 0 is no error. -/
def errCode : Option ErrorCode → BitVec 4
  | none => 0#4
  | some .sizePngAndPnaAreDifferent => 1#4
  | some .lessDataSize => 2#4
  | some .paletteNotFoundWhenIndexedPng => 3#4
  | some .invalidPalette => 4#4
  | some .invalidIndexForPalette => 5#4
  | some .illegalCommand => 6#4
  | some .illegalConfig => 7#4

/-- The number of STATUS.ERR_IMG (R23, R251). -/
def errImgCode : Option Img → BitVec 2
  | none => 0#2
  | some .img1 => 1#2
  | some .img2 => 2#2

/-- The word a read of STATUS returns: STATE 1:0, ERR 7:4, ERR_IMG 9:8, the rest 0 (R23). -/
def statusWord (s : State) : Word :=
  s.ctl.runState.code.setWidth 32 ||| ((errCode s.ctl.err).setWidth 32 <<< 4)
    ||| ((errImgCode s.ctl.errImg).setWidth 32 <<< 8)

/-- The word a read of CTRL returns: IE in bit 0, the rest 0 (R24). -/
def ctrlWord (s : State) : Word :=
  if s.ctl.ie then 1#32 else 0#32

/-- The interrupt output, a level (R256). -/
def irq (s : State) : Bool :=
  s.ctl.ie && (decide (s.ctl.runState = .done) || decide (s.ctl.runState = .error))

end Sys2Proof.Machine
end

