-- ==== Sys2Proof/Machine/Ops.lean ====
section
/-! DEFINITION. The named operations over buffers and registers, and the four atomic status updates: the start of an
operation (R221), its completion (R223), error entry (R252) and the return (R225); and the reset event (R270). -/

namespace Sys2Proof.Machine

/-! ### One byte memory -/

/-- The byte at an address, where it has a value. -/
def Memory.read : Memory → Nat → Option Byte
  | [], _ => none
  | (x, c) :: m, a => if x = a then some c else Memory.read m a

/-- `MemWrite(S, a, 1, v)`, keeping the canonical form. -/
def Memory.write : Memory → Nat → Byte → Memory
  | [], a, v => [(a, v)]
  | (x, c) :: m, a, v =>
    if a < x then (a, v) :: (x, c) :: m
    else if a = x then (a, v) :: m
    else (x, c) :: Memory.write m a v

/-- The memory whose bytes from `a` on are `bytes` and no other byte has a value. -/
def cellsFrom : (a : Nat) → (bytes : List Byte) → Memory
  | _, [] => []
  | a, b :: bytes => (a, b) :: cellsFrom (a + 1) bytes

/-! ### The buffers of the state -/

/-- The memory of a space. -/
def State.mem (s : State) : Space → Memory
  | .raw1 => s.raw1
  | .raw2 => s.raw2
  | .pal1 => s.pal1
  | .pal2 => s.pal2
  | .out => s.out

/-- The state with the memory of one space replaced. -/
def State.setMem (s : State) (space : Space) (m : Memory) : State :=
  match space with
  | .raw1 => { s with raw1 := m }
  | .raw2 => { s with raw2 := m }
  | .pal1 => { s with pal1 := m }
  | .pal2 => { s with pal2 := m }
  | .out => { s with out := m }

/-- `MemRead(S, a, 1)`: the byte the buffer holds. A byte not written since reset holds the free value drawn once at
reset (R273, U3). -/
def byteAt (s : State) (space : Space) (a : Nat) : Byte :=
  match Memory.read (s.mem space) a with
  | some b => b
  | none => Config.powerOnByte s.env.epoch space a

/-- The bytes at addresses 0 to `n`-1 of a space (00_scope.md section 4, "RAWk as a sequence"). -/
def bytesAt (s : State) (space : Space) (n : Nat) : List Byte :=
  (List.range n).map (byteAt s space)

/-! ### The descriptors -/

/-- The descriptor of image k. -/
def State.desc (s : State) : Img → Desc
  | .img1 => s.img1
  | .img2 => s.img2

/-- The state with the descriptor of image k replaced. -/
def State.setDesc (s : State) (k : Img) (d : Desc) : State :=
  match k with
  | .img1 => { s with img1 := d }
  | .img2 => { s with img2 := d }

/-! ### The register file -/

/-- The register map: which register an aligned byte offset names; `none` is unmapped (R21). -/
def regAt (offset : Nat) : Option Reg :=
  match offset with
  | 0x00 => some .cmd
  | 0x04 => some .status
  | 0x08 => some .ctrl
  | 0x0C => some .outLen
  | 0x10 => some .errPos
  | 0x20 => some (.width .img1)
  | 0x24 => some (.height .img1)
  | 0x28 => some (.fmt .img1)
  | 0x2C => some (.rawLen .img1)
  | 0x30 => some (.palLen .img1)
  | 0x40 => some (.width .img2)
  | 0x44 => some (.height .img2)
  | 0x48 => some (.fmt .img2)
  | 0x4C => some (.rawLen .img2)
  | 0x50 => some (.palLen .img2)
  | _ => none

/-- The offset of a register (R21). -/
def regOffset : Reg → Nat
  | .cmd => 0x00
  | .status => 0x04
  | .ctrl => 0x08
  | .outLen => 0x0C
  | .errPos => 0x10
  | .width .img1 => 0x20
  | .height .img1 => 0x24
  | .fmt .img1 => 0x28
  | .rawLen .img1 => 0x2C
  | .palLen .img1 => 0x30
  | .width .img2 => 0x40
  | .height .img2 => 0x44
  | .fmt .img2 => 0x48
  | .rawLen .img2 => 0x4C
  | .palLen .img2 => 0x50

/-- What a read of a register returns, in every state (R42): CMD returns 0 (R22). -/
def readReg (s : State) : Reg → Word
  | .cmd => 0#32
  | .status => statusWord s
  | .ctrl => ctrlWord s
  | .outLen => s.ctl.outLen
  | .errPos => s.ctl.errPos
  | .width k => (s.desc k).width
  | .height k => (s.desc k).height
  | .fmt k => formatWord (s.desc k).fmt
  | .rawLen k => (s.desc k).rawLen
  | .palLen k => (s.desc k).palLen

/-- "A read of an unmapped offset returns 0" (R33). -/
def readOffset (s : State) (offset : Nat) : Word :=
  match regAt offset with
  | some r => readReg s r
  | none => 0#32

/-- A descriptor register takes a written word; reserved bits of the format are not stored (R28 to R32, R100). -/
def writeDesc (s : State) (k : Img) (update : Desc → Desc) : State :=
  if s.ctl.runState = .busy then s else s.setDesc k (update (s.desc k))

/-- What a host write does to a storing register. CTRL is writable in every state (R24); the descriptors are written
only when STATE is not BUSY (R42); the read-only registers drop the write (R21); CMD stores nothing (R22). -/
def writeReg (s : State) (r : Reg) (v : Word) : State :=
  match r with
  | .cmd => s
  | .status => s
  | .ctrl => { s with ctl := { s.ctl with ie := v.getLsbD 0 } }
  | .outLen => s
  | .errPos => s
  | .width k => writeDesc s k fun d => { d with width := v }
  | .height k => writeDesc s k fun d => { d with height := v }
  | .fmt k => writeDesc s k fun d => { d with fmt := formatFields v }
  | .rawLen k => writeDesc s k fun d => { d with rawLen := v }
  | .palLen k => writeDesc s k fun d => { d with palLen := v }

/-! ### The atomic status updates -/

/-- Start of an operation with command word `w` (R221). The bytes of OUT lose their value (R37, U1) and the hidden
state is live with only the command in it (R40). -/
def startOp (w : Word) (s : State) : State :=
  { s with
    ctl := { s.ctl with runState := .busy, err := none, errImg := none, outLen := 0#32, errPos := 0#32 }
    out := []
    hidden := { Hidden.dead with latched := w } }

/-- The last byte of the result is in OUT (R223: "made after the last byte of OUT was written"): OUT holds exactly
the bytes of the result, every other byte of it is unspecified (R37, R69). -/
def writeOut (bytes : List Byte) (s : State) : State :=
  { s with out := cellsFrom 0 bytes }

/-- The completion update (R223); the hidden state is dead after it (R40). -/
def completeOp (len : Nat) (s : State) : State :=
  { s with
    ctl := { s.ctl with runState := .done, outLen := BitVec.ofNat 32 len }
    hidden := Hidden.dead }

/-- TAKING AN ERROR: `raise E(img, pos)` ends the running operation with one atomic update (R252); OUT is
unspecified after it (R69, U6). -/
def raiseError (r : Raise) (s : State) : State :=
  { s with
    ctl :=
      { s.ctl with
        runState := .error, err := some r.code, errImg := r.img, outLen := 0#32,
        errPos := BitVec.ofNat 32 r.pos }
    out := []
    hidden := Hidden.dead }

/-- How an operation ends: the completion update with its result, or error entry (R223, R252). -/
def settle (s : State) (r : Except Raise (List Byte)) : State :=
  match r with
  | .ok bytes => completeOp bytes.length (writeOut bytes s)
  | .error e => raiseError e s

/-- RETURNING: ACK leaves DONE and ERROR for IDLE, clears the status, and OUT is unspecified after it; in IDLE it
does nothing (R225, R254). ACK never reaches a BUSY core (R227). -/
def acknowledge (s : State) : State :=
  match s.ctl.runState with
  | .idle => s
  | .busy => s
  | .done =>
    { s with
      ctl := { s.ctl with runState := .idle, err := none, errImg := none, outLen := 0#32, errPos := 0#32 }
      out := [] }
  | .error =>
    { s with
      ctl := { s.ctl with runState := .idle, err := none, errImg := none, outLen := 0#32, errPos := 0#32 }
      out := [] }

/-- The reset event: every register takes its value of R41, no byte of a buffer keeps a value (R273: a new draw for
every byte), a running operation ends at once (R272). The host's script goes on. -/
def resetEvent (s : State) : State :=
  { s with
    ctl := Control.reset
    img1 := Desc.reset
    img2 := Desc.reset
    raw1 := []
    raw2 := []
    pal1 := []
    pal2 := []
    out := []
    hidden := Hidden.dead
    env := { s.env with epoch := s.env.epoch + 1 } }

/-! ### Host accesses to the buffers -/

/-- A host write of one byte: dropped while BUSY, for OUT, and at or above the capacity (R70, R71, R76). -/
def hostStore (s : State) (space : Space) (a : Nat) (v : Byte) : State :=
  if s.ctl.runState = .busy then s
  else if space = .out then s
  else if s.params.capacity space ≤ a then s
  else s.setMem space (Memory.write (s.mem space) a v)

/-- Whether a host read of a byte returns what the buffer holds: STATE is not BUSY, the address is below the capacity,
and for OUT the byte is a valid byte of a result (R70, R72, R76, R279). -/
def readable (s : State) (space : Space) (a : Nat) : Bool :=
  decide (s.ctl.runState ≠ .busy) && decide (a < s.params.capacity space) &&
    (decide (space ≠ .out) || (decide (s.ctl.runState = .done) && decide (a < s.ctl.outLen.toNat)))

/-- A host read of one byte; it changes nothing but what the port returns (R68). Where the value is unspecified the
port returns the next free byte (U1, U2, U7). -/
def hostLoad (s : State) (space : Space) (a : Nat) : State :=
  if readable s space a then { s with env := { s.env with bufData := byteAt s space a } }
  else { s with env := { s.env with bufData := Config.freeByte s.env.draws, draws := s.env.draws + 1 } }

end Sys2Proof.Machine
end

