-- ==== Sys2Proof/Machine/Operands.lean ====
section
/-! DEFINITION. Operand assembly (30_encoding.md R101), the configuration check (45_control_commands.md R222) and the
order of the phases (R228). -/

namespace Sys2Proof.Machine

/-- Samples per pixel (R96). -/
def arityOf : Model → Nat
  | .gray => 1
  | .graya => 2
  | .rgb => 3
  | .rgba => 4
  | .idx => 1

/-- "MODEL = IDX selects index mode; GRAY, GRAYA, RGB and RGBA select scaled mode" (R129). -/
def modeOf : Model → Mode
  | .gray => .scaled
  | .graya => .scaled
  | .rgb => .scaled
  | .rgba => .scaled
  | .idx => .index

/-- The mode as the running unpacker reads it from the MODEL field (R129, R132). -/
def modeOfField (m : BitVec 3) : Mode :=
  if m = Model.code .idx then .index else .scaled

/-- `RAWk[0 .. IMGk_RAW_LEN)` (R31, R101). -/
def rawBytes (s : State) (k : Img) : List Byte :=
  bytesAt s k.rawSpace (s.desc k).rawLen.toNat

/-- `PALk[0 .. IMGk_PAL_LEN)` (R32, R101). -/
def palBytes (s : State) (k : Img) : List Byte :=
  bytesAt s k.palSpace (s.desc k).palLen.toNat

/-- `pixel_count = IMG1_WIDTH · IMG1_HEIGHT`, an exact product (R202). -/
def pixelCount (s : State) : Nat :=
  s.img1.width.toNat * s.img1.height.toNat

/-- The size check of R201 passes: both dimensions are equal. -/
def sizesAgree (s : State) : Bool :=
  decide (s.img1.width = s.img2.width) && decide (s.img1.height = s.img2.height)

/-- `raise E(k, pos)` from an `err(E, pos)` of a pure function (00_scope.md section 4). -/
def withImage {α : Type} (k : Img) : Except Err α → Except Raise α
  | .ok a => .ok a
  | .error e => .error { code := e.code, img := some k, pos := e.pos }

/-- What IllegalConfig records (R248). -/
def illegalConfig (k : Img) : Raise :=
  { code := .illegalConfig, img := some k, pos := 0 }

/-- The configuration check `legal(k)` of R222: the legal format, or IllegalConfig. -/
def checkImage (s : State) (k : Img) : Except Raise Format :=
  match decodeFormat (s.desc k).fmt with
  | .error _ => .error (illegalConfig k)
  | .ok f =>
    if (s.desc k).rawLen.toNat ≤ s.params.rawCap ∧ (s.desc k).palLen.toNat ≤ s.params.palCap then .ok f
    else .error (illegalConfig k)

/-- The image a one-image command works on, or image 1, which MERGE does first (R93, R228). -/
def firstImage : Instr → Img
  | .nop => .img1
  | .merge => .img1
  | .unpack k => k
  | .norm k => k
  | .mask k => k
  | .ack => .img1
  | .d1 => .img1
  | .d2 => .img1
  | .d4 => .img1
  | .d8 => .img1
  | .d16 => .img1
  | .gray => .img1
  | .graya => .img1
  | .rgb => .img1
  | .rgba => .img1
  | .idx _ => .img1

/-- The phase that follows a phase that succeeded: the columns of the table of R228. `image` is the image in work. -/
def nextPhase (cmd : Option Instr) (image : Img) : Phase → Phase
  | .decode => .config
  | .config =>
    match cmd with
    | some .merge => .size
    | _ => .unpack
  | .size => .unpack
  | .unpack =>
    match cmd with
    | some (.unpack _) => .compose
    | _ => .normalise
  | .normalise =>
    match cmd, image with
    | some .merge, .img1 => .adjustRgba
    | some .merge, .img2 => .luminance
    | some (.mask _), _ => .luminance
    | _, _ => .compose
  | .adjustRgba => .unpack
  | .luminance =>
    match cmd with
    | some .merge => .adjustAlpha
    | _ => .compose
  | .adjustAlpha => .compose
  | .compose => .complete
  | .complete => .complete

/-- The phase after `p` for the operation that is running. -/
def phaseAfter (s : State) (p : Phase) : Phase :=
  nextPhase (decodeOperation s.hidden.latched) s.hidden.image p

end Sys2Proof.Machine
end

