-- ==== Sys2Proof/Machine/Control.lean ====
section
/-! DEFINITION. The control commands NOP and ACK (45_control_commands.md). -/

namespace Sys2Proof.Machine

/-- NOP: "No register, buffer or pin changes, in any state" (R224). -/
def execNop (s : State) : Host.Outcome State Fault Refusal :=
  .next s

/-- ACK: return to IDLE (R225). -/
def execAck (s : State) : Host.Outcome State Fault Refusal :=
  .next (acknowledge s)

end Sys2Proof.Machine
end

