-- ==== Sys2Proof/Machine/BitUnpacker.lean ====
section
/-! DEFINITION. The bit_unpacker (40_bit_unpacker.md): the two modes, the five depth encodings D1, D2, D4, D8, D16,
and the command UNPACK. -/

namespace Sys2Proof.Machine

/-! ### The modes -/

/-- Scaled mode, `scale(n, v)`: left-align, and fill the low bits with ones exactly when the least significant bit of
the value is 1 (R127). The fill is kept as it is, not corrected (R133). -/
def scale (n v : Nat) : Nat :=
  (v <<< (8 - n)) ||| (if v % 2 = 1 then 2 ^ (8 - n) - 1 else 0)

/-- The output sample of a raw n-bit value in a mode (R127, R128); it is a byte at every depth (R120). -/
def sampleOf (mode : Mode) (n v : Nat) : Byte :=
  match mode with
  | .scaled => BitVec.ofNat 8 (scale n v)
  | .index => BitVec.ofNat 8 v

/-- Group `j` of a byte at depth n in 1, 2, 4, 8, most significant bits first (R62). -/
def groupValue (n : Nat) (b : Byte) (j : Nat) : Nat :=
  (b.toNat >>> (8 - n * (j + 1))) &&& (2 ^ n - 1)

/-- All the `8/n` samples of one byte, group 0 first (R121). -/
def byteSamples (mode : Mode) (n : Nat) (b : Byte) : List Byte :=
  (List.range (8 / n)).map fun j => sampleOf mode n (groupValue n b j)

/-- The samples of a byte sequence at depth n in 1, 2, 4: the double loop of R131. -/
def groupSamples (mode : Mode) (n : Nat) (bytes : List Byte) : List Byte :=
  bytes.flatMap (byteSamples mode n)

/-- The high-order byte of every pair, the first of the two (R63, R126). -/
def highBytes : List Byte → List Byte
  | [] => []
  | [_] => []
  | h :: _ :: rest => h :: highBytes rest

/-! ### The five extractions as functions -/

/-- D1 (R122). -/
def samplesD1 (mode : Mode) (bytes : List Byte) : Except Err (List Byte) :=
  .ok (groupSamples mode 1 bytes)

/-- D2 (R123). -/
def samplesD2 (mode : Mode) (bytes : List Byte) : Except Err (List Byte) :=
  .ok (groupSamples mode 2 bytes)

/-- D4 (R124). -/
def samplesD4 (mode : Mode) (bytes : List Byte) : Except Err (List Byte) :=
  .ok (groupSamples mode 4 bytes)

/-- D8: "Depth 8 passes bytes through unchanged", in both modes (R125). -/
def samplesD8 (bytes : List Byte) : Except Err (List Byte) :=
  .ok bytes

/-- D16: the high-order bytes, the same in both modes (R126, R128); LessDataSize when the byte count is odd (R130). -/
def samplesD16 (bytes : List Byte) : Except Err (List Byte) :=
  if bytes.length % 2 = 1 then .error { code := .lessDataSize, pos := 0 }
  else .ok (highBytes bytes)

/-- `unpack(B, n, mode)` (R131). -/
def unpack (bytes : List Byte) (depth : Depth) (mode : Mode) : Except Err (List Byte) :=
  match depth with
  | .d1 => samplesD1 mode bytes
  | .d2 => samplesD2 mode bytes
  | .d4 => samplesD4 mode bytes
  | .d8 => samplesD8 bytes
  | .d16 => samplesD16 bytes

/-! ### The five extractions as phases of a running operation -/

/-- The end of an unpack phase of the running operation: the sample sequence goes to the normaliser (or, for UNPACK,
to OUT) and the progress counters stand at its end (R40, R228); or the error ends the operation (R130). -/
def deliverSamples (s : State) (r : Except Err (List Byte)) : State :=
  match withImage s.hidden.image r with
  | .ok samples =>
    { s with
      hidden :=
        { s.hidden with
          samples := samples
          byteIdx := (rawBytes s s.hidden.image).length
          sampleIdx := samples.length
          phase := phaseAfter s .unpack } }
  | .error e => raiseError e s

/-- The mode of the image in work (R129). -/
def currentMode (s : State) : Mode :=
  modeOfField (s.desc s.hidden.image).fmt.model

/-- D1 on the raw bytes of the image in work (R122). -/
def execD1 (s : State) : Host.Outcome State Fault Refusal :=
  .next (deliverSamples s (samplesD1 (currentMode s) (rawBytes s s.hidden.image)))

/-- D2 on the raw bytes of the image in work (R123). -/
def execD2 (s : State) : Host.Outcome State Fault Refusal :=
  .next (deliverSamples s (samplesD2 (currentMode s) (rawBytes s s.hidden.image)))

/-- D4 on the raw bytes of the image in work (R124). -/
def execD4 (s : State) : Host.Outcome State Fault Refusal :=
  .next (deliverSamples s (samplesD4 (currentMode s) (rawBytes s s.hidden.image)))

/-- D8 on the raw bytes of the image in work (R125). -/
def execD8 (s : State) : Host.Outcome State Fault Refusal :=
  .next (deliverSamples s (samplesD8 (rawBytes s s.hidden.image)))

/-- D16 on the raw bytes of the image in work (R126, R130). -/
def execD16 (s : State) : Host.Outcome State Fault Refusal :=
  .next (deliverSamples s (samplesD16 (rawBytes s s.hidden.image)))

/-! ### The command -/

/-- The body of UNPACK k after the configuration check (R132): no palette is read. -/
def unpackResult (s : State) (k : Img) : Except Raise (List Byte) :=
  match checkImage s k with
  | .error r => .error r
  | .ok f => withImage k (unpack (rawBytes s k) f.depth (modeOf f.model))

/-- UNPACK k, from the start update to the completion update or error entry (R132, R221, R223, R252). -/
def execUnpack (k : Img) (s : State) : Host.Outcome State Fault Refusal :=
  .next (settle (startOp (encode (.unpack k)) s) (unpackResult s k))

end Sys2Proof.Machine
end

