-- ==== Sys2Proof/Machine/PaletteLut.lean ====
section
/-! DEFINITION. The palette_lut (41_palette_lut.md): palette resolution and lookup. -/

namespace Sys2Proof.Machine

/-- The 3-byte RGB groups of a byte sequence, in order; a trailing group of one or two bytes is no entry (R150,
R151). -/
def rgbGroups : List Byte → List Rgb
  | r :: g :: b :: rest => { r := r, g := g, b := b } :: rgbGroups rest
  | _ => []

/-- `resolve(P)`: the table, or InvalidPalette when the byte count is no multiple of 3 (R150, R151). -/
def resolve (palette : List Byte) : Except Err (List Rgb) :=
  if palette.length % 3 ≠ 0 then .error { code := .invalidPalette, pos := 0 }
  else .ok (rgbGroups palette)

/-- `lookup(table, i)`: not found exactly when `i` is at least the entry count (R152, R153). -/
def lookup (table : List Rgb) (i : Nat) : Option Rgb :=
  table[i]?

end Sys2Proof.Machine
end

