-- ==== Sys2Proof/Machine/ColorNormalizer.lean ====
section
/-! DEFINITION. The color_normalizer_mux (42_color_normalizer.md): the five model encodings GRAY, GRAYA, RGB, RGBA,
IDX, and the command NORM. -/

namespace Sys2Proof.Machine

/-- "LessDataSize if the unpacked sample sequence ends mid-pixel-group" (R172). -/
def lessData : Err := { code := .lessDataSize, pos := 0 }

/-- One RGBA pixel in the order R, G, B, A (R65). -/
def pixel (r g b a : Byte) : List Byte := [r, g, b, a]

/-! ### The five branches as functions of the sample sequence -/

/-- GRAY: `(g, g, g, 255)` (R167). -/
def rgbaGray (samples : List Byte) : Except Err (List Byte) :=
  .ok (samples.flatMap fun g => pixel g g g 255#8)

/-- The pixels `(g, g, g, a)` of a sequence of whole pairs. -/
def grayaPixels : List Byte → List Byte
  | g :: a :: rest => pixel g g g a ++ grayaPixels rest
  | _ => []

/-- GRAYA: `(g, g, g, a)` (R168). -/
def rgbaGraya (samples : List Byte) : Except Err (List Byte) :=
  if samples.length % 2 ≠ 0 then .error lessData else .ok (grayaPixels samples)

/-- The pixels `(r, g, b, 255)` of a sequence of whole triples. -/
def rgbPixels : List Byte → List Byte
  | r :: g :: b :: rest => pixel r g b 255#8 ++ rgbPixels rest
  | _ => []

/-- RGB: `(r, g, b, 255)` (R169). -/
def rgbaRgb (samples : List Byte) : Except Err (List Byte) :=
  if samples.length % 3 ≠ 0 then .error lessData else .ok (rgbPixels samples)

/-- RGBA: "passthrough" (R170). -/
def rgbaRgba (samples : List Byte) : Except Err (List Byte) :=
  if samples.length % 4 ≠ 0 then .error lessData else .ok samples

/-- The lookup loop of R171 from pixel `p` on: the pixels, or InvalidIndexForPalette at the first index that is not
found. A palette entry has no alpha (R156). -/
def lookupPixels (table : List Rgb) (p : Nat) : List Byte → Except Err (List Byte)
  | [] => .ok []
  | i :: rest =>
    match lookup table i.toNat with
    | none => .error { code := .invalidIndexForPalette, pos := p }
    | some c =>
      match lookupPixels table (p + 1) rest with
      | .error e => .error e
      | .ok out => .ok (pixel c.r c.g c.b 255#8 ++ out)

/-- The table of an Indexed image: PaletteNotFoundWhenIndexedPng, then InvalidPalette (R171, R173). -/
def indexTable (palPresent : Bool) (palette : List Byte) : Except Err (List Rgb) :=
  if palPresent then resolve palette
  else .error { code := .paletteNotFoundWhenIndexedPng, pos := 0 }

/-- IDX: palette lookup `(p.r, p.g, p.b, 255)` (R171). -/
def rgbaIdx (palPresent : Bool) (palette samples : List Byte) : Except Err (List Byte) :=
  match indexTable palPresent palette with
  | .error e => .error e
  | .ok table => lookupPixels table 0 samples

/-- `normalise(B, n, model, pp, P)`: the unpacker, then the branch (R174, R176). -/
def normalise (f : Format) (raw palette : List Byte) : Except Err (List Byte) :=
  match unpack raw f.depth (modeOf f.model) with
  | .error e => .error e
  | .ok samples =>
    match f.model with
    | .gray => rgbaGray samples
    | .graya => rgbaGraya samples
    | .rgb => rgbaRgb samples
    | .rgba => rgbaRgba samples
    | .idx => rgbaIdx f.palPresent palette samples

/-! ### The five branches as phases of a running operation -/

/-- The end of a normalise phase of the running operation: the RGBA buffer of the image in work stands, with the
pixel counter at its end (R40, R228); or the error ends the operation (R172). -/
def deliverRgba (s : State) (r : Except Err (List Byte)) : State :=
  match withImage s.hidden.image r with
  | .ok rgba =>
    { s with
      hidden :=
        { s.hidden with rgba := rgba, pixelIdx := rgba.length / 4, phase := phaseAfter s .normalise } }
  | .error e => raiseError e s

/-- GRAY on the samples of the image in work (R167). -/
def execGray (s : State) : Host.Outcome State Fault Refusal :=
  .next (deliverRgba s (rgbaGray s.hidden.samples))

/-- GRAYA on the samples of the image in work (R168). -/
def execGraya (s : State) : Host.Outcome State Fault Refusal :=
  .next (deliverRgba s (rgbaGraya s.hidden.samples))

/-- RGB on the samples of the image in work (R169). -/
def execRgb (s : State) : Host.Outcome State Fault Refusal :=
  .next (deliverRgba s (rgbaRgb s.hidden.samples))

/-- RGBA on the samples of the image in work (R170). -/
def execRgba (s : State) : Host.Outcome State Fault Refusal :=
  .next (deliverRgba s (rgbaRgba s.hidden.samples))

/-- IDX on the samples of the image in work: the palette LUT is loaded from PALk and read once per pixel (R38, R155,
R171). -/
def execIdx (palPresent : Bool) (s : State) : Host.Outcome State Fault Refusal :=
  match withImage s.hidden.image (indexTable palPresent (palBytes s s.hidden.image)) with
  | .error e => .next (raiseError e s)
  | .ok table =>
    let loaded : State := { s with hidden := { s.hidden with lut := table } }
    .next (deliverRgba loaded (lookupPixels loaded.hidden.lut 0 loaded.hidden.samples))

/-! ### The command -/

/-- Unpack and normalise image k after its configuration check (R175); NORM, MASK and MERGE share it. -/
def normaliseImage (s : State) (k : Img) (f : Format) : Except Raise (List Byte) :=
  withImage k (normalise f (rawBytes s k) (palBytes s k))

/-- The body of NORM k (R175): the length is not adjusted. -/
def normResult (s : State) (k : Img) : Except Raise (List Byte) :=
  match checkImage s k with
  | .error r => .error r
  | .ok f => normaliseImage s k f

/-- NORM k, from the start update to the completion update or error entry (R175, R221, R223, R252). -/
def execNorm (k : Img) (s : State) : Host.Outcome State Fault Refusal :=
  .next (settle (startOp (encode (.norm k)) s) (normResult s k))

end Sys2Proof.Machine
end

