-- ==== Sys2Proof/Machine/Luminance.lean ====
section
/-! DEFINITION. The luminance_calculator (43_luminance_calculator.md) and the command MASK. -/

namespace Sys2Proof.Machine

/-- `luma(r, g, b) = (r + g + b) // 3`, the sum formed without a wrap (R190, R191). -/
def luma (r g b : Byte) : Byte :=
  BitVec.ofNat 8 ((r.toNat + g.toNat + b.toNat) / 3)

/-- `mask(X)`: one luminance byte per pixel; the alpha of the source is not read (R192, R193). -/
def maskOf : List Byte → List Byte
  | r :: g :: b :: _ :: rest => luma r g b :: maskOf rest
  | _ => []

/-- The body of MASK k (R194): the length is not adjusted. -/
def maskResult (s : State) (k : Img) : Except Raise (List Byte) :=
  match normResult s k with
  | .error r => .error r
  | .ok rgba => .ok (maskOf rgba)

/-- MASK k, from the start update to the completion update or error entry (R194, R221, R223, R252). -/
def execMask (k : Img) (s : State) : Host.Outcome State Fault Refusal :=
  .next (settle (startOp (encode (.mask k)) s) (maskResult s k))

end Sys2Proof.Machine
end

