-- ==== Sys2Proof/Machine/Merger.lean ====
section
/-! DEFINITION. The image_merger (44_image_merger.md) and the command MERGE. -/

namespace Sys2Proof.Machine

/-- `adjust(X, L)`: exactly `L` bytes, failing when there are fewer and dropping trailing bytes when there are more
(R200). -/
def adjust (bytes : List Byte) (len : Nat) : Except Err (List Byte) :=
  if bytes.length < len then .error { code := .lessDataSize, pos := 0 } else .ok (bytes.take len)

/-- What the size check records: the error belongs to no single image (R201, R242). -/
def sizeMismatch : Raise :=
  { code := .sizePngAndPnaAreDifferent, img := none, pos := 0 }

/-- Step 4, composition: R, G, B of image 1 with the mask byte as alpha (R205). -/
def composePixels : List Byte → List Byte → List Byte
  | r :: g :: b :: _ :: rest, a :: alphas => pixel r g b a ++ composePixels rest alphas
  | _, _ => []

/-- Step 2: image 1 is normalised whole and cut afterwards (R203). -/
def mergeRgba1 (s : State) (f : Format) : Except Raise (List Byte) :=
  match normaliseImage s .img1 f with
  | .error r => .error r
  | .ok rgba => withImage .img1 (adjust rgba (pixelCount s * 4))

/-- Step 3: image 2 is normalised whole, its mask taken and cut (R204). -/
def mergeAlpha2 (s : State) (f : Format) : Except Raise (List Byte) :=
  match normaliseImage s .img2 f with
  | .error r => .error r
  | .ok rgba => withImage .img2 (adjust (maskOf rgba) (pixelCount s))

/-- `merge(img1, img2)`: size check, image 1, image 2, composition (R207). -/
def mergeImages (s : State) (f1 f2 : Format) : Except Raise (List Byte) :=
  if sizesAgree s then
    match mergeRgba1 s f1 with
    | .error r => .error r
    | .ok rgba1 =>
      match mergeAlpha2 s f2 with
      | .error r => .error r
      | .ok alpha2 => .ok (composePixels rgba1 alpha2)
  else .error sizeMismatch

/-- The configuration checks of both images, image 1 first (R222), then the body of MERGE (R208). -/
def mergeResult (s : State) : Except Raise (List Byte) :=
  match checkImage s .img1 with
  | .error r => .error r
  | .ok f1 =>
    match checkImage s .img2 with
    | .error r => .error r
    | .ok f2 => mergeImages s f1 f2

/-- MERGE, from the start update to the completion update or error entry (R208, R221, R223, R252). -/
def execMerge (s : State) : Host.Outcome State Fault Refusal :=
  .next (settle (startOp (encode .merge) s) (mergeResult s))

end Sys2Proof.Machine
end

