-- ==== Sys2Proof/Machine/Dispatch.lean ====
section
/-! DEFINITION. The meaning of every instruction: one arm per constructor of `Instr`, one direct call of its meaning
per arm. -/

namespace Sys2Proof.Machine

def exec (i : Instr) (s : State) : Host.Outcome State Fault Refusal :=
  match i with
  | .nop => Sys2Proof.Machine.execNop s
  | .merge => Sys2Proof.Machine.execMerge s
  | .unpack k => Sys2Proof.Machine.execUnpack k s
  | .norm k => Sys2Proof.Machine.execNorm k s
  | .mask k => Sys2Proof.Machine.execMask k s
  | .ack => Sys2Proof.Machine.execAck s
  | .d1 => Sys2Proof.Machine.execD1 s
  | .d2 => Sys2Proof.Machine.execD2 s
  | .d4 => Sys2Proof.Machine.execD4 s
  | .d8 => Sys2Proof.Machine.execD8 s
  | .d16 => Sys2Proof.Machine.execD16 s
  | .gray => Sys2Proof.Machine.execGray s
  | .graya => Sys2Proof.Machine.execGraya s
  | .rgb => Sys2Proof.Machine.execRgb s
  | .rgba => Sys2Proof.Machine.execRgba s
  | .idx palPresent => Sys2Proof.Machine.execIdx palPresent s

end Sys2Proof.Machine
end

