-- ==== Sys2Proof/Machine/HostPort.lean ====
section
/-! DEFINITION. The host's moves: one atomic access each (10_state.md R21, R33, R42; 20_memory.md R64, R68 to R76;
45_control_commands.md R220, R227; 70_reset_and_hazards.md R270). -/

namespace Sys2Proof.Machine

/-- A write of the word `w` to CMD (R220): dropped while BUSY (R227); NOP and ACK run at once; every other word, legal
or not, starts an operation (R221, R226). -/
def commandWrite (w : Word) (s : State) : Host.Outcome State Fault Refusal :=
  if s.ctl.runState = .busy then .next s
  else if w = encode .nop then exec .nop s
  else if w = encode .ack then exec .ack s
  else .next (startOp w s)

/-- A host write of a word at a byte offset of the register space: a write to an unmapped offset is dropped (R33). -/
def writeOffset (offset : Nat) (v : Word) (s : State) : Host.Outcome State Fault Refusal :=
  match regAt offset with
  | none => .next s
  | some .cmd => commandWrite v s
  | some r => .next (writeReg s r v)

/-- The register port returns a word. -/
def returnWord (w : Word) (s : State) : State :=
  { s with env := { s.env with regData := w } }

/-- `WAIT` reads STATUS and stays the host's next access while STATE = BUSY (R102, R285). -/
def waitMove (s : State) : State :=
  let polled := returnWord (statusWord s) s
  if s.ctl.runState = .busy then { polled with env := { polled.env with script := .wait :: polled.env.script } }
  else polled

/-- One access of the host. An access of the register port that is not an aligned word is refused (R33, U8). -/
def hostMove (a : Access) (s : State) : Host.Outcome State Fault Refusal :=
  if a.wf then
    match a with
    | .reset => .next (resetEvent s)
    | .wr offset v => writeOffset offset v s
    | .rd offset => .next (returnWord (readOffset s offset) s)
    | .st space address v => .next (hostStore s space address v)
    | .ld space address => .next (hostLoad s space address)
    | .wait => .next (waitMove s)
  else .refused .subWordRegisterAccess

/-- The host makes its next access; with none to make nothing happens ("when STATE ≠ BUSY the core does nothing",
R262). -/
def serveHost (s : State) : Host.Outcome State Fault Refusal :=
  match s.env.script with
  | [] => .next s
  | a :: rest => hostMove a { s with env := { s.env with script := rest } }

end Sys2Proof.Machine
end

