-- ==== Sys2Proof/Machine/HostScript.lean ====
section
/-! DEFINITION. The host-script notation and its pseudo-instructions, as lists of host accesses (30_encoding.md R102,
R103). -/

namespace Sys2Proof.Machine

/-- `WR reg, value`. -/
def scriptWr (r : Reg) (value : Word) : Access := .wr (regOffset r) value

/-- `RD reg`. -/
def scriptRd (r : Reg) : Access := .rd (regOffset r)

/-- `ST space, addr, b0 b1 …`: one byte access per byte, addresses rising. -/
def scriptSt (space : Space) : (address : Nat) → List Byte → List Access
  | _, [] => []
  | a, b :: bytes => .st space a b :: scriptSt space (a + 1) bytes

/-- `LD space, addr, count`. -/
def scriptLd (space : Space) (address count : Nat) : List Access :=
  (List.range count).map fun i => .ld space (address + i)

/-- `IMG k, w, h, model, Dn, pp`. -/
def scriptImg (k : Img) (w h : Word) (f : Format) : List Access :=
  [scriptWr (.width k) w, scriptWr (.height k) h, scriptWr (.fmt k) (encodeFormat f)]

/-- `RAW k, b0 … b(m-1)`. -/
def scriptRaw (k : Img) (bytes : List Byte) : List Access :=
  scriptSt k.rawSpace 0 bytes ++ [scriptWr (.rawLen k) (BitVec.ofNat 32 bytes.length)]

/-- `PAL k, b0 … b(m-1)`; it does not set PAL_PRESENT. -/
def scriptPal (k : Img) (bytes : List Byte) : List Access :=
  scriptSt k.palSpace 0 bytes ++ [scriptWr (.palLen k) (BitVec.ofNat 32 bytes.length)]

/-- `CMD op[, k]`: the command word written to CMD. -/
def scriptCmd (i : Instr) : Access := scriptWr .cmd (encode i)

/-- `RUN op[, k]`: the command, then `WAIT`. -/
def scriptRun (i : Instr) : List Access := [scriptCmd i, .wait]

end Sys2Proof.Machine
end

