-- ==== Sys2Proof/Machine/Sequencer.lean ====
section
/-! DEFINITION. The core's moves while BUSY (45_control_commands.md R226, R228, R229): the whole latched operation at
once, or one phase of it. What a move FETCHES is the latched command word, the DEPTH field, or the MODEL field. -/

namespace Sys2Proof.Machine

/-- What an illegal command word raises: "no descriptor is checked, no buffer is read" (R226, R247). -/
def illegalCommand : Raise := { code := .illegalCommand, img := none, pos := 0 }

/-- The running operation goes on at phase `p`. -/
def enterPhase (p : Phase) (s : State) : State :=
  { s with hidden := { s.hidden with phase := p } }

/-- A phase ends: it raises, or the operation goes on with the next phase (R228: "A phase runs only if every earlier
phase of its column succeeded"). -/
def endPhase {α : Type} (p : Phase) (s : State) (r : Except Raise α) (keep : α → Hidden) : State :=
  match r with
  | .ok a => { s with hidden := { keep a with phase := phaseAfter s p } }
  | .error e => raiseError e s

/-- Phase 0: the latched word is one of the seven operation words, or the operation is `raise IllegalCommand` (R226). -/
def phaseDecode (s : State) : State :=
  match decodeOperation s.hidden.latched with
  | none => raiseError illegalCommand s
  | some i => { s with hidden := { s.hidden with image := firstImage i, phase := phaseAfter s .decode } }

/-- The configuration check of the images the latched command uses, image 1 before image 2 for MERGE (R222). -/
def checkConfig (s : State) : Except Raise Unit :=
  match checkImage s s.hidden.image with
  | .error r => .error r
  | .ok _ =>
    match decodeOperation s.hidden.latched with
    | some .merge =>
      match checkImage s .img2 with
      | .error r => .error r
      | .ok _ => .ok ()
    | _ => .ok ()

/-- Phase 1 (R222). -/
def phaseConfig (s : State) : State :=
  endPhase .config s (checkConfig s) fun _ => s.hidden

/-- Phase 2 (R201). -/
def phaseSize (s : State) : State :=
  endPhase .size s (if sizesAgree s then .ok () else .error sizeMismatch) fun _ => s.hidden

/-- The extraction the DEPTH field of the image in work selects is run. A reserved field cannot stand here: phase 1
has raised IllegalConfig for it (R222) and a descriptor cannot change while BUSY (R42). -/
def phaseUnpack (s : State) : Host.Outcome State Fault Refusal :=
  match decodeDepth (s.desc s.hidden.image).fmt with
  | .ok i => exec i s
  | .error _ => .next (raiseError (illegalConfig s.hidden.image) s)

/-- The branch the MODEL field of the image in work selects is run (R176); a reserved field cannot stand here either. -/
def phaseNormalise (s : State) : Host.Outcome State Fault Refusal :=
  match decodeModel (s.desc s.hidden.image).fmt with
  | .ok i => exec i s
  | .error _ => .next (raiseError (illegalConfig s.hidden.image) s)

/-- Phase 5 (R203); image 2 is the image in work after it. -/
def phaseAdjustRgba (s : State) : State :=
  endPhase .adjustRgba s (withImage .img1 (adjust s.hidden.rgba (pixelCount s * 4)))
    fun bytes => { s.hidden with rgba1 := bytes, image := .img2 }

/-- Phase 8 (R193): it cannot fail. -/
def phaseLuminance (s : State) : State :=
  endPhase .luminance s (.ok (maskOf s.hidden.rgba)) fun bytes => { s.hidden with alpha2 := bytes }

/-- Phase 9 (R204). -/
def phaseAdjustAlpha (s : State) : State :=
  endPhase .adjustAlpha s (withImage .img2 (adjust s.hidden.alpha2 (pixelCount s)))
    fun bytes => { s.hidden with alpha2 := bytes }

/-- The result of the latched operation, from its hidden buffers (R132, R175, R194, R205). -/
def resultBytes (h : Hidden) : List Byte :=
  match decodeOperation h.latched with
  | some .merge => composePixels h.rgba1 h.alpha2
  | some (.unpack _) => h.samples
  | some (.mask _) => h.alpha2
  | _ => h.rgba

/-- Phase 10: compose or copy to OUT (R205, R228). -/
def phaseCompose (s : State) : State :=
  endPhase .compose (writeOut (resultBytes s.hidden) s) (.ok (resultBytes s.hidden))
    fun bytes => { s.hidden with result := bytes }

/-- Phase 11: the completion update (R223). -/
def phaseComplete (s : State) : State :=
  completeOp s.hidden.result.length s

/-- One phase of the running operation (R228). -/
def phaseMove (s : State) : Host.Outcome State Fault Refusal :=
  match s.hidden.phase with
  | .decode => .next (phaseDecode s)
  | .config => .next (phaseConfig s)
  | .size => .next (phaseSize s)
  | .unpack => phaseUnpack s
  | .normalise => phaseNormalise s
  | .adjustRgba => .next (phaseAdjustRgba s)
  | .luminance => .next (phaseLuminance s)
  | .adjustAlpha => .next (phaseAdjustAlpha s)
  | .compose => .next (phaseCompose s)
  | .complete => .next (phaseComplete s)

/-- The latched operation at once (R229: "A model may make an operation one step"); an illegal word raises
IllegalCommand (R226). -/
def wholeMove (s : State) : Host.Outcome State Fault Refusal :=
  match decodeOperation s.hidden.latched with
  | some i => exec i s
  | none => .next (raiseError illegalCommand s)

/-- The core runs: the whole operation if it has not begun, else its next phase. -/
def runMove (s : State) : Host.Outcome State Fault Refusal :=
  if s.hidden.phase = .decode then wholeMove s else phaseMove s

end Sys2Proof.Machine
end

