-- ==== Sys2Proof/Machine/Step.lean ====
section
/-! DEFINITION. One step of MPNA-CORE and its host: while BUSY the next turn says who moves (the core runs when none
is listed), otherwise the host moves (00_scope.md R10, R12; 45_control_commands.md R229). -/

namespace Sys2Proof.Machine

/-- The state with the turns still to come replaced. -/
def State.withTurns (s : State) (turns : List Turn) : State :=
  { s with env := { s.env with turns := turns } }

/-- One step. -/
def step (s : State) : Host.Outcome State Fault Refusal :=
  if s.ctl.runState = .busy then
    match s.env.turns with
    | [] => runMove s
    | .host :: turns => serveHost (s.withTurns turns)
    | .phase :: turns => phaseMove (s.withTurns turns)
    | .run :: turns => runMove (s.withTurns turns)
  else serveHost s

/-- A core that has just reached phase `p` of an operation on image 1 with the format word `w`, and runs it next. -/
def State.atPhase (s : State) (w : Word) (cmd : Instr) (p : Phase) : State :=
  let started := startOp (encode cmd) { s with img1 := { s.img1 with fmt := formatFields w } }
  (enterPhase p started).withTurns (.run :: s.env.turns)

/-- The word `w` of the table, where the next step fetches: NOP and ACK as the host's next write of CMD; any other
command word latched by a core that runs next; a DEPTH or MODEL value in IMG1_FMT with the core at the phase that
reads it (notes/assumptions/17.md). -/
def State.withFetchWord (s : State) (nbits w : Nat) : State :=
  let word := BitVec.ofNat 32 w
  match tableKind nbits w with
  | .command =>
    if word = encode .nop ∨ word = encode .ack then
      { s with
        ctl := { s.ctl with runState := if s.ctl.runState = .busy then .idle else s.ctl.runState }
        env := { s.env with script := scriptWr .cmd word :: s.env.script } }
    else (startOp word s).withTurns (.run :: s.env.turns)
  | .depth => s.atPhase word (.unpack .img1) .unpack
  | .model => s.atPhase word (.norm .img1) .normalise

end Sys2Proof.Machine
end

