-- ==== Sys2Proof/Safety.lean ====
section
/-! DEFINITION. What the claims are said in: the invariants of a safe state, how an operation ends, and the causes of
an error in closed form (60_exceptions.md R250). -/

namespace Sys2Proof.Machine

/-! ### Invariants -/

/-- The images an error code goes with (the table of R241): codes 1 and 6 record no image, the others record one. -/
def errImgFits : ErrorCode → Option Img → Bool
  | .sizePngAndPnaAreDifferent, img => img.isNone
  | .illegalCommand, img => img.isNone
  | .lessDataSize, img => img.isSome
  | .paletteNotFoundWhenIndexedPng, img => img.isSome
  | .invalidPalette, img => img.isSome
  | .invalidIndexForPalette, img => img.isSome
  | .illegalConfig, img => img.isSome

/-- The position an error code goes with: only InvalidIndexForPalette records one (R26). -/
def errPosFits (code : ErrorCode) (pos : Nat) : Bool :=
  decide (code = .invalidIndexForPalette) || decide (pos = 0)

/-- The status registers are as R23, R25, R26 and R241 say: ERR, ERR_IMG and ERR_POS are 0 unless STATE = ERROR,
OUT_LEN is 0 unless STATE = DONE, and an error records what its row of R241 says. -/
abbrev StatusRules (s : State) : Prop :=
  (s.ctl.runState ≠ .error → s.ctl.err = none ∧ s.ctl.errImg = none ∧ s.ctl.errPos = 0#32) ∧
  (s.ctl.runState ≠ .done → s.ctl.outLen = 0#32) ∧
  (s.ctl.runState = .error → ∃ code ∈ s.ctl.err, errImgFits code s.ctl.errImg = true ∧
    errPosFits code s.ctl.errPos.toNat = true)

/-- The hidden state is dead unless STATE = BUSY (R40). -/
abbrev HiddenRule (s : State) : Prop :=
  s.ctl.runState ≠ .busy → s.hidden = Hidden.dead

/-- Every address a memory lists is below `cap`. -/
abbrev Memory.below (cap : Nat) (m : Memory) : Prop := ∀ c ∈ m, c.1 < cap

/-- The five memories are canonical, and an input buffer lists no address at or above its capacity (R70, R76). -/
abbrev MemoryRules (s : State) : Prop :=
  (∀ space, Memory.wf (s.mem space) = true) ∧
  (∀ space, space ≠ .out → Memory.below (s.params.capacity space) (s.mem space))

/-- OUT lists exactly the valid bytes of a result: OUT_LEN of them from address 0 in DONE, those about to be
announced at the last phase of an operation, and none in every other case (R37, R69). -/
abbrev OutputRule (s : State) : Prop :=
  match s.ctl.runState with
  | .idle => s.out = []
  | .error => s.out = []
  | .busy =>
    if s.hidden.phase = .complete then s.out = cellsFrom 0 s.hidden.result else s.out = []
  | .done =>
    s.out = cellsFrom 0 (s.out.map Prod.snd) ∧ s.ctl.outLen = BitVec.ofNat 32 s.out.length

/-! ### How an operation ends -/

/-- From `s` to `t` an operation ended with the result `bytes` (R223): the status says DONE, OUT_LEN is the length,
OUT holds the bytes from address 0 on, and NOTHING ELSE changed but the hidden state (R40) and the unspecified bytes of
OUT (R37). -/
def Completed (s t : State) (bytes : List Byte) : Prop :=
  t.ctl = { s.ctl with runState := .done, err := none, errImg := none,
                       outLen := BitVec.ofNat 32 bytes.length, errPos := 0#32 } ∧
  (∀ a < bytes.length, Memory.read t.out a = bytes[a]?) ∧
  t = { s with ctl := t.ctl, out := t.out, hidden := t.hidden }

/-- From `s` to `t` an operation ended with an error (R252): the status records it, and NOTHING ELSE changed but OUT,
which is unspecified (R69), and the hidden state (R40). -/
def Failed (s t : State) (r : Raise) : Prop :=
  t.ctl = { s.ctl with runState := .error, err := some r.code, errImg := r.img, outLen := 0#32,
                       errPos := BitVec.ofNat 32 r.pos } ∧
  t = { s with ctl := t.ctl, out := t.out, hidden := t.hidden }

/-- From `s` to `t` an operation with command word `w` has started (R221): BUSY with the status cleared, the word
latched, and NOTHING ELSE changed but OUT, which is unspecified (R37), and the hidden state (R40). -/
def Started (w : Word) (s t : State) : Prop :=
  t.ctl = { s.ctl with runState := .busy, err := none, errImg := none, outLen := 0#32, errPos := 0#32 } ∧
  t.hidden.latched = w ∧ t.hidden.phase = .decode ∧
  t = { s with ctl := t.ctl, out := t.out, hidden := t.hidden }

/-- From `s` to `t` the image in work was unpacked to `samples` (R228 phases 3 and 6): the sample sequence stands, the
operation is at its next phase, and NOTHING ELSE changed but the two progress counters (R40). -/
def Unpacked (s t : State) (samples : List Byte) : Prop :=
  t = { s with
        hidden :=
          { s.hidden with
            samples := samples
            byteIdx := t.hidden.byteIdx
            sampleIdx := t.hidden.sampleIdx
            phase := phaseAfter s .unpack } }

/-- From `s` to `t` the image in work was normalised to `rgba` (R228 phases 4 and 7): the RGBA buffer and the palette
LUT `lut` stand, the operation is at its next phase, and NOTHING ELSE changed but the progress counter (R40). -/
def Normalised (s t : State) (rgba : List Byte) (lut : List Rgb) : Prop :=
  t = { s with
        hidden :=
          { s.hidden with
            rgba := rgba
            lut := lut
            pixelIdx := t.hidden.pixelIdx
            phase := phaseAfter s .normalise } }

/-- The four bytes of pixel `p` of an RGBA buffer (R65). -/
def pixelAt (rgba : List Byte) (p : Nat) : List Byte := (rgba.drop (4 * p)).take 4

/-! ### Registers -/

/-- The ten descriptor registers: the registers the host may write only while STATE is not BUSY (R42). -/
def isDescReg : Reg → Bool
  | .cmd => false
  | .status => false
  | .ctrl => false
  | .outLen => false
  | .errPos => false
  | .width _ => true
  | .height _ => true
  | .fmt _ => true
  | .rawLen _ => true
  | .palLen _ => true

/-- The part of a written word a register stores: the reserved bits read 0 (R24, R30, R33). -/
def storedPart : Reg → Word → Word
  | .fmt _, v => v &&& 0x0001071F#32
  | .ctrl, v => v &&& 0x00000001#32
  | .width _, v => v
  | .height _, v => v
  | .rawLen _, v => v
  | .palLen _, v => v
  | .cmd, _ => 0#32
  | .status, _ => 0#32
  | .outLen, _ => 0#32
  | .errPos, _ => 0#32

/-- The descriptors and the four input buffers of `s` and `t` are the same: "The descriptor registers, RAW1, RAW2,
PAL1, PAL2" of R223. -/
def SameInputs (s t : State) : Prop :=
  t.img1 = s.img1 ∧ t.img2 = s.img2 ∧ t.raw1 = s.raw1 ∧ t.raw2 = s.raw2 ∧ t.pal1 = s.pal1 ∧ t.pal2 = s.pal2

/-- What two operations report is the same: STATUS, OUT_LEN, ERR_POS and the valid bytes of OUT (R210). -/
def SameReport (s t : State) : Prop :=
  t.ctl.runState = s.ctl.runState ∧ t.ctl.err = s.ctl.err ∧ t.ctl.errImg = s.ctl.errImg ∧
  t.ctl.outLen = s.ctl.outLen ∧ t.ctl.errPos = s.ctl.errPos ∧
  ∀ a < s.ctl.outLen.toNat, Memory.read t.out a = Memory.read s.out a

/-! ### Formats and error causes, in closed form over the registers and the buffers -/

/-- `legal(k)` of R222, with the format the two fields stand for. -/
abbrev Legal (s : State) (k : Img) (f : Format) : Prop :=
  (s.desc k).fmt = { depth := f.depth.code, model := f.model.code, palPresent := f.palPresent } ∧
  (s.desc k).rawLen.toNat ≤ s.params.rawCap ∧ (s.desc k).palLen.toNat ≤ s.params.palCap

/-- The bit depth as a number (R95). -/
def depthBits : Depth → Nat
  | .d1 => 1
  | .d2 => 2
  | .d4 => 4
  | .d8 => 8
  | .d16 => 16

/-- How many samples `len` raw bytes give at a depth (R121). -/
def sampleCount (d : Depth) (len : Nat) : Nat := 8 * len / depthBits d

/-- How many whole pixels the raw bytes of image k give in a format (R121, R166). -/
def pixelsOf (s : State) (k : Img) (f : Format) : Nat :=
  sampleCount f.depth (s.desc k).rawLen.toNat / arityOf f.model

/-- The raw value of sample `p` of image k, by the address arithmetic of R79. -/
def rawSample (s : State) (k : Img) (d : Depth) (p : Nat) : Nat :=
  match d with
  | .d16 => (byteAt s k.rawSpace (2 * p)).toNat
  | .d8 => (byteAt s k.rawSpace p).toNat
  | _ =>
    groupValue (depthBits d) (byteAt s k.rawSpace (p / (8 / depthBits d))) (p % (8 / depthBits d))

/-- The lowest pixel of image k whose index is out of range, if there is one (R246). -/
def firstBadIndex (s : State) (k : Img) (f : Format) : Option Nat :=
  (List.range (sampleCount f.depth (s.desc k).rawLen.toNat)).find? fun p =>
    decide ((s.desc k).palLen.toNat / 3 ≤ rawSample s k f.depth p)

/-- One cause of an error: whether it holds, and what it records. -/
abbrev Cause := Bool × Raise

/-- The first cause that holds; "Later causes are not examined" (R250). -/
def firstCause : List Cause → Option Raise
  | [] => none
  | (holds, r) :: rest => if holds then some r else firstCause rest

/-- Line 5 of R250: cause (a) of LessDataSize. -/
def oddByteCause (s : State) (k : Img) (f : Format) : Cause :=
  (decide (f.depth = .d16) && decide ((s.desc k).rawLen.toNat % 2 = 1),
    { code := .lessDataSize, img := some k, pos := 0 })

/-- Lines 6 to 9 of R250 for image k with format `f`. -/
def normaliseCauses (s : State) (k : Img) (f : Format) : List Cause :=
  [(decide (f.model = .idx) && !f.palPresent,
      { code := .paletteNotFoundWhenIndexedPng, img := some k, pos := 0 }),
   (decide (f.model = .idx) && decide ((s.desc k).palLen.toNat % 3 ≠ 0),
      { code := .invalidPalette, img := some k, pos := 0 }),
   (decide (f.model = .idx) && (firstBadIndex s k f).isSome,
      { code := .invalidIndexForPalette, img := some k, pos := (firstBadIndex s k f).getD 0 }),
   (decide (f.model ≠ .idx) && decide (sampleCount f.depth (s.desc k).rawLen.toNat % arityOf f.model ≠ 0),
      { code := .lessDataSize, img := some k, pos := 0 })]

/-- Lines 5 to 9 of R250 for image k. -/
def imageCauses (s : State) (k : Img) (f : Format) : List Cause :=
  oddByteCause s k f :: normaliseCauses s k f

/-- Lines 10 and 12 of R250: the adjusted buffer would be too short (causes (c) and (d) of LessDataSize). -/
def shortCause (s : State) (k : Img) (f : Format) : Cause :=
  (decide (pixelsOf s k f < s.img1.width.toNat * s.img1.height.toNat),
    { code := .lessDataSize, img := some k, pos := 0 })

/-- Line 4 of R250. -/
def sizeCause (s : State) : Cause :=
  (decide (s.img1.width ≠ s.img2.width) || decide (s.img1.height ≠ s.img2.height),
    { code := .sizePngAndPnaAreDifferent, img := none, pos := 0 })

/-- Lines 4 to 12 of R250, for MERGE of two images with legal formats. -/
def mergeCauses (s : State) (f1 f2 : Format) : List Cause :=
  sizeCause s :: (imageCauses s .img1 f1 ++ shortCause s .img1 f1 ::
    (imageCauses s .img2 f2 ++ [shortCause s .img2 f2]))

/-- How an operation with the causes `causes` ends: with the first that holds, or completed. -/
def EndsBy (i : Instr) (s : State) (causes : List Cause) : Prop :=
  match firstCause causes with
  | some r => ∃ t, exec i s = .next t ∧ Failed s t r
  | none => ∃ t bytes, exec i s = .next t ∧ Completed s t bytes

end Sys2Proof.Machine
end

