-- ==== Sys2Proof/Certificates/Slice0/Obligations.lean ====
section
/-! DEFINITION. The statements for the provers. `Rn` is a numbered rule of spec/. -/

open Sys2Proof Sys2Proof.Machine

/-! ## Encoding -/

/-- R91 to R93: a word is decoded to a command exactly when it is that command's word. Every bit of the word counts.
-/
def Obligations.CommandDecodeInvertsEncode : Prop :=
  ∀ (w : Word) (i : Instr), decodeCommand w = .ok i ↔ i.kind = .command ∧ encode i = w

/-- R95, R96: the DEPTH and MODEL fields of a format word select a row exactly when they hold its code; no other bit
of the word counts, but for PAL_PRESENT, the operand of IDX (R97, notes/assumptions/26.md). -/
def Obligations.FormatDecodeInvertsEncode : Prop :=
  ∀ (w : Word) (i : Instr),
    (decodeDepth (formatFields w) = .ok i ↔ i.kind = .depth ∧ encode i = w &&& 0x0000001F#32) ∧
    (decodeModel (formatFields w) = .ok i ↔ i.kind = .model ∧
      encode i = w &&& (if (∃ pp, i = .idx pp) then 0x00010700#32 else 0x00000700#32))

/-- Words written out bit by bit from R92, R94, R95 and R96 decode to the rows they stand for. A sanity statement. -/
def Obligations.SpecWordsDecode : Prop :=
  decodeCommand 0b00000000000000000000000000000000#32 = .ok .nop ∧
  decodeCommand 0b00000000000000000000000000000001#32 = .ok .merge ∧
  decodeCommand 0b00000000000000000000000000000010#32 = .ok (.unpack .img1) ∧
  decodeCommand 0b00000000000000000000000000010010#32 = .ok (.unpack .img2) ∧
  decodeCommand 0b00000000000000000000000000000011#32 = .ok (.norm .img1) ∧
  decodeCommand 0b00000000000000000000000000010011#32 = .ok (.norm .img2) ∧
  decodeCommand 0b00000000000000000000000000000100#32 = .ok (.mask .img1) ∧
  decodeCommand 0b00000000000000000000000000010100#32 = .ok (.mask .img2) ∧
  decodeCommand 0b00000000000000000000000000001111#32 = .ok .ack ∧
  decodeFormat (formatFields 0x00000208#32) = .ok { depth := .d8, model := .rgb, palPresent := false } ∧
  decodeFormat (formatFields 0x00010401#32) = .ok { depth := .d1, model := .idx, palPresent := true }

/-- R98: which words are illegal, and that writing one while STATE is not BUSY starts an operation that ends in ERROR
with IllegalCommand, whatever the state. -/
def Obligations.IllegalCommandWordEndsInError : Prop :=
  ∀ (w : Word),
    ((∀ i, decodeCommand w ≠ .ok i) ↔
      (5 ≤ (w &&& 0xF#32).toNat ∧ (w &&& 0xF#32).toNat ≤ 14) ∨ w >>> 5 ≠ 0#32 ∨
        (w.getLsbD 4 = true ∧ (w &&& 0xF#32) ∈ [0#32, 1#32, 15#32])) ∧
    ((∀ i, decodeCommand w ≠ .ok i) → ∀ s : State, s.ctl.runState ≠ .busy →
      ∃ t u, hostMove (.wr 0x00 w) s = .next t ∧ Started w s t ∧ wholeMove t = .next u ∧
        Failed t u { code := .illegalCommand, img := none, pos := 0 })

/-! ## Control: NOP, ACK, dispatch, status -/

/-- R224: NOP changes nothing, in any state, written to CMD or run; with SEL = 1 it is not NOP. -/
def Obligations.NopChangesNothing : Prop :=
  decodeCommand 0x00000000#32 = .ok .nop ∧
  (∀ s : State, exec .nop s = .next s ∧ hostMove (.wr 0x00 0x00000000#32) s = .next s) ∧
  ∀ i, decodeCommand 0x00000010#32 ≠ .ok i

/-- R225: ACK in DONE or ERROR returns to IDLE, clears every status register and lets `irq` fall; in IDLE it does
nothing. Nothing else changes but OUT, which is unspecified. -/
def Obligations.AckReturnsToIdle : Prop :=
  decodeCommand 0x0000000F#32 = .ok .ack ∧
  ∀ s : State, ∃ t, exec .ack s = .next t ∧
    (s.ctl.runState = .idle → t = s) ∧
    (s.ctl.runState = .done ∨ s.ctl.runState = .error →
      t.ctl = { s.ctl with runState := .idle, err := none, errImg := none, outLen := 0#32, errPos := 0#32 } ∧
      statusWord t = 0#32 ∧ irq t = false ∧
      t = { s with ctl := t.ctl, out := t.out })

/-- R220: what a write of CMD does in each value of STATE. -/
def Obligations.CommandWriteDispatch : Prop :=
  ∀ (w : Word) (s : State),
    (s.ctl.runState = .busy → hostMove (.wr 0x00 w) s = .next s) ∧
    (s.ctl.runState ≠ .busy → w = 0x00000000#32 → hostMove (.wr 0x00 w) s = exec .nop s) ∧
    (s.ctl.runState ≠ .busy → w = 0x0000000F#32 → hostMove (.wr 0x00 w) s = exec .ack s) ∧
    (s.ctl.runState ≠ .busy → w ≠ 0x00000000#32 → w ≠ 0x0000000F#32 →
      ∃ t, hostMove (.wr 0x00 w) s = .next t ∧ Started w s t)

/-- R23, R241, R251: what the host reads from STATUS: STATE in 1:0 with its four numbers, ERR in 7:4 with the seven
codes of R241, ERR_IMG in 9:8 with the image numbers, and 0 elsewhere. -/
def Obligations.StatusWordHoldsItsFields : Prop :=
  ∀ s : State,
    readReg s .status = statusWord s ∧
    (statusWord s).extractLsb' 0 2 = s.ctl.runState.code ∧
    (statusWord s).extractLsb' 4 4 = errCode s.ctl.err ∧
    (statusWord s).extractLsb' 8 2 = errImgCode s.ctl.errImg ∧
    statusWord s &&& 0xFFFFFC0C#32 = 0#32 ∧
    (statusWord s).extractLsb' 0 2 =
      (match s.ctl.runState with
       | .idle => 0#2
       | .busy => 1#2
       | .done => 2#2
       | .error => 3#2) ∧
    (statusWord s).extractLsb' 4 4 =
      (match s.ctl.err with
       | none => 0#4
       | some .sizePngAndPnaAreDifferent => 1#4
       | some .lessDataSize => 2#4
       | some .paletteNotFoundWhenIndexedPng => 3#4
       | some .invalidPalette => 4#4
       | some .invalidIndexForPalette => 5#4
       | some .illegalCommand => 6#4
       | some .illegalConfig => 7#4) ∧
    (statusWord s).extractLsb' 8 2 =
      (match s.ctl.errImg with
       | none => 0#2
       | some .img1 => 1#2
       | some .img2 => 2#2)

/-- R256: the level `irq`, and when it rises and falls: it is CTRL.IE after every operation, low at the start of one,
after ACK and after reset, and follows a write of CTRL in DONE and ERROR. -/
def Obligations.IrqIsALevel : Prop :=
  ∀ s : State,
    (irq s = true ↔ s.ctl.ie = true ∧ (s.ctl.runState = .done ∨ s.ctl.runState = .error)) ∧
    (∀ i, i.isOperation = true → ∃ t, exec i s = .next t ∧ irq t = s.ctl.ie) ∧
    (∀ w, irq (startOp w s) = false) ∧
    (s.ctl.runState ≠ .busy → ∃ t, exec .ack s = .next t ∧ irq t = false) ∧
    (∃ t, hostMove .reset s = .next t ∧ irq t = false) ∧
    (∀ v, ∃ t, hostMove (.wr 0x08 v) s = .next t ∧
      irq t = (v.getLsbD 0 && (decide (s.ctl.runState = .done) || decide (s.ctl.runState = .error))))

/-! ## Reset -/

/-- R270: the reset event, which the host may take in every state, leaves every register 0, STATE = IDLE and `irq` 0.
-/
def Obligations.ResetEventClearsTheMachine : Prop :=
  ∀ s : State, ∃ t, hostMove .reset s = .next t ∧
    t.ctl.runState = .idle ∧ (∀ r, readReg t r = 0#32) ∧ irq t = false

/-- R271: after the reset event every operation command ends in IllegalConfig for its first image, while NOP and ACK
leave IDLE as it is. -/
def Obligations.OperationsFailAfterReset : Prop :=
  ∀ s t : State, hostMove .reset s = .next t →
    exec .nop t = .next t ∧ exec .ack t = .next t ∧
    ∀ i, i.isOperation = true → ∃ u, exec i t = .next u ∧
      Failed t u { code := .illegalConfig, img := some (firstImage i), pos := 0 }

/-! ## Invariants -/

/-- State.reset meets every invariant below (the dead hidden state is the model's choice, notes/assumptions/7.md). -/
def Obligations.ResetStateMeetsTheInvariants : Prop :=
  StatusRules State.reset ∧ HiddenRule State.reset ∧ MemoryRules State.reset ∧ OutputRule State.reset

/-- R23, R25, R26, R241: every step keeps the rules of the status registers. -/
def Obligations.StepKeepsStatusRules : Prop :=
  ∀ s t : State, StatusRules s → step s = .next t → StatusRules t

/-- R35 to R37, R70, R76: every step keeps every memory canonical, keeps the input buffers within their capacities,
and never changes the parameters. -/
def Obligations.StepKeepsMemoryRules : Prop :=
  ∀ s t : State, MemoryRules s → step s = .next t → MemoryRules t ∧ t.params = s.params

/-- R25, R37, R40, R69, R74: every step keeps OUT holding exactly the announced result, and the hidden state dead
outside BUSY (that OUT holds no other byte and the dead value are the model's choice, notes/assumptions/6.md and
7.md). -/
def Obligations.StepKeepsOutputRule : Prop :=
  ∀ s t : State, OutputRule s → HiddenRule s → step s = .next t → OutputRule t ∧ HiddenRule t

/-! ## Whole-machine rules -/

/-- R27: STATE changes only by the listed events: the start of an operation, its end, ACK in DONE or ERROR, reset. The
host's accesses are the model's list `env.script` (notes/assumptions/1.md). -/
def Obligations.StateChangesOnlyByListedEvents : Prop :=
  ∀ s t : State, step s = .next t →
    t.ctl.runState = s.ctl.runState ∨
    (s.ctl.runState ≠ .busy ∧ t.ctl.runState = .busy ∧
      ∃ w rest, s.env.script = .wr 0x00 w :: rest ∧ w ≠ encode .nop ∧ w ≠ encode .ack) ∨
    (s.ctl.runState = .busy ∧ (t.ctl.runState = .done ∨ t.ctl.runState = .error)) ∨
    ((s.ctl.runState = .done ∨ s.ctl.runState = .error) ∧ t.ctl.runState = .idle ∧
      ∃ rest, s.env.script = .wr 0x00 (encode .ack) :: rest) ∨
    (t.ctl.runState = .idle ∧ ∃ rest, s.env.script = .reset :: rest)

/-- R42, R71: while BUSY no step changes a descriptor or an input buffer, but for the reset event (who moves is the
model's list `env.turns`, notes/assumptions/2.md). -/
def Obligations.InputsCannotChangeWhileBusy : Prop :=
  ∀ s t : State, s.ctl.runState = .busy → step s = .next t →
    SameInputs s t ∨ ∃ rest ts, s.env.script = .reset :: rest ∧ s.env.turns = .host :: ts

/-- U8 and the model's form of it (notes/assumptions/10.md): the only step without a result is a host access of the
register port that is not an aligned word. -/
def Obligations.OnlySubWordAccessStops : Prop :=
  (∀ (offset : Nat) (v : Word) (s : State), offset % 4 ≠ 0 →
    hostMove (.wr offset v) s = .refused .subWordRegisterAccess ∧
    hostMove (.rd offset) s = .refused .subWordRegisterAccess) ∧
  (∀ (s : State) (r : Refusal), step s = .refused r →
    r = .subWordRegisterAccess ∧
    ∃ offset rest, offset % 4 ≠ 0 ∧
      ((∃ v, s.env.script = .wr offset v :: rest) ∨ s.env.script = .rd offset :: rest))

/-- R61, R223: no instruction changes a descriptor, an input buffer or CTRL; every instruction answers a next state.
-/
def Obligations.InstructionsKeepTheInputs : Prop :=
  ∀ (i : Instr) (s : State), ∃ t, exec i s = .next t ∧ SameInputs s t ∧ t.ctl.ie = s.ctl.ie ∧
    t.params = s.params ∧ t.env = s.env

/-! ## The host's accesses -/

/-- R42, R71, R227: while BUSY every register write but that of CTRL and every buffer write is dropped; register reads
go on and return the current value. A write of OUT is dropped in every state. -/
def Obligations.BusyDropsHostWrites : Prop :=
  ∀ s : State,
    (s.ctl.runState = .busy →
      (∀ r v, r ≠ .ctrl → hostMove (.wr (regOffset r) v) s = .next s) ∧
      (∀ space a v, hostMove (.st space a v) s = .next s)) ∧
    (∀ r, ∃ t, hostMove (.rd (regOffset r)) s = .next t ∧ t.env.regData = readReg s r ∧
      t = { s with env := { s.env with regData := t.env.regData } }) ∧
    (∀ a v, hostMove (.st .out a v) s = .next s)

/-- R24, R28 to R32, R100: a descriptor register written while STATE is not BUSY, and CTRL in every state, reads back
what it stores; no other register and no byte of memory changes. -/
def Obligations.RegisterWriteReadsBack : Prop :=
  ∀ (s : State) (r : Reg) (v : Word), (isDescReg r = true ∧ s.ctl.runState ≠ .busy) ∨ r = .ctrl →
    ∃ t, hostMove (.wr (regOffset r) v) s = .next t ∧ readReg t r = storedPart r v ∧
      (∀ q, q ≠ r → readReg t q = readReg s q) ∧
      (∀ space a, byteAt t space a = byteAt s space a) ∧ t.hidden = s.hidden ∧ t.env = s.env

/-- R21, R22, R33: the offset of every register; writes of the read-only registers and of unmapped offsets are dropped
in every state; a host read of an unmapped offset or of CMD returns 0 and changes nothing but the port. -/
def Obligations.UnmappedAndReadOnlyOffsets : Prop :=
  (∀ (s : State) (offset : Nat), offset % 4 = 0 →
    (0x14 ≤ offset ∧ offset ≤ 0x1C) ∨ (0x34 ≤ offset ∧ offset ≤ 0x3C) ∨ 0x54 ≤ offset →
    readOffset s offset = 0#32 ∧ (∀ v, hostMove (.wr offset v) s = .next s) ∧
    ∃ t, hostMove (.rd offset) s = .next t ∧ t.env.regData = 0#32 ∧
      t = { s with env := { s.env with regData := t.env.regData } }) ∧
  (∀ (s : State) (v : Word), readOffset s 0x00 = 0#32 ∧
    hostMove (.wr 0x04 v) s = .next s ∧ hostMove (.wr 0x0C v) s = .next s ∧ hostMove (.wr 0x10 v) s = .next s ∧
    ∃ t, hostMove (.rd 0x00) s = .next t ∧ t.env.regData = 0#32 ∧
      t = { s with env := { s.env with regData := t.env.regData } }) ∧
  (∀ r, regOffset r =
    match r with
    | .cmd => 0x00
    | .status => 0x04
    | .ctrl => 0x08
    | .outLen => 0x0C
    | .errPos => 0x10
    | .width .img1 => 0x20
    | .height .img1 => 0x24
    | .fmt .img1 => 0x28
    | .rawLen .img1 => 0x2C
    | .palLen .img1 => 0x30
    | .width .img2 => 0x40
    | .height .img2 => 0x44
    | .fmt .img2 => 0x48
    | .rawLen .img2 => 0x4C
    | .palLen .img2 => 0x50)

/-- R70, R76: a byte the host writes to an input buffer while STATE is not BUSY reads back, and no other byte of any
buffer changes; at or above the capacity the write is dropped. -/
def Obligations.BufferWriteReadsBack : Prop :=
  ∀ (s : State) (space : Space) (a : Nat) (v : Byte), s.ctl.runState ≠ .busy → space ≠ .out →
    (a < s.params.capacity space →
      ∃ t, hostMove (.st space a v) s = .next t ∧ byteAt t space a = v ∧
        (∀ sp x, (sp, x) ≠ (space, a) → byteAt t sp x = byteAt s sp x) ∧
        t.ctl = s.ctl ∧ t.img1 = s.img1 ∧ t.img2 = s.img2 ∧ t.hidden = s.hidden ∧ t.env = s.env) ∧
    (s.params.capacity space ≤ a → hostMove (.st space a v) s = .next s)

/-- R68, R70, R72, R76: a host read of a byte changes nothing but the port; where the byte is defined the port returns
it, and everywhere else it returns a free value (its form is the model's choice, notes/assumptions/5.md). R273: after
the reset event every byte is a new free value (notes/assumptions/4.md). -/
def Obligations.BufferReadReturnsTheByteOrAFreeValue : Prop :=
  (∀ (s t : State) (space : Space) (a : Nat), hostMove .reset s = .next t →
    byteAt t space a = Config.powerOnByte (s.env.epoch + 1) space a) ∧
  ∀ (s : State) (space : Space) (a : Nat), ∃ t, hostMove (.ld space a) s = .next t ∧
    t = { s with env := t.env } ∧
    (s.ctl.runState ≠ .busy → a < s.params.capacity space → space ≠ .out →
      t.env = { s.env with bufData := byteAt s space a }) ∧
    (s.ctl.runState = .done → a < s.params.outCap → a < s.ctl.outLen.toNat → space = .out →
      t.env = { s.env with bufData := byteAt s .out a }) ∧
    (s.ctl.runState = .busy ∨ s.params.capacity space ≤ a ∨
        (space = .out ∧ (s.ctl.runState ≠ .done ∨ s.ctl.outLen.toNat ≤ a)) →
      t.env = { s.env with bufData := Config.freeByte s.env.draws, draws := s.env.draws + 1 })

/-! ## A step runs the decoded instruction -/

/-- A BUSY core that has not begun runs the operation its latched word decodes to (R226, R229; the turns are the
model's, notes/assumptions/2.md). -/
def Obligations.StepRunsLatchedOperation : Prop :=
  ∀ (s : State) (i : Instr), s.ctl.runState = .busy → s.hidden.phase = .decode →
    decodeOperation s.hidden.latched = some i →
    (s.env.turns = [] → step s = exec i s) ∧
    (∀ ts, s.env.turns = .run :: ts → step s = exec i (s.withTurns ts))

/-- A BUSY core at an unpack or normalise phase runs the row the DEPTH or MODEL field of the image in work decodes to
(R90, R228; the turns are the model's, notes/assumptions/2.md). -/
def Obligations.StepRunsFormatFields : Prop :=
  ∀ (s : State) (i : Instr), s.ctl.runState = .busy →
    (s.hidden.phase = .unpack ∧ decodeDepth (s.desc s.hidden.image).fmt = .ok i) ∨
      (s.hidden.phase = .normalise ∧ decodeModel (s.desc s.hidden.image).fmt = .ok i) →
    (s.env.turns = [] → step s = exec i s) ∧
    (∀ ts, s.env.turns = .phase :: ts ∨ s.env.turns = .run :: ts → step s = exec i (s.withTurns ts))

/-- A step of the host is its next access (R12; script and turns are the model's, notes/assumptions/1.md and 2.md);
its write of the word of NOP or ACK, STATE not BUSY, runs that instruction (R220). WAIT (R102, R285) returns STATUS,
stays the next access exactly while STATE = BUSY, and changes nothing else (its form is the model's choice,
notes/assumptions/23.md). -/
def Obligations.StepRunsHostAccesses : Prop :=
  (∀ s : State, ∃ t, hostMove .wait s = .next t ∧ t.env.regData = statusWord s ∧
    (s.ctl.runState = .busy → t.env.script = .wait :: s.env.script) ∧
    (s.ctl.runState ≠ .busy → t.env.script = s.env.script) ∧
    t = { s with env := { s.env with regData := t.env.regData, script := t.env.script } }) ∧
  ∀ (s : State) (a : Access) (rest : List Access), s.env.script = a :: rest →
    (s.ctl.runState ≠ .busy → step s = hostMove a { s with env := { s.env with script := rest } }) ∧
    (∀ ts, s.ctl.runState = .busy → s.env.turns = .host :: ts →
      step s = hostMove a { s with env := { s.env with script := rest, turns := ts } }) ∧
    (∀ w i, s.ctl.runState ≠ .busy → a = .wr 0x00 w → decodeCommand w = .ok i → i = .nop ∨ i = .ack →
      step s = exec i { s with env := { s.env with script := rest } })

/-! ## bit_unpacker -/

/-- R127, R133: left-align, then fill the low bits with ones exactly when the value is odd; strictly increasing. -/
def Obligations.ScaleAlignsAndFills : Prop :=
  ∀ n ∈ [1, 2, 4, 8], ∀ v < 2 ^ n,
    scale n v = v * 2 ^ (8 - n) + (if v % 2 = 1 then 2 ^ (8 - n) - 1 else 0) ∧ scale n v < 256 ∧
    ∀ u < v, scale n u < scale n v

/-- R62, R79, R121, R131: how many samples the unpacker gives, and which bits of which byte each is. -/
def Obligations.UnpackFollowsTheAddressArithmetic : Prop :=
  ∀ (bytes : List Byte) (d : Depth) (mode : Mode) (samples : List Byte),
    unpack bytes d mode = .ok samples →
    samples.length = sampleCount d bytes.length ∧
    ∀ p < samples.length,
      match d with
      | .d16 => samples[p]? = bytes[2 * p]?
      | .d8 => samples[p]? = bytes[p]?
      | _ => ∃ b, bytes[p / (8 / depthBits d)]? = some b ∧
          samples[p]? = some (sampleOf mode (depthBits d) (groupValue (depthBits d) b (p % (8 / depthBits d))))

/-- R122: DEPTH = 0b00001 selects D1, which delivers bit 7 of every byte first; 0 or 255 in scaled mode, 0 or 1 in
index mode (MODEL = 4). -/
def Obligations.D1DeliversEveryBit : Prop :=
  (∀ f : FormatFields, decodeDepth f = .ok .d1 ↔ f.depth = 0b00001#5) ∧
  ∀ s : State, ∃ t samples, exec .d1 s = .next t ∧ Unpacked s t samples ∧
    samples.length = 8 * (s.desc s.hidden.image).rawLen.toNat ∧
    ∀ a < (s.desc s.hidden.image).rawLen.toNat, ∀ j < 8,
      samples[8 * a + j]? = some
        (if (byteAt s s.hidden.image.rawSpace a).getLsbD (7 - j) then
          (if (s.desc s.hidden.image).fmt.model = 4#3 then 1#8 else 255#8) else 0#8)

/-- R123: DEPTH = 0b00010 selects D2, which delivers four groups per byte, high bits first; scaled 0, 127, 128, 255,
or the value in index mode. -/
def Obligations.D2DeliversBitPairs : Prop :=
  (∀ f : FormatFields, decodeDepth f = .ok .d2 ↔ f.depth = 0b00010#5) ∧
  ∀ s : State, ∃ t samples, exec .d2 s = .next t ∧ Unpacked s t samples ∧
    samples.length = 4 * (s.desc s.hidden.image).rawLen.toNat ∧
    ∀ a < (s.desc s.hidden.image).rawLen.toNat, ∀ j < 4,
      let v := (byteAt s s.hidden.image.rawSpace a).toNat / 2 ^ (6 - 2 * j) % 4
      samples[4 * a + j]? = some
        (if (s.desc s.hidden.image).fmt.model = 4#3 then BitVec.ofNat 8 v
         else if v = 0 then 0#8 else if v = 1 then 127#8 else if v = 2 then 128#8 else 255#8)

/-- R124: DEPTH = 0b00100 selects D4, which delivers the high nibble, then the low one; scaled they are left-aligned
and filled when odd. -/
def Obligations.D4DeliversNibbles : Prop :=
  (∀ f : FormatFields, decodeDepth f = .ok .d4 ↔ f.depth = 0b00100#5) ∧
  ∀ s : State, ∃ t samples, exec .d4 s = .next t ∧ Unpacked s t samples ∧
    samples.length = 2 * (s.desc s.hidden.image).rawLen.toNat ∧
    ∀ a < (s.desc s.hidden.image).rawLen.toNat,
      let f : Nat → Byte := fun v =>
        if (s.desc s.hidden.image).fmt.model = 4#3 then BitVec.ofNat 8 v
        else BitVec.ofNat 8 (16 * v + if v % 2 = 1 then 15 else 0)
      samples[2 * a]? = some (f ((byteAt s s.hidden.image.rawSpace a).toNat / 16)) ∧
      samples[2 * a + 1]? = some (f ((byteAt s s.hidden.image.rawSpace a).toNat % 16))

/-- R125: DEPTH = 0b01000 selects D8, which passes the bytes through unchanged, in both modes. -/
def Obligations.D8PassesBytesThrough : Prop :=
  (∀ f : FormatFields, decodeDepth f = .ok .d8 ↔ f.depth = 0b01000#5) ∧
  ∀ s : State, ∃ t samples, exec .d8 s = .next t ∧ Unpacked s t samples ∧
    samples.length = (s.desc s.hidden.image).rawLen.toNat ∧
    ∀ a < (s.desc s.hidden.image).rawLen.toNat, samples[a]? = some (byteAt s s.hidden.image.rawSpace a)

/-- R126: DEPTH = 0b10000 selects D16, which keeps the first byte of every pair, in both modes, and fails with
LessDataSize when the byte count is odd. -/
def Obligations.D16KeepsTheHighByte : Prop :=
  (∀ f : FormatFields, decodeDepth f = .ok .d16 ↔ f.depth = 0b10000#5) ∧
  ∀ s : State,
    ((s.desc s.hidden.image).rawLen.toNat % 2 = 0 →
      ∃ t samples, exec .d16 s = .next t ∧ Unpacked s t samples ∧
        samples.length = (s.desc s.hidden.image).rawLen.toNat / 2 ∧
        ∀ p < (s.desc s.hidden.image).rawLen.toNat / 2,
          samples[p]? = some (byteAt s s.hidden.image.rawSpace (2 * p))) ∧
    ((s.desc s.hidden.image).rawLen.toNat % 2 = 1 →
      ∃ t, exec .d16 s = .next t ∧ Failed s t { code := .lessDataSize, img := some s.hidden.image, pos := 0 })

/-- R132: UNPACK k of a legal image completes with the sample sequence in OUT, whatever the palette, the sizes and the
other image; at depth 16 the byte count must be even. -/
def Obligations.UnpackWritesTheSamples : Prop :=
  ∀ (s : State) (k : Img) (f : Format), Legal s k f →
    (f.depth = .d16 → (s.desc k).rawLen.toNat % 2 = 0) →
    ∃ t samples, exec (.unpack k) s = .next t ∧ Completed s t samples ∧
      unpack (rawBytes s k) f.depth (if f.model = .idx then .index else .scaled) = .ok samples

/-! ## palette_lut and color_normalizer_mux -/

/-- R150 to R153: a palette resolves exactly when its byte count is a multiple of 3; it has a third as many entries,
and entry `i` is its three bytes from 3i; an index is found exactly when it is below the entry count. -/
def Obligations.PaletteResolvesToTriples : Prop :=
  ∀ palette : List Byte,
    (palette.length % 3 ≠ 0 → resolve palette = .error { code := .invalidPalette, pos := 0 }) ∧
    (palette.length % 3 = 0 → ∃ table, resolve palette = .ok table ∧ table.length = palette.length / 3 ∧
      ∀ i, (palette.length / 3 ≤ i → lookup table i = none) ∧
        (i < palette.length / 3 → ∃ r g b, lookup table i = some { r := r, g := g, b := b } ∧
          palette[3 * i]? = some r ∧ palette[3 * i + 1]? = some g ∧ palette[3 * i + 2]? = some b))

/-- R167: MODEL = 0b000 selects GRAY, which gives `(g, g, g, 255)` for every sample. -/
def Obligations.GrayExpandsEverySample : Prop :=
  (∀ f : FormatFields, decodeModel f = .ok .gray ↔ f.model = 0b000#3) ∧
  ∀ s : State, ∃ t rgba, exec .gray s = .next t ∧ Normalised s t rgba s.hidden.lut ∧
    rgba.length = 4 * s.hidden.samples.length ∧
    ∀ p g, s.hidden.samples[p]? = some g → pixelAt rgba p = [g, g, g, 255#8]

/-- R168: MODEL = 0b001 selects GRAYA, which gives `(g, g, g, a)` for every pair of samples, and LessDataSize when
their count is odd. -/
def Obligations.GrayaExpandsPairs : Prop :=
  (∀ f : FormatFields, decodeModel f = .ok .graya ↔ f.model = 0b001#3) ∧
  ∀ s : State,
    (s.hidden.samples.length % 2 = 0 →
      ∃ t rgba, exec .graya s = .next t ∧ Normalised s t rgba s.hidden.lut ∧
        rgba.length = 2 * s.hidden.samples.length ∧
        ∀ p g a, s.hidden.samples[2 * p]? = some g → s.hidden.samples[2 * p + 1]? = some a →
          pixelAt rgba p = [g, g, g, a]) ∧
    (s.hidden.samples.length % 2 ≠ 0 →
      ∃ t, exec .graya s = .next t ∧ Failed s t { code := .lessDataSize, img := some s.hidden.image, pos := 0 })

/-- R169: MODEL = 0b010 selects RGB, which gives `(r, g, b, 255)` for every three samples, and LessDataSize when their
count is no multiple of 3. -/
def Obligations.RgbExpandsTriples : Prop :=
  (∀ f : FormatFields, decodeModel f = .ok .rgb ↔ f.model = 0b010#3) ∧
  ∀ s : State,
    (s.hidden.samples.length % 3 = 0 →
      ∃ t rgba, exec .rgb s = .next t ∧ Normalised s t rgba s.hidden.lut ∧
        3 * rgba.length = 4 * s.hidden.samples.length ∧
        ∀ p r g b, s.hidden.samples[3 * p]? = some r → s.hidden.samples[3 * p + 1]? = some g →
          s.hidden.samples[3 * p + 2]? = some b → pixelAt rgba p = [r, g, b, 255#8]) ∧
    (s.hidden.samples.length % 3 ≠ 0 →
      ∃ t, exec .rgb s = .next t ∧ Failed s t { code := .lessDataSize, img := some s.hidden.image, pos := 0 })

/-- R170: MODEL = 0b011 selects RGBA, which passes the samples through, and fails with LessDataSize when their count
is no multiple of 4. -/
def Obligations.RgbaPassesSamplesThrough : Prop :=
  (∀ f : FormatFields, decodeModel f = .ok .rgba ↔ f.model = 0b011#3) ∧
  ∀ s : State,
    (s.hidden.samples.length % 4 = 0 →
      ∃ t, exec .rgba s = .next t ∧ Normalised s t s.hidden.samples s.hidden.lut) ∧
    (s.hidden.samples.length % 4 ≠ 0 →
      ∃ t, exec .rgba s = .next t ∧ Failed s t { code := .lessDataSize, img := some s.hidden.image, pos := 0 })

/-- R171: MODEL = 0b100 selects IDX with PAL_PRESENT, which gives the palette entry of every index with alpha 255; it
fails, in this order, without a palette, with a palette whose byte count is no multiple of 3, and at the lowest pixel
whose index is out of range. -/
def Obligations.IdxLooksUpEveryIndex : Prop :=
  (∀ (f : FormatFields) (pp : Bool), decodeModel f = .ok (.idx pp) ↔ f.model = 0b100#3 ∧ f.palPresent = pp) ∧
  ∀ s : State,
    let k := s.hidden.image
    let len := (s.desc k).palLen.toNat
    (∃ t, exec (.idx false) s = .next t ∧
      Failed s t { code := .paletteNotFoundWhenIndexedPng, img := some k, pos := 0 }) ∧
    (len % 3 ≠ 0 →
      ∃ t, exec (.idx true) s = .next t ∧ Failed s t { code := .invalidPalette, img := some k, pos := 0 }) ∧
    (len % 3 = 0 → ∀ p i, s.hidden.samples[p]? = some i → len / 3 ≤ i.toNat →
      (∀ q j, q < p → s.hidden.samples[q]? = some j → j.toNat < len / 3) →
      ∃ t, exec (.idx true) s = .next t ∧
        Failed s t { code := .invalidIndexForPalette, img := some k, pos := p }) ∧
    (len % 3 = 0 → (∀ i ∈ s.hidden.samples, i.toNat < len / 3) →
      ∃ t rgba table, exec (.idx true) s = .next t ∧ Normalised s t rgba table ∧
        resolve (palBytes s k) = .ok table ∧ rgba.length = 4 * s.hidden.samples.length ∧
        ∀ p i, s.hidden.samples[p]? = some i →
          pixelAt rgba p =
            [byteAt s k.palSpace (3 * i.toNat), byteAt s k.palSpace (3 * i.toNat + 1),
             byteAt s k.palSpace (3 * i.toNat + 2), 255#8])

/-- R175: NORM k of a legal image for which no cause of lines 5 to 9 of R250 holds completes with the whole
normalisation in OUT, unadjusted. -/
def Obligations.NormWritesTheRgbaBuffer : Prop :=
  ∀ (s : State) (k : Img) (f : Format), Legal s k f → firstCause (imageCauses s k f) = none →
    ∃ t rgba, exec (.norm k) s = .next t ∧ Completed s t rgba ∧
      normalise f (rawBytes s k) (palBytes s k) = .ok rgba ∧ rgba.length = 4 * pixelsOf s k f

/-- R40: at the end of an unpack phase the byte and sample counters, and at the end of a normalise phase the pixel
counter, hold the totals of the phase (that they do so only at phase ends is the model's choice,
notes/assumptions/8.md). -/
def Obligations.PhasesSetTheProgressCounters : Prop :=
  ∀ (i : Instr) (s t : State), s.ctl.runState = .busy → exec i s = .next t → t.ctl.runState = .busy →
    (i.kind = .depth → t.hidden.byteIdx = (s.desc s.hidden.image).rawLen.toNat ∧
      t.hidden.sampleIdx = t.hidden.samples.length) ∧
    (i.kind = .model → t.hidden.pixelIdx = t.hidden.rgba.length / 4)

/-! ## luminance_calculator -/

/-- R190: the truncated mean of the three channels, formed without a wrap. -/
def Obligations.LumaIsTheTruncatedMean : Prop :=
  ∀ r g b : Byte, (luma r g b).toNat = (r.toNat + g.toNat + b.toNat) / 3

/-- R192: the mask does not depend on the alpha of its source. -/
def Obligations.MaskIgnoresSourceAlpha : Prop :=
  ∀ x y : List Byte, x.length = y.length → x.length % 4 = 0 →
    (∀ p, (pixelAt x p).take 3 = (pixelAt y p).take 3) → maskOf x = maskOf y

/-- R193: the mask of a grey image is its scaled grey samples. -/
def Obligations.MaskOfGreyIsItsSamples : Prop :=
  ∀ samples rgba : List Byte,
    (rgbaGray samples = .ok rgba → maskOf rgba = samples) ∧
    (rgbaGraya samples = .ok rgba → ∀ p, (maskOf rgba)[p]? = if 2 * p + 1 < samples.length then samples[2 * p]? else none)

/-- R194: MASK k of a legal image for which no cause of lines 5 to 9 of R250 holds completes with one luminance byte
per pixel in OUT, unadjusted. -/
def Obligations.MaskWritesOneBytePerPixel : Prop :=
  ∀ (s : State) (k : Img) (f : Format), Legal s k f → firstCause (imageCauses s k f) = none →
    ∃ t rgba bytes, exec (.mask k) s = .next t ∧ Completed s t bytes ∧
      normalise f (rawBytes s k) (palBytes s k) = .ok rgba ∧ bytes.length = pixelsOf s k f ∧
      ∀ p r g b a, pixelAt rgba p = [r, g, b, a] →
        bytes[p]? = some (BitVec.ofNat 8 ((r.toNat + g.toNat + b.toNat) / 3))

/-! ## image_merger -/

/-- R200: adjust fails when the buffer is short and keeps exactly the first bytes when it is long. -/
def Obligations.AdjustGivesExactlyTheLength : Prop :=
  ∀ (bytes : List Byte) (len : Nat),
    (bytes.length < len → adjust bytes len = .error { code := .lessDataSize, pos := 0 }) ∧
    (len ≤ bytes.length → ∃ out, adjust bytes len = .ok out ∧ out.length = len ∧
      ∀ a < len, out[a]? = bytes[a]?)

/-- R201, R242: with both formats legal, unequal widths or unequal heights end MERGE in SizePngAndPnaAreDifferent,
whatever the buffers hold and whatever else is wrong with the images. -/
def Obligations.SizeMismatchHidesEveryImageError : Prop :=
  ∀ (s : State) (f1 f2 : Format), Legal s .img1 f1 → Legal s .img2 f2 →
    s.img1.width ≠ s.img2.width ∨ s.img1.height ≠ s.img2.height →
    ∃ t, exec .merge s = .next t ∧ Failed s t { code := .sizePngAndPnaAreDifferent, img := none, pos := 0 }

/-- R202 to R209: MERGE of two legal images for which no cause of lines 4 to 12 of R250 holds (a width or height of 0
included) completes with width · height pixels, R, G, B from image 1 and the luminance of image 2 as alpha. The
product does not wrap. -/
def Obligations.MergeComposesColourAndLuminance : Prop :=
  ∀ (s : State) (f1 f2 : Format), Legal s .img1 f1 → Legal s .img2 f2 → firstCause (mergeCauses s f1 f2) = none →
    ∃ t x1 x2 out, exec .merge s = .next t ∧ Completed s t out ∧
      normalise f1 (rawBytes s .img1) (palBytes s .img1) = .ok x1 ∧
      normalise f2 (rawBytes s .img2) (palBytes s .img2) = .ok x2 ∧
      out.length = s.img1.width.toNat * s.img1.height.toNat * 4 ∧
      ∀ p < s.img1.width.toNat * s.img1.height.toNat,
        ∃ r g b a r2 g2 b2 a2, pixelAt x1 p = [r, g, b, a] ∧ pixelAt x2 p = [r2, g2, b2, a2] ∧
          pixelAt out p = [r, g, b, BitVec.ofNat 8 ((r2.toNat + g2.toNat + b2.toNat) / 3)]

/-- R210: an image merged with itself keeps the R, G, B that NORM gives and takes the mean of its own channels as
alpha. -/
def Obligations.SelfMergeReplacesAlphaByLuminance : Prop :=
  ∀ (s u : State) (f : Format) (x : List Byte), Legal s .img1 f → s.img2 = s.img1 →
    (∀ a < s.img1.rawLen.toNat, byteAt s .raw2 a = byteAt s .raw1 a) →
    (∀ a < s.img1.palLen.toNat, byteAt s .pal2 a = byteAt s .pal1 a) →
    exec (.norm .img1) s = .next u → Completed s u x →
    s.img1.width.toNat * s.img1.height.toNat * 4 ≤ x.length →
    ∃ t out, exec .merge s = .next t ∧ Completed s t out ∧
      ∀ p < s.img1.width.toNat * s.img1.height.toNat, ∃ r g b a, pixelAt x p = [r, g, b, a] ∧
        pixelAt out p = [r, g, b, BitVec.ofNat 8 ((r.toNat + g.toNat + b.toNat) / 3)]

/-! ## Errors -/

/-- R222, R248: the first image an operation uses whose configuration is illegal ends it in IllegalConfig, before any
other check; a one-image command does not look at the other image. -/
def Obligations.IllegalConfigComesFirst : Prop :=
  ∀ s : State,
    (∀ k, (∀ f, ¬ Legal s k f) → ∀ i ∈ [Instr.unpack k, Instr.norm k, Instr.mask k],
      ∃ t, exec i s = .next t ∧ Failed s t { code := .illegalConfig, img := some k, pos := 0 }) ∧
    ((∀ f, ¬ Legal s .img1 f) →
      ∃ t, exec .merge s = .next t ∧ Failed s t { code := .illegalConfig, img := some .img1, pos := 0 }) ∧
    ((∃ f, Legal s .img1 f) → (∀ f, ¬ Legal s .img2 f) →
      ∃ t, exec .merge s = .next t ∧ Failed s t { code := .illegalConfig, img := some .img2, pos := 0 })

/-- R250, lines 5 to 9, for the one-image commands: each ends with the first cause that holds, in closed form over the
registers and the raw bytes, and completes when none does. -/
def Obligations.OneImageCommandsEndByTheFirstCause : Prop :=
  ∀ (s : State) (k : Img) (f : Format), Legal s k f →
    EndsBy (.unpack k) s [oddByteCause s k f] ∧
    EndsBy (.norm k) s (imageCauses s k f) ∧
    EndsBy (.mask k) s (imageCauses s k f)

/-- R250, lines 4 to 12, for MERGE: it ends with the first cause that holds, in closed form over the registers and the
raw bytes, and completes when none does. -/
def Obligations.MergeEndsByTheFirstCause : Prop :=
  ∀ (s : State) (f1 f2 : Format), Legal s .img1 f1 → Legal s .img2 f2 →
    EndsBy .merge s (mergeCauses s f1 f2)

/-! ## Purity, bounds, schedule -/

/-- R93, R132: what UNPACK k reports depends on the DEPTH and MODEL of image k, its raw bytes and their number, and on
nothing else (the other image, the sizes, the palette, an earlier result). -/
def Obligations.UnpackDependsOnItsImageOnly : Prop :=
  ∀ (s u : State) (k : Img), u.params = s.params →
    (u.desc k).fmt.depth = (s.desc k).fmt.depth → (u.desc k).fmt.model = (s.desc k).fmt.model →
    (u.desc k).rawLen = (s.desc k).rawLen →
    (s.desc k).palLen.toNat ≤ s.params.palCap → (u.desc k).palLen.toNat ≤ s.params.palCap →
    (∀ a < (s.desc k).rawLen.toNat, byteAt u k.rawSpace a = byteAt s k.rawSpace a) →
    ∃ t v, exec (.unpack k) s = .next t ∧ exec (.unpack k) u = .next v ∧ SameReport t v

/-- R154: for the four models that are not Indexed, NORM and MASK do not depend on the palette, on PAL_PRESENT, on the
sizes or on the other image. -/
def Obligations.PaletteIsReadByIndexedImagesOnly : Prop :=
  ∀ (s u : State) (k : Img), u.params = s.params →
    (u.desc k).fmt.depth = (s.desc k).fmt.depth → (u.desc k).fmt.model = (s.desc k).fmt.model →
    (s.desc k).fmt.model ≠ 4#3 → (u.desc k).rawLen = (s.desc k).rawLen →
    (s.desc k).palLen.toNat ≤ s.params.palCap → (u.desc k).palLen.toNat ≤ s.params.palCap →
    (∀ a < (s.desc k).rawLen.toNat, byteAt u k.rawSpace a = byteAt s k.rawSpace a) →
    (∃ t v, exec (.norm k) s = .next t ∧ exec (.norm k) u = .next v ∧ SameReport t v) ∧
    (∃ t v, exec (.mask k) s = .next t ∧ exec (.mask k) u = .next v ∧ SameReport t v)

/-- R6, R210: running an operation again on the state it left reports the same again, result or error. -/
def Obligations.OperationsArePure : Prop :=
  ∀ (i : Instr) (s t : State), i.isOperation = true → exec i s = .next t →
    ∃ u, exec i t = .next u ∧ SameReport t u

/-- R8, R25: a completed operation announces exactly the bytes OUT holds (that OUT holds no other byte is the model's
choice, notes/assumptions/6.md), and they fit OUT_CAP. -/
def Obligations.ResultsFitTheOutputBuffer : Prop :=
  ∀ (i : Instr) (s t : State), s.params.wf = true → i.isOperation = true → exec i s = .next t →
    t.ctl.runState = .done → t.ctl.outLen.toNat = t.out.length ∧ t.out.length ≤ s.params.outCap

/-- R228, R230: an operation run phase by phase ends in exactly the state of the operation run at once, whatever it
reports (the two forms and the turns are the model's, notes/assumptions/2.md and 9.md). -/
def Obligations.PhasesAgreeWithTheWholeOperation : Prop :=
  ∀ (s : State) (i : Instr), StatusRules s → s.ctl.runState = .busy → s.hidden.phase = .decode →
    decodeOperation s.hidden.latched = some i →
    ∃ n ≤ 12, ∀ ts, Host.Core.run Sys2Proof.core n (s.withTurns (List.replicate n .phase ++ ts)) = exec i (s.withTurns ts)

/-- R229: a started operation ends, in DONE or in ERROR (or the host resets it), after finitely many steps: one for
every turn the schedule lists, and at most twelve more (the turns are the model's, notes/assumptions/2.md). -/
def Obligations.StartedOperationsEnd : Prop :=
  ∀ s : State, s.ctl.runState = .busy → (∀ a ∈ s.env.script, a.wf = true) →
    ∃ n ≤ s.env.turns.length + 12, ∃ t, Host.Core.run Sys2Proof.core n s = .next t ∧
      (t.ctl.runState = .done ∨ t.ctl.runState = .error ∨
        (t.ctl.runState = .idle ∧ Access.reset ∈ s.env.script))
end

