-- ==== Sys2Proof/Laws/State.lean ====
section
/-! SUPPORT. One lemma per field per update of the state, true by `rfl` or by cases on the space or image, so that no
later proof unfolds a record update. -/

namespace Sys2Proof.Machine

/-! ### startOp -/

@[simp] theorem startOp_params (w : Word) (s : State) : (startOp w s).params = s.params := rfl
@[simp] theorem startOp_img1 (w : Word) (s : State) : (startOp w s).img1 = s.img1 := rfl
@[simp] theorem startOp_img2 (w : Word) (s : State) : (startOp w s).img2 = s.img2 := rfl
@[simp] theorem startOp_raw1 (w : Word) (s : State) : (startOp w s).raw1 = s.raw1 := rfl
@[simp] theorem startOp_raw2 (w : Word) (s : State) : (startOp w s).raw2 = s.raw2 := rfl
@[simp] theorem startOp_pal1 (w : Word) (s : State) : (startOp w s).pal1 = s.pal1 := rfl
@[simp] theorem startOp_pal2 (w : Word) (s : State) : (startOp w s).pal2 = s.pal2 := rfl
@[simp] theorem startOp_env (w : Word) (s : State) : (startOp w s).env = s.env := rfl
@[simp] theorem startOp_runState (w : Word) (s : State) : (startOp w s).ctl.runState = .busy := rfl
@[simp] theorem startOp_ctl (w : Word) (s : State) : (startOp w s).ctl =
    { s.ctl with runState := .busy, err := none, errImg := none, outLen := 0#32, errPos := 0#32 } := rfl
@[simp] theorem startOp_out (w : Word) (s : State) : (startOp w s).out = [] := rfl
@[simp] theorem startOp_hidden (w : Word) (s : State) :
    (startOp w s).hidden = { Hidden.dead with latched := w } := rfl

/-! ### writeOut -/

@[simp] theorem writeOut_params (bytes : List Byte) (s : State) : (writeOut bytes s).params = s.params := rfl
@[simp] theorem writeOut_ctl (bytes : List Byte) (s : State) : (writeOut bytes s).ctl = s.ctl := rfl
@[simp] theorem writeOut_img1 (bytes : List Byte) (s : State) : (writeOut bytes s).img1 = s.img1 := rfl
@[simp] theorem writeOut_img2 (bytes : List Byte) (s : State) : (writeOut bytes s).img2 = s.img2 := rfl
@[simp] theorem writeOut_raw1 (bytes : List Byte) (s : State) : (writeOut bytes s).raw1 = s.raw1 := rfl
@[simp] theorem writeOut_raw2 (bytes : List Byte) (s : State) : (writeOut bytes s).raw2 = s.raw2 := rfl
@[simp] theorem writeOut_pal1 (bytes : List Byte) (s : State) : (writeOut bytes s).pal1 = s.pal1 := rfl
@[simp] theorem writeOut_pal2 (bytes : List Byte) (s : State) : (writeOut bytes s).pal2 = s.pal2 := rfl
@[simp] theorem writeOut_hidden (bytes : List Byte) (s : State) : (writeOut bytes s).hidden = s.hidden := rfl
@[simp] theorem writeOut_env (bytes : List Byte) (s : State) : (writeOut bytes s).env = s.env := rfl
@[simp] theorem writeOut_out (bytes : List Byte) (s : State) : (writeOut bytes s).out = cellsFrom 0 bytes := rfl

/-! ### completeOp -/

@[simp] theorem completeOp_params (len : Nat) (s : State) : (completeOp len s).params = s.params := rfl
@[simp] theorem completeOp_img1 (len : Nat) (s : State) : (completeOp len s).img1 = s.img1 := rfl
@[simp] theorem completeOp_img2 (len : Nat) (s : State) : (completeOp len s).img2 = s.img2 := rfl
@[simp] theorem completeOp_raw1 (len : Nat) (s : State) : (completeOp len s).raw1 = s.raw1 := rfl
@[simp] theorem completeOp_raw2 (len : Nat) (s : State) : (completeOp len s).raw2 = s.raw2 := rfl
@[simp] theorem completeOp_pal1 (len : Nat) (s : State) : (completeOp len s).pal1 = s.pal1 := rfl
@[simp] theorem completeOp_pal2 (len : Nat) (s : State) : (completeOp len s).pal2 = s.pal2 := rfl
@[simp] theorem completeOp_out (len : Nat) (s : State) : (completeOp len s).out = s.out := rfl
@[simp] theorem completeOp_env (len : Nat) (s : State) : (completeOp len s).env = s.env := rfl
@[simp] theorem completeOp_ctl (len : Nat) (s : State) :
    (completeOp len s).ctl = { s.ctl with runState := .done, outLen := BitVec.ofNat 32 len } := rfl
@[simp] theorem completeOp_hidden (len : Nat) (s : State) : (completeOp len s).hidden = Hidden.dead := rfl

/-! ### raiseError -/

@[simp] theorem raiseError_params (r : Raise) (s : State) : (raiseError r s).params = s.params := rfl
@[simp] theorem raiseError_img1 (r : Raise) (s : State) : (raiseError r s).img1 = s.img1 := rfl
@[simp] theorem raiseError_img2 (r : Raise) (s : State) : (raiseError r s).img2 = s.img2 := rfl
@[simp] theorem raiseError_raw1 (r : Raise) (s : State) : (raiseError r s).raw1 = s.raw1 := rfl
@[simp] theorem raiseError_raw2 (r : Raise) (s : State) : (raiseError r s).raw2 = s.raw2 := rfl
@[simp] theorem raiseError_pal1 (r : Raise) (s : State) : (raiseError r s).pal1 = s.pal1 := rfl
@[simp] theorem raiseError_pal2 (r : Raise) (s : State) : (raiseError r s).pal2 = s.pal2 := rfl
@[simp] theorem raiseError_env (r : Raise) (s : State) : (raiseError r s).env = s.env := rfl
@[simp] theorem raiseError_ctl (r : Raise) (s : State) : (raiseError r s).ctl =
    { s.ctl with
      runState := .error, err := some r.code, errImg := r.img, outLen := 0#32,
      errPos := BitVec.ofNat 32 r.pos } := rfl
@[simp] theorem raiseError_out (r : Raise) (s : State) : (raiseError r s).out = [] := rfl
@[simp] theorem raiseError_hidden (r : Raise) (s : State) : (raiseError r s).hidden = Hidden.dead := rfl

/-! ### resetEvent -/

@[simp] theorem resetEvent_params (s : State) : (resetEvent s).params = s.params := rfl
@[simp] theorem resetEvent_ctl (s : State) : (resetEvent s).ctl = Control.reset := rfl
@[simp] theorem resetEvent_hidden (s : State) : (resetEvent s).hidden = Hidden.dead := rfl
@[simp] theorem resetEvent_out (s : State) : (resetEvent s).out = [] := rfl
@[simp] theorem resetEvent_mem (s : State) (space : Space) : (resetEvent s).mem space = [] := by
  cases space <;> rfl
@[simp] theorem resetEvent_desc (s : State) (k : Img) : (resetEvent s).desc k = Desc.reset := by
  cases k <;> rfl
@[simp] theorem resetEvent_env (s : State) :
    (resetEvent s).env = { s.env with epoch := s.env.epoch + 1 } := rfl

/-! ### enterPhase, withTurns, returnWord -/

@[simp] theorem enterPhase_params (p : Phase) (s : State) : (enterPhase p s).params = s.params := rfl
@[simp] theorem enterPhase_ctl (p : Phase) (s : State) : (enterPhase p s).ctl = s.ctl := rfl
@[simp] theorem enterPhase_img1 (p : Phase) (s : State) : (enterPhase p s).img1 = s.img1 := rfl
@[simp] theorem enterPhase_img2 (p : Phase) (s : State) : (enterPhase p s).img2 = s.img2 := rfl
@[simp] theorem enterPhase_raw1 (p : Phase) (s : State) : (enterPhase p s).raw1 = s.raw1 := rfl
@[simp] theorem enterPhase_raw2 (p : Phase) (s : State) : (enterPhase p s).raw2 = s.raw2 := rfl
@[simp] theorem enterPhase_pal1 (p : Phase) (s : State) : (enterPhase p s).pal1 = s.pal1 := rfl
@[simp] theorem enterPhase_pal2 (p : Phase) (s : State) : (enterPhase p s).pal2 = s.pal2 := rfl
@[simp] theorem enterPhase_out (p : Phase) (s : State) : (enterPhase p s).out = s.out := rfl
@[simp] theorem enterPhase_env (p : Phase) (s : State) : (enterPhase p s).env = s.env := rfl
@[simp] theorem enterPhase_hidden (p : Phase) (s : State) :
    (enterPhase p s).hidden = { s.hidden with phase := p } := rfl

@[simp] theorem withTurns_params (ts : List Turn) (s : State) : (s.withTurns ts).params = s.params := rfl
@[simp] theorem withTurns_ctl (ts : List Turn) (s : State) : (s.withTurns ts).ctl = s.ctl := rfl
@[simp] theorem withTurns_img1 (ts : List Turn) (s : State) : (s.withTurns ts).img1 = s.img1 := rfl
@[simp] theorem withTurns_img2 (ts : List Turn) (s : State) : (s.withTurns ts).img2 = s.img2 := rfl
@[simp] theorem withTurns_raw1 (ts : List Turn) (s : State) : (s.withTurns ts).raw1 = s.raw1 := rfl
@[simp] theorem withTurns_raw2 (ts : List Turn) (s : State) : (s.withTurns ts).raw2 = s.raw2 := rfl
@[simp] theorem withTurns_pal1 (ts : List Turn) (s : State) : (s.withTurns ts).pal1 = s.pal1 := rfl
@[simp] theorem withTurns_pal2 (ts : List Turn) (s : State) : (s.withTurns ts).pal2 = s.pal2 := rfl
@[simp] theorem withTurns_out (ts : List Turn) (s : State) : (s.withTurns ts).out = s.out := rfl
@[simp] theorem withTurns_hidden (ts : List Turn) (s : State) : (s.withTurns ts).hidden = s.hidden := rfl
@[simp] theorem withTurns_env (ts : List Turn) (s : State) :
    (s.withTurns ts).env = { s.env with turns := ts } := rfl
@[simp] theorem withTurns_withTurns (ts us : List Turn) (s : State) :
    (s.withTurns ts).withTurns us = s.withTurns us := rfl

@[simp] theorem returnWord_params (w : Word) (s : State) : (returnWord w s).params = s.params := rfl
@[simp] theorem returnWord_ctl (w : Word) (s : State) : (returnWord w s).ctl = s.ctl := rfl
@[simp] theorem returnWord_img1 (w : Word) (s : State) : (returnWord w s).img1 = s.img1 := rfl
@[simp] theorem returnWord_img2 (w : Word) (s : State) : (returnWord w s).img2 = s.img2 := rfl
@[simp] theorem returnWord_raw1 (w : Word) (s : State) : (returnWord w s).raw1 = s.raw1 := rfl
@[simp] theorem returnWord_raw2 (w : Word) (s : State) : (returnWord w s).raw2 = s.raw2 := rfl
@[simp] theorem returnWord_pal1 (w : Word) (s : State) : (returnWord w s).pal1 = s.pal1 := rfl
@[simp] theorem returnWord_pal2 (w : Word) (s : State) : (returnWord w s).pal2 = s.pal2 := rfl
@[simp] theorem returnWord_out (w : Word) (s : State) : (returnWord w s).out = s.out := rfl
@[simp] theorem returnWord_hidden (w : Word) (s : State) : (returnWord w s).hidden = s.hidden := rfl
@[simp] theorem returnWord_env (w : Word) (s : State) :
    (returnWord w s).env = { s.env with regData := w } := rfl

/-! ### setMem: one space changes -/

@[simp] theorem setMem_params (s : State) (space : Space) (m : Memory) : (s.setMem space m).params = s.params := by
  cases space <;> rfl
@[simp] theorem setMem_ctl (s : State) (space : Space) (m : Memory) : (s.setMem space m).ctl = s.ctl := by
  cases space <;> rfl
@[simp] theorem setMem_img1 (s : State) (space : Space) (m : Memory) : (s.setMem space m).img1 = s.img1 := by
  cases space <;> rfl
@[simp] theorem setMem_img2 (s : State) (space : Space) (m : Memory) : (s.setMem space m).img2 = s.img2 := by
  cases space <;> rfl
@[simp] theorem setMem_hidden (s : State) (space : Space) (m : Memory) : (s.setMem space m).hidden = s.hidden := by
  cases space <;> rfl
@[simp] theorem setMem_env (s : State) (space : Space) (m : Memory) : (s.setMem space m).env = s.env := by
  cases space <;> rfl

@[simp] theorem setMem_mem_same (s : State) (space : Space) (m : Memory) : (s.setMem space m).mem space = m := by
  cases space <;> rfl

@[simp] theorem setMem_mem_other {s : State} {space other : Space} {m : Memory} (h : other ≠ space) :
    (s.setMem space m).mem other = s.mem other := by
  cases space <;> cases other <;> first | rfl | exact absurd rfl h

@[simp] theorem setMem_out {s : State} {space : Space} {m : Memory} (h : space ≠ .out) :
    (s.setMem space m).out = s.out := by
  cases space <;> first | rfl | exact absurd rfl h

@[simp] theorem setMem_desc (s : State) (space : Space) (m : Memory) (k : Img) :
    (s.setMem space m).desc k = s.desc k := by
  cases space <;> cases k <;> rfl

/-! ### setDesc: one descriptor changes -/

@[simp] theorem setDesc_params (s : State) (k : Img) (d : Desc) : (s.setDesc k d).params = s.params := by
  cases k <;> rfl
@[simp] theorem setDesc_ctl (s : State) (k : Img) (d : Desc) : (s.setDesc k d).ctl = s.ctl := by
  cases k <;> rfl
@[simp] theorem setDesc_raw1 (s : State) (k : Img) (d : Desc) : (s.setDesc k d).raw1 = s.raw1 := by
  cases k <;> rfl
@[simp] theorem setDesc_raw2 (s : State) (k : Img) (d : Desc) : (s.setDesc k d).raw2 = s.raw2 := by
  cases k <;> rfl
@[simp] theorem setDesc_pal1 (s : State) (k : Img) (d : Desc) : (s.setDesc k d).pal1 = s.pal1 := by
  cases k <;> rfl
@[simp] theorem setDesc_pal2 (s : State) (k : Img) (d : Desc) : (s.setDesc k d).pal2 = s.pal2 := by
  cases k <;> rfl
@[simp] theorem setDesc_out (s : State) (k : Img) (d : Desc) : (s.setDesc k d).out = s.out := by
  cases k <;> rfl
@[simp] theorem setDesc_hidden (s : State) (k : Img) (d : Desc) : (s.setDesc k d).hidden = s.hidden := by
  cases k <;> rfl
@[simp] theorem setDesc_env (s : State) (k : Img) (d : Desc) : (s.setDesc k d).env = s.env := by
  cases k <;> rfl

@[simp] theorem setDesc_desc_same (s : State) (k : Img) (d : Desc) : (s.setDesc k d).desc k = d := by
  cases k <;> rfl

@[simp] theorem setDesc_desc_other {s : State} {k j : Img} {d : Desc} (h : j ≠ k) :
    (s.setDesc k d).desc j = s.desc j := by
  cases k <;> cases j <;> first | rfl | exact absurd rfl h

@[simp] theorem setDesc_mem (s : State) (k : Img) (d : Desc) (space : Space) :
    (s.setDesc k d).mem space = s.mem space := by
  cases k <;> cases space <;> rfl

/-! ### What the operands read: the status, OUT and hidden state are no operand -/

@[simp] theorem mem_out (s : State) : s.mem .out = s.out := rfl

@[simp] theorem mem_env (s : State) (e : Env) (space : Space) : State.mem { s with env := e } space = s.mem space := by
  cases space <;> rfl

@[simp] theorem desc_env (s : State) (e : Env) (k : Img) : State.desc { s with env := e } k = s.desc k := by
  cases k <;> rfl

theorem desc_congr {s t : State} (h1 : t.img1 = s.img1) (h2 : t.img2 = s.img2) (k : Img) : t.desc k = s.desc k := by
  cases k
  · exact h1
  · exact h2

/-- Two states that agree on an input space and on the number of resets hold the same bytes there. -/
theorem byteAt_congr {s t : State} {space : Space} (hm : t.mem space = s.mem space) (he : t.env.epoch = s.env.epoch)
    (a : Nat) : byteAt t space a = byteAt s space a := by
  simp only [byteAt, hm, he]

theorem bytesAt_congr {s t : State} {space : Space} (hm : t.mem space = s.mem space)
    (he : t.env.epoch = s.env.epoch) (n : Nat) : bytesAt t space n = bytesAt s space n := by
  simp only [bytesAt, funext (byteAt_congr hm he)]

@[simp] theorem bytesAt_length (s : State) (space : Space) (n : Nat) : (bytesAt s space n).length = n := by
  simp [bytesAt]

@[simp] theorem rawBytes_length (s : State) (k : Img) : (rawBytes s k).length = (s.desc k).rawLen.toNat := by
  simp [rawBytes]

@[simp] theorem palBytes_length (s : State) (k : Img) : (palBytes s k).length = (s.desc k).palLen.toNat := by
  simp [palBytes]

theorem getElem?_bytesAt (s : State) (space : Space) {n a : Nat} (h : a < n) :
    (bytesAt s space n)[a]? = some (byteAt s space a) := by
  simp [bytesAt, h]

end Sys2Proof.Machine
end

