-- ==== Sys2Proof/Laws/Memory.lean ====
section
/-! SUPPORT. The laws of one byte memory: read after write, and the canonical form, which every memory operation
keeps. -/

namespace Sys2Proof.Machine

/-- A read after a write to the same address gives the value written. -/
@[simp] theorem read_write_same (m : Memory) (a : Nat) (v : Byte) : Memory.read (Memory.write m a v) a = some v := by
  induction m with
  | nil => simp [Memory.write, Memory.read]
  | cons c m ih =>
    obtain ⟨x, c⟩ := c
    simp only [Memory.write]
    split
    · simp [Memory.read]
    · split
      · simp [Memory.read]
      · rename_i h1 h2
        simp [Memory.read, Ne.symm h2, ih]

/-- A write leaves every other address alone. -/
theorem read_write_other (m : Memory) {a b : Nat} (v : Byte) (h : b ≠ a) :
    Memory.read (Memory.write m a v) b = Memory.read m b := by
  induction m with
  | nil => simp [Memory.write, Memory.read, Ne.symm h]
  | cons c m ih =>
    obtain ⟨x, c⟩ := c
    simp only [Memory.write]
    split
    · simp [Memory.read, Ne.symm h]
    · split
      · rename_i h1 h2
        subst h2
        simp [Memory.read, Ne.symm h]
      · simp only [Memory.read, ih]

/-- The addresses of a memory after a write: the old ones and the written one. -/
theorem mem_write {m : Memory} {a : Nat} {v : Byte} {c : Host.Cell} (h : c ∈ Memory.write m a v) :
    c = (a, v) ∨ c ∈ m := by
  induction m with
  | nil => simpa [Memory.write] using h
  | cons d m ih =>
    obtain ⟨x, d⟩ := d
    simp only [Memory.write] at h
    split at h
    · simpa using h
    · split at h
      · rcases List.mem_cons.1 h with h | h
        · exact .inl h
        · exact .inr (List.mem_cons_of_mem _ h)
      · rcases List.mem_cons.1 h with h | h
        · exact .inr (h ▸ List.mem_cons_self)
        · exact (ih h).imp_right (List.mem_cons_of_mem _)

/-- The canonical form, said of the head: it is below every address of the tail. -/
theorem wf_cons {c : Host.Cell} {m : Memory} :
    Memory.wf (c :: m) = true ↔ (∀ d ∈ m, c.1 < d.1) ∧ Memory.wf m = true := by
  induction m generalizing c with
  | nil => simp [Memory.wf]
  | cons d m ih =>
    obtain ⟨a, b⟩ := c
    obtain ⟨x, y⟩ := d
    simp only [Memory.wf, Bool.and_eq_true, decide_eq_true_eq, List.mem_cons, forall_eq_or_imp]
    constructor
    · rintro ⟨h, hm⟩
      exact ⟨⟨h, fun d hd => h.trans ((ih.1 hm).1 d hd)⟩, hm⟩
    · rintro ⟨⟨h, _⟩, hm⟩
      exact ⟨h, hm⟩

/-- A write keeps the canonical form. -/
theorem write_wf {m : Memory} (h : Memory.wf m = true) (a : Nat) (v : Byte) : Memory.wf (Memory.write m a v) = true := by
  induction m with
  | nil => rfl
  | cons c m ih =>
    obtain ⟨x, c⟩ := c
    obtain ⟨hx, hm⟩ := wf_cons.1 h
    simp only [Memory.write]
    split
    · rename_i hlt
      refine wf_cons.2 ⟨fun d hd => ?_, h⟩
      rcases List.mem_cons.1 hd with rfl | hd
      · exact hlt
      · exact hlt.trans (hx d hd)
    · split
      · rename_i h1 h2
        subst h2
        exact wf_cons.2 ⟨hx, hm⟩
      · refine wf_cons.2 ⟨fun d hd => ?_, ih hm⟩
        rcases mem_write hd with rfl | hd
        · show x < a
          omega
        · exact hx d hd

/-- A write below a bound keeps all addresses below it. -/
theorem write_below {m : Memory} {cap a : Nat} (h : Memory.below cap m) (ha : a < cap) (v : Byte) :
    Memory.below cap (Memory.write m a v) := by
  intro c hc
  rcases mem_write hc with rfl | hc
  · exact ha
  · exact h c hc

@[simp] theorem cellsFrom_length (a : Nat) (bytes : List Byte) : (cellsFrom a bytes).length = bytes.length := by
  induction bytes generalizing a with
  | nil => rfl
  | cons b bytes ih => simp [cellsFrom, ih]

@[simp] theorem cellsFrom_snd (a : Nat) (bytes : List Byte) : (cellsFrom a bytes).map Prod.snd = bytes := by
  induction bytes generalizing a with
  | nil => rfl
  | cons b bytes ih => simp [cellsFrom, ih]

theorem le_of_mem_cellsFrom {a : Nat} {bytes : List Byte} {c : Host.Cell} (h : c ∈ cellsFrom a bytes) : a ≤ c.1 := by
  induction bytes generalizing a with
  | nil => simp [cellsFrom] at h
  | cons b bytes ih =>
    rcases List.mem_cons.1 h with rfl | h
    · exact Nat.le_refl _
    · exact Nat.le_of_succ_le (ih h)

/-- A result laid out from an address on is canonical. -/
@[simp] theorem cellsFrom_wf (a : Nat) (bytes : List Byte) : Memory.wf (cellsFrom a bytes) = true := by
  induction bytes generalizing a with
  | nil => rfl
  | cons b bytes ih => exact wf_cons.2 ⟨fun d hd => le_of_mem_cellsFrom hd, ih (a + 1)⟩

theorem read_cellsFrom_below {a x : Nat} (bytes : List Byte) (h : x < a) : Memory.read (cellsFrom a bytes) x = none := by
  induction bytes generalizing a with
  | nil => rfl
  | cons b bytes ih => simp [cellsFrom, Memory.read, Nat.ne_of_gt h, ih (Nat.lt_succ_of_lt h)]

/-- What a result laid out from an address on reads as. -/
theorem read_cellsFrom (a x : Nat) (bytes : List Byte) : Memory.read (cellsFrom a bytes) (a + x) = bytes[x]? := by
  induction bytes generalizing a x with
  | nil => rfl
  | cons b bytes ih =>
    cases x with
    | zero => simp [cellsFrom, Memory.read]
    | succ x =>
      have h : a + (x + 1) = a + 1 + x := by omega
      simp [cellsFrom, Memory.read, h, ih, show a ≠ a + 1 + x by omega]

/-- What the bytes of a result read as: byte `x` at address `x`. -/
@[simp] theorem read_cellsFrom_zero (x : Nat) (bytes : List Byte) : Memory.read (cellsFrom 0 bytes) x = bytes[x]? := by
  simpa using read_cellsFrom 0 x bytes

end Sys2Proof.Machine
end

