-- ==== Sys2Proof/Laws/Ops.lean ====
section
/-! SUPPORT. One lemma per shared operation that says all it can do: how an operation ends, ACK, the host's buffer
accesses, the register map, operand assembly. -/

namespace Sys2Proof.Machine

/-! ### How an operation ends -/

/-- An operation whose body gives a result is completed with it. -/
theorem completed_settle (w : Word) (s : State) (bytes : List Byte) :
    Completed s (settle (startOp w s) (.ok bytes)) bytes :=
  ⟨rfl, fun a _ => read_cellsFrom_zero a bytes, rfl⟩

/-- An operation whose body raises ends with that error. -/
theorem failed_settle (w : Word) (s : State) (r : Raise) : Failed s (settle (startOp w s) (.error r)) r :=
  ⟨rfl, rfl⟩

theorem exec_unpack (k : Img) (s : State) :
    exec (.unpack k) s = .next (settle (startOp (encode (.unpack k)) s) (unpackResult s k)) := rfl

theorem exec_norm (k : Img) (s : State) :
    exec (.norm k) s = .next (settle (startOp (encode (.norm k)) s) (normResult s k)) := rfl

theorem exec_mask (k : Img) (s : State) :
    exec (.mask k) s = .next (settle (startOp (encode (.mask k)) s) (maskResult s k)) := rfl

theorem exec_merge (s : State) :
    exec .merge s = .next (settle (startOp (encode .merge) s) (mergeResult s)) := rfl

/-! ### ACK -/

/-- What ACK leaves: everything but the status and OUT, and those too outside DONE and ERROR. -/
theorem acknowledge_cases (s : State) :
    (s.ctl.runState ≠ .done ∧ s.ctl.runState ≠ .error ∧ acknowledge s = s) ∨
    ((s.ctl.runState = .done ∨ s.ctl.runState = .error) ∧
      acknowledge s = { s with
        ctl := { s.ctl with runState := .idle, err := none, errImg := none, outLen := 0#32, errPos := 0#32 }
        out := [] }) := by
  cases h : s.ctl.runState <;> simp [acknowledge, h]

/-! ### The host's buffer accesses -/

/-- A host write either is dropped or writes one byte of an input buffer below its capacity, STATE not BUSY. -/
theorem hostStore_cases (s : State) (space : Space) (a : Nat) (v : Byte) :
    ((s.ctl.runState = .busy ∨ space = .out ∨ s.params.capacity space ≤ a) ∧ hostStore s space a v = s) ∨
    (s.ctl.runState ≠ .busy ∧ space ≠ .out ∧ a < s.params.capacity space ∧
      hostStore s space a v = s.setMem space (Memory.write (s.mem space) a v)) := by
  unfold hostStore
  split
  · exact .inl ⟨.inl ‹_›, rfl⟩
  · split
    · exact .inl ⟨.inr (.inl ‹_›), rfl⟩
    · split
      · exact .inl ⟨.inr (.inr ‹_›), rfl⟩
      · exact .inr ⟨‹_›, ‹_›, by omega, rfl⟩

/-- A host read changes only what the port returns and the count of free bytes. -/
theorem hostLoad_frame (s : State) (space : Space) (a : Nat) :
    hostLoad s space a = { s with env := (hostLoad s space a).env } := by
  unfold hostLoad
  split <;> rfl

/-- A descriptor write is dropped while BUSY and otherwise changes that descriptor only. -/
theorem writeDesc_cases (s : State) (k : Img) (f : Desc → Desc) :
    (s.ctl.runState = .busy ∧ writeDesc s k f = s) ∨
    (s.ctl.runState ≠ .busy ∧ writeDesc s k f = s.setDesc k (f (s.desc k))) := by
  unfold writeDesc
  split
  · exact .inl ⟨‹_›, rfl⟩
  · exact .inr ⟨‹_›, rfl⟩

/-- A register write is dropped, or changes IE, or changes one descriptor while STATE is not BUSY. -/
theorem writeReg_cases (s : State) (r : Reg) (v : Word) :
    writeReg s r v = s ∨
    writeReg s r v = { s with ctl := { s.ctl with ie := v.getLsbD 0 } } ∨
    (s.ctl.runState ≠ .busy ∧ ∃ k d, writeReg s r v = s.setDesc k d) := by
  have desc (j : Img) (f : Desc → Desc) :
      writeDesc s j f = s ∨ s.ctl.runState ≠ .busy ∧ ∃ k d, writeDesc s j f = s.setDesc k d := by
    rcases writeDesc_cases s j f with ⟨_, h⟩ | ⟨hb, h⟩
    · exact .inl h
    · exact .inr ⟨hb, _, _, h⟩
  cases r <;> simp only [writeReg] <;> first
    | exact .inl trivial
    | exact .inr (.inl trivial)
    | exact (desc _ _).imp_right .inr

/-! ### The register map -/

/-- Every register stands at its offset. -/
@[simp] theorem regAt_regOffset (r : Reg) : regAt (regOffset r) = some r := by
  cases r <;> first | rfl | (rename_i k; cases k <;> rfl)

/-- An aligned offset outside the three ranges of R21 names no register. -/
theorem regAt_unmapped {offset : Nat}
    (h : (0x14 ≤ offset ∧ offset ≤ 0x1C) ∨ (0x34 ≤ offset ∧ offset ≤ 0x3C) ∨ 0x54 ≤ offset) : regAt offset = none := by
  unfold regAt
  split <;> first | rfl | omega

/-! ### Operand assembly -/

/-- The operands of image k depend on its descriptor, its two buffers and the parameters only. -/
theorem checkImage_congr {s t : State} (k : Img) (hp : t.params = s.params) (hd : t.desc k = s.desc k) :
    checkImage t k = checkImage s k := by
  simp only [checkImage, hp, hd]

theorem depthOfField_code (d : Depth) : depthOfField d.code = .ok d := by cases d <;> rfl

theorem modelOfField_code (m : Model) : modelOfField m.code = .ok m := by cases m <;> rfl

theorem code_of_depthOfField {x : BitVec 5} {d : Depth} (h : depthOfField x = .ok d) : x = d.code := by
  revert x; cases d <;> decide

theorem code_of_modelOfField {x : BitVec 3} {m : Model} (h : modelOfField x = .ok m) : x = m.code := by
  revert x; cases m <;> decide

theorem modeOfField_code (m : Model) : modeOfField m.code = modeOf m := by cases m <;> rfl

/-- The formats are exactly the 25 pairs of codes (R99). -/
theorem decodeFormat_eq_ok {f : FormatFields} {g : Format} :
    decodeFormat f = .ok g ↔ f = { depth := g.depth.code, model := g.model.code, palPresent := g.palPresent } := by
  constructor
  · intro h
    unfold decodeFormat at h
    split at h
    · cases h
    · split at h
      · cases h
      · rename_i _ d hd _ m hm
        cases h
        cases f
        simp only [FormatFields.mk.injEq]
        exact ⟨code_of_depthOfField hd, code_of_modelOfField hm, trivial⟩
  · rintro rfl
    simp [decodeFormat, depthOfField_code, modelOfField_code]

/-- The configuration check passes exactly for a legal image. -/
theorem checkImage_eq_ok {s : State} {k : Img} {f : Format} : checkImage s k = .ok f ↔ Legal s k f := by
  unfold checkImage
  split
  · rename_i e he
    simp only [reduceCtorEq, false_iff]
    rintro ⟨h, _⟩
    rw [decodeFormat_eq_ok.2 h] at he
    cases he
  · rename_i g hg
    split
    · rename_i hc
      constructor
      · rintro ⟨rfl⟩
        exact ⟨decodeFormat_eq_ok.1 hg, hc⟩
      · rintro ⟨h, _⟩
        rw [decodeFormat_eq_ok.2 h] at hg
        cases hg
        rfl
    · rename_i hc
      simp only [reduceCtorEq, false_iff]
      exact fun h => hc h.2

/-- What the configuration check raises. -/
theorem checkImage_eq_error {s : State} {k : Img} {r : Raise} (h : checkImage s k = .error r) :
    r = illegalConfig k := by
  unfold checkImage at h
  split at h
  · cases h; rfl
  · split at h
    · cases h
    · cases h; rfl

end Sys2Proof.Machine
end

