-- ==== Sys2Proof/Laws/Errors.lean ====
section
/-! SUPPORT. What each stage can raise: the codes, images and positions of the table of 60_exceptions.md R241. -/

namespace Sys2Proof.Machine

/-- What an error records fits its row of R241. -/
def Raise.proper (r : Raise) : Bool := errImgFits r.code r.img && errPosFits r.code r.pos

/-- An `err(E, pos)` that any image may carry. -/
def Err.proper (e : Err) : Prop := ∀ k, Raise.proper { code := e.code, img := some k, pos := e.pos } = true

theorem proper_lessData : Err.proper lessData := fun k => by cases k <;> rfl

theorem unpack_error {bytes : List Byte} {d : Depth} {mode : Mode} {e : Err} (h : unpack bytes d mode = .error e) :
    e = lessData := by
  cases d <;> simp only [unpack, samplesD1, samplesD2, samplesD4, samplesD8, samplesD16, reduceCtorEq] at h
  split at h
  · cases h; rfl
  · cases h

theorem lookupPixels_error {table : List Rgb} {p : Nat} {samples : List Byte} {e : Err}
    (h : lookupPixels table p samples = .error e) : e.code = .invalidIndexForPalette := by
  induction samples generalizing p with
  | nil => cases h
  | cons i rest ih =>
    simp only [lookupPixels] at h
    split at h
    · cases h; rfl
    · split at h
      · rename_i e' he
        cases h
        exact ih he
      · cases h

theorem proper_of_invalidIndex {e : Err} (h : e.code = .invalidIndexForPalette) : Err.proper e := fun k => by
  simp [Raise.proper, errImgFits, errPosFits, h]

theorem indexTable_error {pp : Bool} {palette : List Byte} {e : Err} (h : indexTable pp palette = .error e) :
    Err.proper e := by
  unfold indexTable resolve at h
  split at h
  · split at h
    · cases h; exact fun k => by cases k <;> rfl
    · cases h
  · cases h; exact fun k => by cases k <;> rfl

theorem rgbaIdx_error {pp : Bool} {palette samples : List Byte} {e : Err}
    (h : rgbaIdx pp palette samples = .error e) : Err.proper e := by
  unfold rgbaIdx at h
  split at h
  · rename_i e' he
    cases h
    exact indexTable_error he
  · exact proper_of_invalidIndex (lookupPixels_error h)

theorem adjust_error {bytes : List Byte} {n : Nat} {e : Err} (h : adjust bytes n = .error e) : e = lessData := by
  unfold adjust at h
  split at h
  · cases h; rfl
  · cases h

theorem normalise_error {f : Format} {raw palette : List Byte} {e : Err} (h : normalise f raw palette = .error e) :
    Err.proper e := by
  unfold normalise at h
  split at h
  · rename_i e' he
    cases h
    exact unpack_error he ▸ proper_lessData
  · split at h
    · cases h
    all_goals first
      | exact rgbaIdx_error h
      | (simp only [rgbaGraya, rgbaRgb, rgbaRgba] at h
         split at h
         · cases h; exact proper_lessData
         · cases h)

theorem withImage_error {α : Type} {k : Img} {r : Except Err α} {x : Raise} (h : withImage k r = .error x) :
    ∃ e, r = .error e ∧ x = { code := e.code, img := some k, pos := e.pos } := by
  cases r with
  | ok a => cases h
  | error e => cases h; exact ⟨e, rfl, rfl⟩

@[simp] theorem withImage_ok {α : Type} (k : Img) (a : α) : withImage k (.ok a) = .ok a := rfl

@[simp] theorem withImage_err {α : Type} (k : Img) (e : Err) :
    withImage k (.error e : Except Err α) = .error { code := e.code, img := some k, pos := e.pos } := rfl

theorem withImage_eq_ok {α : Type} {k : Img} {r : Except Err α} {a : α} : withImage k r = .ok a ↔ r = .ok a := by
  cases r <;> simp [withImage]

theorem proper_withImage {α : Type} {k : Img} {r : Except Err α} {x : Raise} (hr : ∀ e, r = .error e → Err.proper e)
    (h : withImage k r = .error x) : x.proper = true := by
  obtain ⟨e, he, rfl⟩ := withImage_error h
  exact hr e he k

theorem proper_illegalConfig (k : Img) : (illegalConfig k).proper = true := by cases k <;> rfl

theorem proper_sizeMismatch : sizeMismatch.proper = true := rfl

theorem proper_illegalCommand : illegalCommand.proper = true := rfl

theorem checkImage_proper {s : State} {k : Img} {r : Raise} (h : checkImage s k = .error r) : r.proper = true :=
  checkImage_eq_error h ▸ proper_illegalConfig k

theorem normaliseImage_proper {s : State} {k : Img} {f : Format} {r : Raise} (h : normaliseImage s k f = .error r) :
    r.proper = true :=
  proper_withImage (fun _ => normalise_error) h

theorem unpackResult_proper {s : State} {k : Img} {r : Raise} (h : unpackResult s k = .error r) : r.proper = true := by
  unfold unpackResult at h
  split at h
  · rename_i he; cases h; exact checkImage_proper he
  · exact proper_withImage (fun _ he => unpack_error he ▸ proper_lessData) h

theorem normResult_proper {s : State} {k : Img} {r : Raise} (h : normResult s k = .error r) : r.proper = true := by
  unfold normResult at h
  split at h
  · rename_i he; cases h; exact checkImage_proper he
  · exact normaliseImage_proper h

theorem maskResult_proper {s : State} {k : Img} {r : Raise} (h : maskResult s k = .error r) : r.proper = true := by
  unfold maskResult at h
  split at h
  · rename_i he; cases h; exact normResult_proper he
  · cases h

theorem mergeRgba1_proper {s : State} {f : Format} {r : Raise} (h : mergeRgba1 s f = .error r) : r.proper = true := by
  unfold mergeRgba1 at h
  split at h
  · rename_i he; cases h; exact normaliseImage_proper he
  · exact proper_withImage (fun _ he => adjust_error he ▸ proper_lessData) h

theorem mergeAlpha2_proper {s : State} {f : Format} {r : Raise} (h : mergeAlpha2 s f = .error r) :
    r.proper = true := by
  unfold mergeAlpha2 at h
  split at h
  · rename_i he; cases h; exact normaliseImage_proper he
  · exact proper_withImage (fun _ he => adjust_error he ▸ proper_lessData) h

theorem mergeResult_proper {s : State} {r : Raise} (h : mergeResult s = .error r) : r.proper = true := by
  unfold mergeResult mergeImages at h
  split at h
  · rename_i he; cases h; exact checkImage_proper he
  · split at h
    · rename_i he; cases h; exact checkImage_proper he
    · split at h
      · split at h
        · rename_i he; cases h; exact mergeRgba1_proper he
        · split at h
          · rename_i he; cases h; exact mergeAlpha2_proper he
          · cases h
      · cases h; rfl

end Sys2Proof.Machine
end

