-- ==== Sys2Proof/Laws/Moves.lean ====
section
/-! SUPPORT. What one step can do, said once: `Move s t` lists the shapes of a next state, and `move_of_step` says that
every next state has one of them. An invariant is proved shape by shape. -/

namespace Sys2Proof.Machine

/-- The shapes of a next state. Each move may also change the model's own field `env`. -/
inductive Move (s : State) : State → Prop
  /-- A host read, a dropped host access, or no access. -/
  | env (e : Env) : Move s { s with env := e }
  /-- The reset event. -/
  | reset (e : Env) : Move s (resetEvent { s with env := e })
  /-- A write of CTRL. -/
  | ctrl (e : Env) (ie : Bool) : Move s { s with env := e, ctl := { s.ctl with ie := ie } }
  /-- A write of a descriptor register, STATE not BUSY. -/
  | desc (e : Env) (k : Img) (d : Desc) (hb : s.ctl.runState ≠ .busy) :
      Move s (State.setDesc { s with env := e } k d)
  /-- A write of one byte of an input buffer, STATE not BUSY. -/
  | store (e : Env) (space : Space) (a : Nat) (v : Byte) (hb : s.ctl.runState ≠ .busy) (ho : space ≠ .out)
      (ha : a < s.params.capacity space) :
      Move s (State.setMem { s with env := e } space (Memory.write (s.mem space) a v))
  /-- The start of an operation, STATE not BUSY. -/
  | start (e : Env) (w : Word) (hb : s.ctl.runState ≠ .busy) : Move s (startOp w { s with env := e })
  /-- ACK, STATE not BUSY. -/
  | ack (e : Env) (hb : s.ctl.runState ≠ .busy) : Move s (acknowledge { s with env := e })
  /-- A whole operation at once. -/
  | operation (e : Env) (w : Word) (r : Except Raise (List Byte)) (hb : s.ctl.runState = .busy)
      (hr : ∀ x, r = .error x → x.proper = true) : Move s (settle (startOp w { s with env := e }) r)
  /-- A phase that fails. -/
  | fail (e : Env) (r : Raise) (hb : s.ctl.runState = .busy) (hr : r.proper = true) :
      Move s (raiseError r { s with env := e })
  /-- A phase that changes hidden state only. -/
  | hidden (e : Env) (h : Hidden) (hb : s.ctl.runState = .busy) (hp : s.hidden.phase ≠ .complete)
      (hn : h.phase ≠ .complete) : Move s { s with env := e, hidden := h }
  /-- The phase that writes OUT. -/
  | compose (e : Env) (bytes : List Byte) (hb : s.ctl.runState = .busy) :
      Move s { s with
        env := e, out := cellsFrom 0 bytes
        hidden := { s.hidden with result := bytes, phase := .complete } }
  /-- The completion update. -/
  | complete (e : Env) (hb : s.ctl.runState = .busy) (hp : s.hidden.phase = .complete) :
      Move s (completeOp s.hidden.result.length { s with env := e })

/-- A move from a state that differs in `env` only is a move. -/
theorem Move.of_env {s t : State} {e : Env} (h : Move { s with env := e } t) : Move s t := by
  generalize hs : ({ s with env := e } : State) = s' at h
  cases h with
  | env e' => subst hs; exact .env e'
  | reset e' => subst hs; exact .reset e'
  | ctrl e' ie => subst hs; exact .ctrl e' ie
  | desc e' k d hb => subst hs; exact .desc e' k d hb
  | store e' space a v hb ho ha =>
    subst hs
    rw [mem_env]
    exact .store e' space a v hb ho ha
  | start e' w hb => subst hs; exact .start e' w hb
  | ack e' hb => subst hs; exact .ack e' hb
  | operation e' w r hb hr => subst hs; exact .operation e' w r hb hr
  | fail e' r hb hr => subst hs; exact .fail e' r hb hr
  | hidden e' h' hb hp hn => subst hs; exact .hidden e' h' hb hp hn
  | compose e' bytes hb => subst hs; exact .compose e' bytes hb
  | complete e' hb hp => subst hs; exact .complete e' hb hp

/-! ### The phases -/

theorem nextPhase_complete {cmd : Option Instr} {k : Img} {p : Phase} (h : nextPhase cmd k p = .complete) :
    p = .compose ∨ p = .complete := by
  cases p <;> simp only [nextPhase] at h <;> first
    | exact .inl rfl
    | exact .inr rfl
    | (exfalso; revert h; split <;> simp)
    | (exfalso; revert h; simp)

theorem phaseAfter_ne_complete (s : State) {p : Phase} (h1 : p ≠ .compose) (h2 : p ≠ .complete) :
    phaseAfter s p ≠ .complete :=
  fun h => (nextPhase_complete h).elim h1 h2

theorem move_deliverSamples {s : State} {r : Except Err (List Byte)} (hb : s.ctl.runState = .busy)
    (hp : s.hidden.phase ≠ .complete) (hr : ∀ e, r = .error e → Err.proper e) : Move s (deliverSamples s r) := by
  unfold deliverSamples
  split
  · exact .hidden s.env _ hb hp (phaseAfter_ne_complete s (p := .unpack) (by decide) (by decide))
  · rename_i e he
    exact .fail s.env e hb (proper_withImage hr he)

theorem move_deliverRgba {s : State} {r : Except Err (List Byte)} (hb : s.ctl.runState = .busy)
    (hp : s.hidden.phase ≠ .complete) (hr : ∀ e, r = .error e → Err.proper e) : Move s (deliverRgba s r) := by
  unfold deliverRgba
  split
  · exact .hidden s.env _ hb hp (phaseAfter_ne_complete s (p := .normalise) (by decide) (by decide))
  · rename_i e he
    exact .fail s.env e hb (proper_withImage hr he)

theorem move_endPhase {α : Type} {s : State} {p : Phase} {r : Except Raise α} {keep : α → Hidden}
    (hb : s.ctl.runState = .busy) (hs : s.hidden.phase ≠ .complete) (h1 : p ≠ .compose) (h2 : p ≠ .complete)
    (hr : ∀ x, r = .error x → x.proper = true) : Move s (endPhase p s r keep) := by
  unfold endPhase
  split
  · exact .hidden s.env _ hb hs (phaseAfter_ne_complete s h1 h2)
  · exact .fail s.env _ hb (hr _ rfl)

/-- A depth row, run by a BUSY core. -/
theorem move_depth {s t : State} {d : Depth} (hb : s.ctl.runState = .busy) (hp : s.hidden.phase ≠ .complete)
    (h : exec d.instr s = .next t) : Move s t := by
  have key {mode : Mode} {t : State}
      (h : t = deliverSamples s (unpack (rawBytes s s.hidden.image) d mode)) : Move s t :=
    h ▸ move_deliverSamples hb hp fun e he => unpack_error he ▸ proper_lessData
  cases d <;> cases h <;> exact key (mode := currentMode s) rfl

/-- A model row, run by a BUSY core. -/
theorem move_model {s t : State} {m : Model} {pp : Bool} (hb : s.ctl.runState = .busy)
    (hp : s.hidden.phase ≠ .complete) (h : exec (m.instr pp) s = .next t) : Move s t := by
  cases m with
  | gray =>
    cases h
    exact move_deliverRgba hb hp fun e he => by cases he
  | graya =>
    cases h
    refine move_deliverRgba hb hp fun e he => ?_
    unfold rgbaGraya at he
    split at he <;> cases he
    exact proper_lessData
  | rgb =>
    cases h
    refine move_deliverRgba hb hp fun e he => ?_
    unfold rgbaRgb at he
    split at he <;> cases he
    exact proper_lessData
  | rgba =>
    cases h
    refine move_deliverRgba hb hp fun e he => ?_
    unfold rgbaRgba at he
    split at he <;> cases he
    exact proper_lessData
  | idx =>
    simp only [Model.instr, exec, execIdx] at h
    split at h
    · rename_i e he
      cases h
      exact .fail s.env e hb (proper_withImage (fun _ => indexTable_error) he)
    · rename_i table ht
      cases h
      unfold deliverRgba
      split
      · exact .hidden s.env _ hb hp (phaseAfter_ne_complete _ (p := .normalise) (by decide) (by decide))
      · rename_i e he
        exact .fail s.env e hb (proper_withImage (fun _ h => proper_of_invalidIndex (lookupPixels_error h)) he)

theorem decodeDepth_eq_ok {f : FormatFields} {i : Instr} (h : decodeDepth f = .ok i) : ∃ d, i = Depth.instr d := by
  unfold decodeDepth at h
  split at h <;> cases h
  exact ⟨_, rfl⟩

theorem decodeModel_eq_ok {f : FormatFields} {i : Instr} (h : decodeModel f = .ok i) :
    ∃ m, i = Model.instr f.palPresent m := by
  unfold decodeModel at h
  split at h <;> cases h
  exact ⟨_, rfl⟩

/-- The words of R226: what `decodeOperation` answers is an operation. -/
theorem isOperation_of_decode {w : Word} {i : Instr} (h : decodeOperation w = some i) : i.isOperation = true := by
  unfold decodeOperation at h
  split at h
  · split at h <;> cases h
    assumption
  · cases h

/-- One phase of a running operation is a move. -/
theorem move_of_phaseMove {s t : State} (hb : s.ctl.runState = .busy) (h : phaseMove s = .next t) : Move s t := by
  unfold phaseMove at h
  split at h <;> rename_i hp
  · cases h
    unfold phaseDecode
    split
    · exact .fail s.env _ hb proper_illegalCommand
    · exact .hidden s.env _ hb (by simp [hp]) (phaseAfter_ne_complete s (p := .decode) (by decide) (by decide))
  · cases h
    refine move_endPhase hb (by simp [hp]) (by decide) (by decide) fun x hx => ?_
    unfold checkConfig at hx
    split at hx
    · rename_i he; cases hx; exact checkImage_proper he
    · split at hx
      · split at hx
        · rename_i he; cases hx; exact checkImage_proper he
        · cases hx
      · cases hx
  · cases h
    refine move_endPhase hb (by simp [hp]) (by decide) (by decide) fun x hx => ?_
    split at hx
    · cases hx
    · cases hx; rfl
  · unfold phaseUnpack at h
    split at h
    · rename_i i hi
      obtain ⟨d, rfl⟩ := decodeDepth_eq_ok hi
      exact move_depth hb (by simp [hp]) h
    · cases h
      exact .fail s.env _ hb (proper_illegalConfig _)
  · unfold phaseNormalise at h
    split at h
    · rename_i i hi
      obtain ⟨m, rfl⟩ := decodeModel_eq_ok hi
      exact move_model hb (by simp [hp]) h
    · cases h
      exact .fail s.env _ hb (proper_illegalConfig _)
  · cases h
    exact move_endPhase hb (by simp [hp]) (by decide) (by decide) fun x hx =>
      proper_withImage (fun _ he => adjust_error he ▸ proper_lessData) hx
  · cases h
    exact move_endPhase hb (by simp [hp]) (by decide) (by decide) fun x hx => by cases hx
  · cases h
    exact move_endPhase hb (by simp [hp]) (by decide) (by decide) fun x hx =>
      proper_withImage (fun _ he => adjust_error he ▸ proper_lessData) hx
  · cases h
    exact .compose s.env _ hb
  · cases h
    exact .complete s.env hb hp

/-- The whole operation at once is a move. -/
theorem move_of_wholeMove {s t : State} (hb : s.ctl.runState = .busy) (h : wholeMove s = .next t) : Move s t := by
  unfold wholeMove at h
  split at h
  · rename_i i hi
    have ho := isOperation_of_decode hi
    cases i <;> simp only [Instr.isOperation, Bool.false_eq_true] at ho <;> cases h
    · exact .operation s.env _ _ hb fun _ => mergeResult_proper
    · exact .operation s.env _ _ hb fun _ => unpackResult_proper
    · exact .operation s.env _ _ hb fun _ => normResult_proper
    · exact .operation s.env _ _ hb fun _ => maskResult_proper
  · cases h
    exact .fail s.env _ hb proper_illegalCommand

theorem move_of_runMove {s t : State} (hb : s.ctl.runState = .busy) (h : runMove s = .next t) : Move s t := by
  unfold runMove at h
  split at h
  · exact move_of_wholeMove hb h
  · exact move_of_phaseMove hb h

/-! ### The host's accesses -/

/-- A write of CMD is dropped, or runs NOP or ACK, or starts an operation (R220). -/
theorem commandWrite_cases (w : Word) (s : State) :
    commandWrite w s = .next s ∨
    (s.ctl.runState ≠ .busy ∧ commandWrite w s = .next (acknowledge s)) ∨
    (s.ctl.runState ≠ .busy ∧ commandWrite w s = .next (startOp w s)) := by
  unfold commandWrite
  split
  · exact .inl rfl
  · split
    · exact .inl rfl
    · split
      · exact .inr (.inl ⟨‹_›, rfl⟩)
      · exact .inr (.inr ⟨‹_›, rfl⟩)

theorem move_of_writeReg (s : State) (r : Reg) (v : Word) : Move s (writeReg s r v) := by
  rcases writeReg_cases s r v with h | h | ⟨hb, k, d, h⟩ <;> rw [h]
  · exact .env s.env
  · exact .ctrl s.env _
  · exact .desc s.env k d hb

/-- One access of the host is a move. -/
theorem move_of_hostMove {a : Access} {s t : State} (h : hostMove a s = .next t) : Move s t := by
  unfold hostMove at h
  split at h
  · split at h
    · cases h; exact .reset s.env
    · rename_i offset v _
      unfold writeOffset at h
      split at h
      · cases h; exact .env s.env
      · rcases commandWrite_cases v s with hc | ⟨hb, hc⟩ | ⟨hb, hc⟩ <;> rw [hc] at h <;> cases h
        · exact .env s.env
        · exact .ack s.env hb
        · exact .start s.env v hb
      · cases h; exact move_of_writeReg s _ v
    · cases h; exact .env _
    · rename_i space x v _
      cases h
      rcases hostStore_cases s space x v with ⟨_, hs⟩ | ⟨hb, ho, ha, hs⟩ <;> rw [hs]
      · exact .env s.env
      · exact .store s.env space x v hb ho ha
    · cases h
      rw [hostLoad_frame]
      exact .env _
    · cases h
      unfold waitMove
      split <;> exact .env _
  · cases h

theorem move_of_serveHost {s t : State} (h : serveHost s = .next t) : Move s t := by
  unfold serveHost at h
  split at h
  · cases h; exact .env s.env
  · exact (move_of_hostMove h).of_env

/-- SAYS ONCE WHAT A STEP CAN DO: every next state has one of the shapes of `Move`. -/
theorem move_of_step {s t : State} (h : step s = .next t) : Move s t := by
  unfold step at h
  split at h
  · rename_i hb
    split at h
    · exact move_of_runMove hb h
    · exact (move_of_serveHost h).of_env
    · rename_i turns _
      exact (move_of_phaseMove (s := s.withTurns turns) hb h).of_env
    · rename_i turns _
      exact (move_of_runMove (s := s.withTurns turns) hb h).of_env
  · exact move_of_serveHost h

end Sys2Proof.Machine
end

