-- ==== Sys2Proof/Laws/PerInstr.lean ====
section
/-! SUPPORT. Families of statements about the syntax, one lemma per constructor of `Instr`. -/

namespace Sys2Proof.Laws

/-- Whether the word of an instruction has legal fields: a legal command word (R98), or a legal DEPTH or MODEL field
(R99). -/
def encodedFieldsLegal (i : Instr) : Bool :=
  match i.kind with
  | .command => (commandFields (encode i)).wf
  | .depth => (formatFields (encode i)).depthLegal
  | .model => (formatFields (encode i)).modelLegal

/-- The word of an instruction has legal fields. -/
def EncodedFieldsLegal.Statement (i : Instr) : Prop := encodedFieldsLegal i = true

theorem EncodedFieldsLegal.nop : EncodedFieldsLegal.Statement .nop := rfl
theorem EncodedFieldsLegal.merge : EncodedFieldsLegal.Statement .merge := rfl
theorem EncodedFieldsLegal.unpack (k : Img) : EncodedFieldsLegal.Statement (.unpack k) := by cases k <;> rfl
theorem EncodedFieldsLegal.norm (k : Img) : EncodedFieldsLegal.Statement (.norm k) := by cases k <;> rfl
theorem EncodedFieldsLegal.mask (k : Img) : EncodedFieldsLegal.Statement (.mask k) := by cases k <;> rfl
theorem EncodedFieldsLegal.ack : EncodedFieldsLegal.Statement .ack := rfl
theorem EncodedFieldsLegal.d1 : EncodedFieldsLegal.Statement .d1 := rfl
theorem EncodedFieldsLegal.d2 : EncodedFieldsLegal.Statement .d2 := rfl
theorem EncodedFieldsLegal.d4 : EncodedFieldsLegal.Statement .d4 := rfl
theorem EncodedFieldsLegal.d8 : EncodedFieldsLegal.Statement .d8 := rfl
theorem EncodedFieldsLegal.d16 : EncodedFieldsLegal.Statement .d16 := rfl
theorem EncodedFieldsLegal.gray : EncodedFieldsLegal.Statement .gray := rfl
theorem EncodedFieldsLegal.graya : EncodedFieldsLegal.Statement .graya := rfl
theorem EncodedFieldsLegal.rgb : EncodedFieldsLegal.Statement .rgb := rfl
theorem EncodedFieldsLegal.rgba : EncodedFieldsLegal.Statement .rgba := rfl
theorem EncodedFieldsLegal.idx (palPresent : Bool) : EncodedFieldsLegal.Statement (.idx palPresent) := by
  cases palPresent <;> rfl

end Sys2Proof.Laws
end

