-- ==== Sys2Proof/Laws/Samples.lean ====
section
/-! SUPPORT. The small lemmas of the pure functions of the data path: lengths, and one element of each result. -/

namespace Sys2Proof.Machine

/-! ### bit_unpacker -/

@[simp] theorem byteSamples_length (mode : Mode) (n : Nat) (b : Byte) : (byteSamples mode n b).length = 8 / n := by
  simp [byteSamples]

theorem getElem?_byteSamples (mode : Mode) {n j : Nat} (b : Byte) (h : j < 8 / n) :
    (byteSamples mode n b)[j]? = some (sampleOf mode n (groupValue n b j)) := by
  simp [byteSamples, h]

@[simp] theorem groupSamples_length (mode : Mode) (n : Nat) (bytes : List Byte) :
    (groupSamples mode n bytes).length = 8 / n * bytes.length := by
  induction bytes with
  | nil => simp [groupSamples]
  | cons b bytes ih =>
    simp only [groupSamples, List.flatMap_cons, List.length_append, byteSamples_length, List.length_cons] at ih ⊢
    rw [ih, Nat.mul_succ, Nat.add_comm]

/-- Sample `8/n · a + j` of the double loop of R131 is group `j` of byte `a`. -/
theorem getElem?_groupSamples (mode : Mode) {n a j : Nat} {bytes : List Byte} {b : Byte} (hb : bytes[a]? = some b)
    (hj : j < 8 / n) :
    (groupSamples mode n bytes)[8 / n * a + j]? = some (sampleOf mode n (groupValue n b j)) := by
  induction bytes generalizing a with
  | nil => simp at hb
  | cons c bytes ih =>
    simp only [groupSamples, List.flatMap_cons] at ih ⊢
    cases a with
    | zero =>
      simp only [List.getElem?_cons_zero, Option.some.injEq] at hb
      subst hb
      rw [List.getElem?_append_left (by simp; omega)]
      simpa using getElem?_byteSamples mode c hj
    | succ a =>
      rw [List.getElem?_append_right (by simp [Nat.mul_succ]; omega)]
      have : 8 / n * (a + 1) + j - (byteSamples mode n c).length = 8 / n * a + j := by
        rw [byteSamples_length, Nat.mul_succ]
        omega
      rw [this]
      exact ih (by simpa using hb)

theorem highBytes_spec (bytes : List Byte) :
    (highBytes bytes).length = bytes.length / 2 ∧
    ∀ p < bytes.length / 2, (highBytes bytes)[p]? = bytes[2 * p]? := by
  induction bytes using highBytes.induct with
  | case1 => simp [highBytes]
  | case2 b => simp [highBytes]
  | case3 h l rest ih =>
    refine ⟨by simp [highBytes, ih.1]; omega, fun p hp => ?_⟩
    cases p with
    | zero => simp [highBytes]
    | succ p =>
      simp only [highBytes, List.getElem?_cons_succ, Nat.mul_succ]
      exact ih.2 p (by simp at hp; omega)

@[simp] theorem highBytes_length (bytes : List Byte) : (highBytes bytes).length = bytes.length / 2 :=
  (highBytes_spec bytes).1

/-! ### Pixels of an RGBA buffer -/

@[simp] theorem pixel_length (r g b a : Byte) : (pixel r g b a).length = 4 := rfl

@[simp] theorem pixelAt_zero_pixel (r g b a : Byte) (rest : List Byte) :
    pixelAt (pixel r g b a ++ rest) 0 = [r, g, b, a] := rfl

@[simp] theorem pixelAt_succ_pixel (r g b a : Byte) (rest : List Byte) (p : Nat) :
    pixelAt (pixel r g b a ++ rest) (p + 1) = pixelAt rest p := by
  simp [pixelAt, pixel, Nat.mul_succ]

@[simp] theorem pixelAt_zero_cons (r g b a : Byte) (rest : List Byte) :
    pixelAt (r :: g :: b :: a :: rest) 0 = [r, g, b, a] := rfl

@[simp] theorem pixelAt_succ_cons (r g b a : Byte) (rest : List Byte) (p : Nat) :
    pixelAt (r :: g :: b :: a :: rest) (p + 1) = pixelAt rest p := by
  simp [pixelAt, Nat.mul_succ]

/-- A whole pixel stands at every position that lies inside the buffer. -/
theorem exists_pixelAt {x : List Byte} {p : Nat} (h : 4 * p + 4 ≤ x.length) :
    ∃ r g b a, pixelAt x p = [r, g, b, a] := by
  have hl : (pixelAt x p).length = 4 := by simp [pixelAt]; omega
  match hx : pixelAt x p, hl with
  | [r, g, b, a], _ => exact ⟨r, g, b, a, rfl⟩

theorem grayaPixels_spec (samples : List Byte) (he : samples.length % 2 = 0) :
    (grayaPixels samples).length = 2 * samples.length ∧
    ∀ p g a, samples[2 * p]? = some g → samples[2 * p + 1]? = some a →
      pixelAt (grayaPixels samples) p = [g, g, g, a] := by
  induction samples using grayaPixels.induct with
  | case1 g a rest ih =>
    have ih := ih (by simp at he; omega)
    refine ⟨by simp [grayaPixels, ih.1]; omega, fun p x y hx hy => ?_⟩
    cases p with
    | zero =>
      cases hx
      cases hy
      rfl
    | succ p =>
      rw [grayaPixels, pixelAt_succ_pixel]
      exact ih.2 p x y hx hy
  | case2 samples h =>
    match samples, h, he with
    | [], _, _ => simp [grayaPixels]
    | g :: a :: rest, h, _ => exact absurd rfl (h g a rest)

theorem rgbPixels_spec (samples : List Byte) (he : samples.length % 3 = 0) :
    3 * (rgbPixels samples).length = 4 * samples.length ∧
    ∀ p r g b, samples[3 * p]? = some r → samples[3 * p + 1]? = some g → samples[3 * p + 2]? = some b →
      pixelAt (rgbPixels samples) p = [r, g, b, 255#8] := by
  induction samples using rgbPixels.induct with
  | case1 r g b rest ih =>
    have ih := ih (by simp at he; omega)
    refine ⟨by simp [rgbPixels]; omega, fun p x y z hx hy hz => ?_⟩
    cases p with
    | zero =>
      cases hx
      cases hy
      cases hz
      rfl
    | succ p =>
      rw [rgbPixels, pixelAt_succ_pixel]
      exact ih.2 p x y z hx hy hz
  | case2 samples h =>
    match samples, h, he with
    | [], _, _ => simp [rgbPixels]
    | r :: g :: b :: rest, h, _ => exact absurd rfl (h r g b rest)

/-! ### palette_lut -/

theorem rgbGroups_spec (palette : List Byte) (he : palette.length % 3 = 0) :
    (rgbGroups palette).length = palette.length / 3 ∧
    ∀ i < palette.length / 3, ∃ r g b, (rgbGroups palette)[i]? = some { r := r, g := g, b := b } ∧
      palette[3 * i]? = some r ∧ palette[3 * i + 1]? = some g ∧ palette[3 * i + 2]? = some b := by
  induction palette using rgbGroups.induct with
  | case1 r g b rest ih =>
    have ih := ih (by simp at he; omega)
    refine ⟨by simp [rgbGroups, ih.1]; omega, fun i hi => ?_⟩
    cases i with
    | zero => exact ⟨r, g, b, rfl, rfl, rfl, rfl⟩
    | succ i => exact ih.2 i (by simp at hi; omega)
  | case2 palette h =>
    match palette, h, he with
    | [], _, _ => simp [rgbGroups]
    | r :: g :: b :: rest, h, _ => exact absurd rfl (h r g b rest)

theorem resolve_ok {palette : List Byte} (he : palette.length % 3 = 0) : resolve palette = .ok (rgbGroups palette) := by
  simp [resolve, he]

/-! ### The lookup loop of R171 -/

/-- Every index is found: one pixel per index. -/
theorem lookupPixels_ok {table : List Rgb} {samples : List Byte} (h : ∀ i ∈ samples, i.toNat < table.length)
    (p : Nat) :
    ∃ out, lookupPixels table p samples = .ok out ∧ out.length = 4 * samples.length ∧
      ∀ q i c, samples[q]? = some i → table[i.toNat]? = some c → pixelAt out q = [c.r, c.g, c.b, 255#8] := by
  induction samples generalizing p with
  | nil => exact ⟨[], rfl, rfl, by simp⟩
  | cons i rest ih =>
    obtain ⟨out, ho, hl, hp⟩ := ih (fun j hj => h j (List.mem_cons_of_mem _ hj)) (p + 1)
    obtain ⟨d, hi⟩ : ∃ d, table[i.toNat]? = some d := ⟨_, List.getElem?_eq_getElem (h i List.mem_cons_self)⟩
    refine ⟨pixel d.r d.g d.b 255#8 ++ out, by simp only [lookupPixels, lookup, hi, ho], by simp [hl]; omega,
      fun q j c hj hc => ?_⟩
    cases q with
    | zero =>
      cases hj
      rw [hi] at hc
      cases hc
      rfl
    | succ q =>
      rw [pixelAt_succ_pixel]
      exact hp q j c (by simpa using hj) hc

/-- The first index that is not found ends the loop at its pixel. -/
theorem lookupPixels_fails {table : List Rgb} {samples : List Byte} {q : Nat} {i : Byte} (hi : samples[q]? = some i)
    (hn : table.length ≤ i.toNat) (hf : ∀ r j, r < q → samples[r]? = some j → j.toNat < table.length) (p : Nat) :
    lookupPixels table p samples = .error { code := .invalidIndexForPalette, pos := p + q } := by
  induction samples generalizing p q with
  | nil => simp at hi
  | cons c rest ih =>
    cases q with
    | zero =>
      cases hi
      have : table[i.toNat]? = none := List.getElem?_eq_none hn
      simp [lookupPixels, lookup, this]
    | succ q =>
      have hc : table[c.toNat]? = some (table[c.toNat]'(hf 0 c (by omega) rfl)) := List.getElem?_eq_getElem _
      have := ih (q := q) (by simpa using hi) (fun r j hr hj => hf (r + 1) j (by omega) (by simpa using hj)) (p + 1)
      simp only [lookupPixels, lookup, hc, this]
      congr 2
      omega

/-! ### luminance_calculator and image_merger -/

theorem luma_toNat (r g b : Byte) : (r.toNat + g.toNat + b.toNat) / 3 < 2 ^ 8 := by
  have := r.isLt
  have := g.isLt
  have := b.isLt
  omega

theorem maskOf_spec (x : List Byte) :
    (maskOf x).length = x.length / 4 ∧
    ∀ p r g b a, pixelAt x p = [r, g, b, a] → (maskOf x)[p]? = some (luma r g b) := by
  induction x using maskOf.induct with
  | case1 r g b a rest ih =>
    refine ⟨by simp [maskOf, ih.1]; omega, fun p r' g' b' a' h => ?_⟩
    cases p with
    | zero =>
      cases h
      rfl
    | succ p =>
      rw [pixelAt_succ_cons] at h
      simpa [maskOf] using ih.2 p r' g' b' a' h
  | case2 x h =>
    have hl : x.length < 4 := by
      match x, h with
      | [], _ => simp
      | [_], _ => simp
      | [_, _], _ => simp
      | [_, _, _], _ => simp
      | r :: g :: b :: a :: rest, h => exact absurd rfl (h r g b a rest)
    refine ⟨by simp [maskOf, Nat.div_eq_of_lt hl], fun p r g b a hp => ?_⟩
    have := congrArg List.length hp
    simp [pixelAt] at this
    omega

@[simp] theorem maskOf_length (x : List Byte) : (maskOf x).length = x.length / 4 := (maskOf_spec x).1

theorem composePixels_spec {x alphas : List Byte} (h : x.length = 4 * alphas.length) :
    (composePixels x alphas).length = x.length ∧
    ∀ p r g b a c, pixelAt x p = [r, g, b, a] → alphas[p]? = some c →
      pixelAt (composePixels x alphas) p = [r, g, b, c] := by
  induction x, alphas using composePixels.induct with
  | case1 r g b a rest c alphas ih =>
    have ih := ih (by simp at h; omega)
    refine ⟨by simp [composePixels, ih.1]; omega, fun p r' g' b' a' c' hp hc => ?_⟩
    cases p with
    | zero =>
      cases hp
      cases hc
      rfl
    | succ p =>
      rw [pixelAt_succ_cons] at hp
      rw [composePixels, pixelAt_succ_pixel]
      exact ih.2 p r' g' b' a' c' hp (by simpa using hc)
  | case2 x alphas hx =>
    match x, alphas, hx, h with
    | x, [], _, h =>
      have : x = [] := List.length_eq_zero_iff.1 (by simpa using h)
      subst this
      simp [composePixels]
    | r :: g :: b :: a :: rest, c :: alphas, hx, _ => exact absurd rfl (hx r g b a rest c alphas rfl)
    | [_, _, _], _ :: _, _, h => simp at h; omega
    | [_, _], _ :: _, _, h => simp at h; omega
    | [_], _ :: _, _, h => simp at h; omega
    | [], _ :: _, _, h => simp at h

theorem adjust_ok {bytes : List Byte} {n : Nat} (h : n ≤ bytes.length) : adjust bytes n = .ok (bytes.take n) := by
  simp [adjust, Nat.not_lt.2 h]

theorem adjust_short {bytes : List Byte} {n : Nat} (h : bytes.length < n) : adjust bytes n = .error lessData := by
  simp [adjust, h, lessData]

theorem pixelAt_take {x : List Byte} {n p : Nat} (h : p < n) : pixelAt (x.take (n * 4)) p = pixelAt x p := by
  simp only [pixelAt, List.drop_take, List.take_take]
  congr 1
  omega

end Sys2Proof.Machine
end

