-- ==== Sys2Proof/Tests/Slice0.lean ====
section
/-! SUPPORT. Tests: the encodings written out from the spec, an ill-formed term for every check, at most two vectors of
95_test_vectors.md or of the rules per instruction, and a witness for every statement that has hypotheses. -/

namespace Sys2Proof.Machine.Tests

/-! ### Small states -/

/-- A descriptor. -/
def image (w h : Nat) (f : Format) (raw pal : Nat) : Desc :=
  { width := BitVec.ofNat 32 w, height := BitVec.ofNat 32 h
    fmt := { depth := f.depth.code, model := f.model.code, palPresent := f.palPresent }
    rawLen := BitVec.ofNat 32 raw, palLen := BitVec.ofNat 32 pal }

/-- Two images with the same dimensions; image 2 has no palette. -/
def images (w h : Nat) (f1 : Format) (raw1 pal1 : List Byte) (f2 : Format) (raw2 : List Byte) : State :=
  { State.reset with
    img1 := image w h f1 raw1.length pal1.length, raw1 := cellsFrom 0 raw1, pal1 := cellsFrom 0 pal1
    img2 := image w h f2 raw2.length 0, raw2 := cellsFrom 0 raw2 }

def gray8 : Format := { depth := .d8, model := .gray, palPresent := false }
def rgb8 : Format := { depth := .d8, model := .rgb, palPresent := false }
def rgba8 : Format := { depth := .d8, model := .rgba, palPresent := false }
def idx1 : Format := { depth := .d1, model := .idx, palPresent := true }

/-- Image 1 alone. -/
def one (f : Format) (raw pal : List Byte) : State := images 1 1 f raw pal gray8 [0]

/-- What an operation reports: STATUS, OUT_LEN, ERR_POS and the bytes of OUT. -/
def report : Host.Outcome State Fault Refusal → Option (Word × Word × Word × List Byte)
  | .next t => some (statusWord t, t.ctl.outLen, t.ctl.errPos, t.out.map Prod.snd)
  | .fault _ => none
  | .refused _ => none

/-- The next state, where there is one. -/
def after (o : Host.Outcome State Fault Refusal) (s : State) : State :=
  match o with
  | .next t => t
  | .fault _ => s
  | .refused _ => s

/-- A running operation on image 1 that stands before phase 3. -/
def unpacking (d : Depth) (m : Model) (raw : List Byte) : State :=
  enterPhase .unpack (startOp (encode (.norm .img1)) (one { depth := d, model := m, palPresent := false } raw []))

/-- A running operation on image 1 that stands before phase 4. -/
def normalising (m : Model) (samples pal : List Byte) : State :=
  let s := enterPhase .normalise
    (startOp (encode (.norm .img1)) (one { depth := .d8, model := m, palPresent := true } samples pal))
  { s with hidden := { s.hidden with samples := samples } }

def samplesOf (o : Host.Outcome State Fault Refusal) : List Byte := (after o State.reset).hidden.samples
def rgbaOf (o : Host.Outcome State Fault Refusal) : List Byte := (after o State.reset).hidden.rgba

/-- The palette of the spec's examples: red, blue. -/
def redBlue : List Byte := [255#8, 0#8, 0#8, 0#8, 0#8, 255#8]

/-- The host's next accesses. -/
def State.withScript (s : State) (script : List Access) : State := { s with env := { s.env with script := script } }

/-! ### Words written out from the encodings (R91, R92, R94 to R97) -/

theorem test_decode_nop : decodeCommand 0b000000000000000000000000000_0_0000#32 = .ok .nop := by decide
theorem test_decode_merge : decodeCommand 0b000000000000000000000000000_0_0001#32 = .ok .merge := by decide
theorem test_decode_unpack : decodeCommand 0b000000000000000000000000000_0_0010#32 = .ok (.unpack .img1) := by decide
theorem test_decode_norm : decodeCommand 0b000000000000000000000000000_1_0011#32 = .ok (.norm .img2) := by decide
theorem test_decode_mask : decodeCommand 0b000000000000000000000000000_1_0100#32 = .ok (.mask .img2) := by decide
theorem test_decode_ack : decodeCommand 0b000000000000000000000000000_0_1111#32 = .ok .ack := by decide

theorem test_decode_d1 : decodeDepth (formatFields 0b000_00001#32) = .ok .d1 := by decide
theorem test_decode_d2 : decodeDepth (formatFields 0b000_00010#32) = .ok .d2 := by decide
theorem test_decode_d4 : decodeDepth (formatFields 0b000_00100#32) = .ok .d4 := by decide
theorem test_decode_d8 : decodeDepth (formatFields 0b000_01000#32) = .ok .d8 := by decide
theorem test_decode_d16 : decodeDepth (formatFields 0b000_10000#32) = .ok .d16 := by decide
theorem test_decode_gray : decodeModel (formatFields 0b00000_000_000_01000#32) = .ok .gray := by decide
theorem test_decode_graya : decodeModel (formatFields 0b00000_001_000_01000#32) = .ok .graya := by decide
theorem test_decode_rgb : decodeModel (formatFields 0b00000_010_000_01000#32) = .ok .rgb := by decide
theorem test_decode_rgba : decodeModel (formatFields 0b00000_011_000_01000#32) = .ok .rgba := by decide
theorem test_decode_idx : decodeModel (formatFields 0b1_00000_100_000_00001#32) = .ok (.idx true) := by decide
theorem test_decode_idx_without_palette :
    decodeModel (formatFields 0b0_00000_100_000_00001#32) = .ok (.idx false) := by decide

/-- The table numbers: the same bits under the table's three formats. -/
theorem test_table_words :
    decodeTableWord 32 0x12 = some (.unpack .img2) ∧ decodeTableWord 8 0x10 = some .d16 ∧
    decodeTableWord 16 0x400 = some (.idx false) ∧ decodeTableWord 32 0x15 = none := by decide

/-! ### Ill-formed terms: one for each check -/

theorem test_wf_reserved_op : (commandFields 0x00000005#32).opLegal = false ∧ (commandFields 0x0000000E#32).wf = false ∧
    decodeCommand 0x0000000E#32 = .error .reservedOp := by decide
theorem test_wf_zero_bits : (commandFields 0x00000021#32).wf = false ∧ (commandFields 0x80000001#32).wf = false ∧
    decodeCommand 0x80000001#32 = .error .zeroBitsSet := by decide
theorem test_wf_sel : (commandFields 0x00000011#32).selLegal = false ∧ (commandFields 0x0000001F#32).wf = false ∧
    decodeCommand 0x0000001F#32 = .error .selNotAllowed := by decide
theorem test_wf_depth : (formatFields 0x00000003#32).depthLegal = false ∧ (formatFields 0x00000018#32).wf = false ∧
    decodeFormat (formatFields 0x00000000#32) = .error .reservedDepth := by decide
theorem test_wf_model : (formatFields 0x00000508#32).modelLegal = false ∧ (formatFields 0x00000708#32).wf = false ∧
    decodeFormat (formatFields 0x00000608#32) = .error .reservedModel := by decide
theorem test_wf_aw : Params.wf { aw := 27, palCap := 768 } = false := by decide
theorem test_wf_pal_cap : Params.wf { aw := 24, palCap := 4294967296 } = false := by decide
theorem test_wf_default_params : Params.wf Config.defaultParams = true := by decide
theorem test_wf_write : Access.wf (.wr 0x02 1#32) = false := by decide
theorem test_wf_read : Access.wf (.rd 0x07) = false := by decide
theorem test_wf_memory : Memory.wf [(3, 1#8), (3, 2#8)] = false ∧ Memory.wf [(3, 1#8), (2, 1#8)] = false := by decide
theorem test_wf_reset_memory (space : Space) : Memory.wf (State.reset.mem space) = true := by cases space <;> rfl

/-! ### The instructions -/

/-- V-C: NOP in ERROR leaves the error standing. -/
theorem test_nop : report (exec .nop (after (exec .merge State.reset) State.reset)) =
    some (0x173#32, 0#32, 0#32, []) := by decide

/-- V-C: ACK after an error. -/
theorem test_ack : report (exec .ack (after (exec .merge State.reset) State.reset)) =
    some (0#32, 0#32, 0#32, []) := by decide

/-- The example of R208: 2×1 Rgb with a black mask. -/
theorem test_merge : report (exec .merge
    (images 2 1 rgb8 [255#8, 255#8, 255#8, 255#8, 255#8, 255#8] [] gray8 [0#8, 0#8])) =
    some (2#32, 8#32, 0#32, [255#8, 255#8, 255#8, 0#8, 255#8, 255#8, 255#8, 0#8]) := by decide

/-- V-M: an over-long image 1 is cut, a short image 2 is LessDataSize of image 2. -/
theorem test_merge_short : report (exec .merge
    (images 2 1 rgb8 [1#8, 2#8, 3#8, 4#8, 5#8, 6#8, 7#8, 8#8, 9#8] [] gray8 [0#8])) =
    some (0x223#32, 0#32, 0#32, []) := by decide

/-- V-U: depth 2, `E4`, scaled. -/
theorem test_unpack : report (exec (.unpack .img1) (one { gray8 with depth := .d2 } [0xE4#8] [])) =
    some (2#32, 4#32, 0#32, [255#8, 128#8, 127#8, 0#8]) := by decide

/-- V-U: three bytes at depth 16. -/
theorem test_unpack_odd : report (exec (.unpack .img1) (one { gray8 with depth := .d16 } [1#8, 2#8, 3#8] [])) =
    some (0x123#32, 0#32, 0#32, []) := by decide

/-- V-N: Indexed, depth 1, `A0` (its first four pixels are blue, red, blue, red). -/
theorem test_norm : (report (exec (.norm .img1) (one idx1 [0xA0#8] redBlue))).map (fun r => (r.1, r.2.1, r.2.2.2.take 8)) =
    some (2#32, 32#32, [0#8, 0#8, 255#8, 255#8, 255#8, 0#8, 0#8, 255#8]) := by decide

/-- V-N: Indexed, depth 2, `1B`: the index of pixel 2 is 2, and the palette has 2 entries. -/
theorem test_norm_bad_index : report (exec (.norm .img1) (one { idx1 with depth := .d2 } [0x1B#8] redBlue)) =
    some (0x153#32, 0#32, 2#32, []) := by decide

/-- V-L: the luminance of (10, 20, 30) and (200, 100, 50), alpha ignored. -/
theorem test_mask : report (exec (.mask .img1) (one rgba8 [10#8, 20#8, 30#8, 40#8, 200#8, 100#8, 50#8, 0#8] [])) =
    some (2#32, 2#32, 0#32, [20#8, 116#8]) := by decide

/-- R190: (255 + 255 + 254) // 3 does not wrap. -/
theorem test_mask_no_wrap : report (exec (.mask .img1) (one rgb8 [255#8, 255#8, 254#8] [])) =
    some (2#32, 1#32, 0#32, [254#8]) := by decide

/-- V-U: `A5` at depth 1, both modes. -/
theorem test_d1 :
    samplesOf (exec .d1 (unpacking .d1 .gray [0xA5#8])) = [255#8, 0#8, 255#8, 0#8, 0#8, 255#8, 0#8, 255#8] ∧
    samplesOf (exec .d1 (unpacking .d1 .idx [0xA5#8])) = [1#8, 0#8, 1#8, 0#8, 0#8, 1#8, 0#8, 1#8] := by decide

/-- V-U: `1B` at depth 2, both modes. -/
theorem test_d2 :
    samplesOf (exec .d2 (unpacking .d2 .rgb [0x1B#8])) = [0#8, 127#8, 128#8, 255#8] ∧
    samplesOf (exec .d2 (unpacking .d2 .idx [0x1B#8])) = [0#8, 1#8, 2#8, 3#8] := by decide

/-- V-U: `5E F1` at depth 4, both modes. -/
theorem test_d4 :
    samplesOf (exec .d4 (unpacking .d4 .gray [0x5E#8, 0xF1#8])) = [95#8, 224#8, 255#8, 31#8] ∧
    samplesOf (exec .d4 (unpacking .d4 .idx [0x5E#8, 0xF1#8])) = [5#8, 14#8, 15#8, 1#8] := by decide

/-- V-U: depth 8 is a passthrough. -/
theorem test_d8 : samplesOf (exec .d8 (unpacking .d8 .gray [0#8, 127#8, 128#8, 255#8])) =
    [0#8, 127#8, 128#8, 255#8] := by decide

/-- V-U: depth 16 keeps the first byte of every pair. -/
theorem test_d16 : samplesOf (exec .d16 (unpacking .d16 .gray [0x12#8, 0x34#8, 0xFF#8, 0x00#8])) =
    [0x12#8, 0xFF#8] := by decide
theorem test_d16_odd : report (exec .d16 (unpacking .d16 .idx [7#8])) = some (0x123#32, 0#32, 0#32, []) := by decide

theorem test_gray : rgbaOf (exec .gray (normalising .gray [7#8] [])) = [7#8, 7#8, 7#8, 255#8] := by decide
/-- V-N: `0A 14 1E 28` as GrayscaleAlpha. -/
theorem test_graya : rgbaOf (exec .graya (normalising .graya [10#8, 20#8, 30#8, 40#8] [])) =
    [10#8, 10#8, 10#8, 20#8, 30#8, 30#8, 30#8, 40#8] := by decide
theorem test_graya_odd : report (exec .graya (normalising .graya [10#8, 20#8, 30#8] [])) =
    some (0x123#32, 0#32, 0#32, []) := by decide
/-- V-N: `01 02 03 04 05 06` as Rgb. -/
theorem test_rgb : rgbaOf (exec .rgb (normalising .rgb [1#8, 2#8, 3#8, 4#8, 5#8, 6#8] [])) =
    [1#8, 2#8, 3#8, 255#8, 4#8, 5#8, 6#8, 255#8] := by decide
theorem test_rgb_short : report (exec .rgb (normalising .rgb [1#8, 2#8] [])) = some (0x123#32, 0#32, 0#32, []) := by
  decide
theorem test_rgba : rgbaOf (exec .rgba (normalising .rgba [9#8, 8#8, 7#8, 6#8] [])) = [9#8, 8#8, 7#8, 6#8] := by decide
theorem test_rgba_long : report (exec .rgba (normalising .rgba [9#8, 8#8, 7#8, 6#8, 5#8] [])) =
    some (0x123#32, 0#32, 0#32, []) := by decide
/-- V-N: indices 1 and 0 of the palette red, blue. -/
theorem test_idx : rgbaOf (exec (.idx true) (normalising .idx [1#8, 0#8] redBlue)) =
    [0#8, 0#8, 255#8, 255#8, 255#8, 0#8, 0#8, 255#8] := by decide
/-- V-N: no palette; the descriptor's PAL_LEN is not looked at. -/
theorem test_idx_without_palette : report (exec (.idx false) (normalising .idx [0#8] redBlue)) =
    some (0x133#32, 0#32, 0#32, []) := by decide

/-! ### One step of the machine -/

/-- The table's words run as the first instruction after reset. -/
theorem test_step_runs_fetch_word :
    step (State.reset.withFetchWord 32 0x13) =
      exec (.norm .img2) ((State.reset.withFetchWord 32 0x13).withTurns []) := rfl
theorem test_step_runs_fetch_depth :
    step (State.reset.withFetchWord 8 0x04) = exec .d4 ((State.reset.withFetchWord 8 0x04).withTurns []) := rfl
theorem test_step_runs_fetch_model :
    step (State.reset.withFetchWord 16 0x400) =
      exec (.idx false) ((State.reset.withFetchWord 16 0x400).withTurns []) := rfl

/-- R102: WAIT on a BUSY core reads STATUS = 1 and stays the next access. -/
theorem test_wait_while_busy :
    let t := after (hostMove .wait (startOp (encode .merge) State.reset)) State.reset
    t.env.regData = 1#32 ∧ t.env.script = [.wait] := by decide

/-- R33: an unmapped offset reads 0. -/
theorem test_read_unmapped :
    (after (hostMove (.rd 0x14) { State.reset with env := { State.reset.env with regData := 7#32 } }) State.reset).env.regData =
      0#32 := by decide

/-! ### Witnesses: for every statement with hypotheses, a concrete input that meets them, clause by clause -/

/-- 2×1 Rgb and a 2×1 Grayscale mask. -/
def demo : State := images 2 1 rgb8 [1#8, 2#8, 3#8, 4#8, 5#8, 6#8] [] gray8 [9#8, 8#8]

def demoBusy : State := startOp (encode .merge) demo
def demoDone : State := after (exec .merge demo) demo
def demoError : State := after (exec .merge State.reset) State.reset

theorem illegal_of_error {w : Word} {e : DecodeError} (h : decodeCommand w = .error e) :
    ∀ i, decodeCommand w ≠ .ok i := fun i hi => by rw [h] at hi; cases hi

theorem not_legal {s : State} {k : Img} (h : (s.desc k).fmt.depth = 0#5) : ∀ f, ¬ Legal s k f := by
  rintro ⟨d, m, pp⟩ ⟨hf, _⟩
  rw [hf] at h
  cases d <;> cases h

theorem test_witness_CommandDecodeInvertsEncode :
    decodeCommand 0x14#32 = .ok (.mask .img2) ∧ (Instr.mask .img2).kind = .command ∧ encode (.mask .img2) = 0x14#32 := by
  decide

theorem test_witness_FormatDecodeInvertsEncode :
    decodeDepth (formatFields 0x00010410#32) = .ok .d16 ∧ Instr.d16.kind = .depth ∧
    decodeModel (formatFields 0x00010410#32) = .ok (.idx true) ∧
    decodeModel (formatFields 0x00010310#32) = .ok .rgba := by decide

/-- OP at both ends of the reserved range, each end of ZERO, SEL with each of its three words. -/
theorem test_witness_IllegalCommandWordEndsInError :
    (∀ i, decodeCommand 0x05#32 ≠ .ok i) ∧ (∀ i, decodeCommand 0x0E#32 ≠ .ok i) ∧
    (∀ i, decodeCommand 0x20#32 ≠ .ok i) ∧ (∀ i, decodeCommand 0x80000000#32 ≠ .ok i) ∧
    (∀ i, decodeCommand 0x10#32 ≠ .ok i) ∧ (∀ i, decodeCommand 0x11#32 ≠ .ok i) ∧
    (∀ i, decodeCommand 0x1F#32 ≠ .ok i) ∧ State.reset.ctl.runState ≠ .busy :=
  ⟨illegal_of_error (e := .reservedOp) rfl, illegal_of_error (e := .reservedOp) rfl,
    illegal_of_error (e := .zeroBitsSet) rfl, illegal_of_error (e := .zeroBitsSet) rfl,
    illegal_of_error (e := .selNotAllowed) rfl, illegal_of_error (e := .selNotAllowed) rfl,
    illegal_of_error (e := .selNotAllowed) rfl, by decide⟩

theorem test_witness_AckReturnsToIdle :
    State.reset.ctl.runState = .idle ∧ demoDone.ctl.runState = .done ∧ demoError.ctl.runState = .error := by decide

theorem test_witness_CommandWriteDispatch :
    demoBusy.ctl.runState = .busy ∧ demo.ctl.runState ≠ .busy ∧
    (0x00000001#32 : Word) ≠ 0x00000000#32 ∧ (0x00000001#32 : Word) ≠ 0x0000000F#32 := by decide

theorem test_witness_IrqIsALevel :
    Instr.isOperation .merge = true ∧ demoDone.ctl.runState ≠ .busy ∧
    irq { demoDone with ctl := { demoDone.ctl with ie := true } } = true := by decide

theorem test_witness_OperationsFailAfterReset :
    hostMove .reset demoBusy = .next (resetEvent demoBusy) ∧ Instr.isOperation (.unpack .img2) = true := ⟨rfl, rfl⟩

theorem test_witness_StepKeepsStatusRules :
    StatusRules demoError ∧ ∃ t, step (State.withScript demoError [scriptCmd .ack]) = .next t :=
  ⟨⟨by decide, by decide, fun _ => ⟨.illegalConfig, rfl, rfl, rfl⟩⟩, _, rfl⟩

theorem test_witness_StepKeepsMemoryRules :
    MemoryRules (State.withScript demo [.st .raw1 16777215 1#8]) ∧
    ∃ t, step (State.withScript demo [.st .raw1 16777215 1#8]) = .next t :=
  ⟨⟨fun space => by cases space <;> decide, fun space _ => by cases space <;> decide⟩, _, rfl⟩

theorem test_witness_StepKeepsOutputRule :
    OutputRule demoDone ∧ HiddenRule demoDone ∧ OutputRule demoBusy ∧ HiddenRule demoBusy ∧
    ∃ t, step demoBusy = .next t :=
  ⟨⟨rfl, rfl⟩, by decide, rfl, by decide, _, rfl⟩

theorem test_witness_StateChangesOnlyByListedEvents :
    ∃ t, step (State.withScript demo [scriptCmd .merge]) = .next t ∧ t.ctl.runState = .busy := ⟨_, rfl, rfl⟩

theorem test_witness_InputsCannotChangeWhileBusy :
    demoBusy.ctl.runState = .busy ∧ ∃ t, step ((State.withScript demoBusy [.st .raw1 0 7#8]).withTurns [.host]) = .next t :=
  ⟨rfl, _, rfl⟩

theorem test_witness_OnlySubWordAccessStops :
    (0x01 % 4 ≠ 0 ∧ 0x03 % 4 ≠ 0) ∧ step (State.withScript State.reset [.rd 0x01]) = .refused .subWordRegisterAccess :=
  ⟨by decide, rfl⟩

theorem test_witness_BusyDropsHostWrites : demoBusy.ctl.runState = .busy ∧ Reg.cmd ≠ .ctrl := by decide

theorem test_witness_RegisterWriteReadsBack :
    (isDescReg (.palLen .img2) = true ∧ demo.ctl.runState ≠ .busy) ∧ Reg.fmt .img1 ≠ .palLen .img2 := by decide

/-- Each range of unmapped offsets at both ends. -/
theorem test_witness_UnmappedAndReadOnlyOffsets :
    (0x14 % 4 = 0 ∧ 0x14 ≤ 0x14) ∧ (0x1C % 4 = 0 ∧ 0x1C ≤ 0x1C) ∧ (0x34 % 4 = 0 ∧ 0x34 ≤ 0x34) ∧
    (0x3C % 4 = 0 ∧ 0x3C ≤ 0x3C) ∧ (0x54 % 4 = 0 ∧ 0x54 ≤ 0x54) := by decide

/-- The last byte of RAW1 and the first address past it, and the same of PAL2. -/
theorem test_witness_BufferWriteReadsBack :
    demo.ctl.runState ≠ .busy ∧ Space.raw1 ≠ .out ∧ 16777215 < demo.params.capacity .raw1 ∧
    demo.params.capacity .raw1 ≤ 16777216 ∧ 767 < demo.params.capacity .pal2 ∧ demo.params.capacity .pal2 ≤ 768 := by
  decide

theorem test_witness_BufferReadReturnsTheByteOrAFreeValue :
    hostMove .reset demo = .next (resetEvent demo) ∧
    (demo.ctl.runState ≠ .busy ∧ 5 < demo.params.capacity .raw1 ∧ Space.raw1 ≠ .out) ∧
    (demoDone.ctl.runState = .done ∧ 7 < demoDone.params.outCap ∧ 7 < demoDone.ctl.outLen.toNat) ∧
    demoBusy.ctl.runState = .busy ∧ demo.params.capacity .pal1 ≤ 768 ∧ demoDone.ctl.outLen.toNat ≤ 8 :=
  ⟨rfl, by decide⟩

theorem test_witness_StepRunsLatchedOperation :
    demoBusy.ctl.runState = .busy ∧ demoBusy.hidden.phase = .decode ∧
    decodeOperation demoBusy.hidden.latched = some .merge ∧ demoBusy.env.turns = [] ∧
    (demoBusy.withTurns [.run]).env.turns = [.run] := by decide

theorem test_witness_StepRunsFormatFields :
    let s := unpacking .d2 .gray [0xE4#8]
    let u := normalising .rgb [1#8, 2#8, 3#8] []
    (s.ctl.runState = .busy ∧ s.hidden.phase = .unpack ∧ decodeDepth (s.desc s.hidden.image).fmt = .ok .d2 ∧
      s.env.turns = []) ∧
    (u.ctl.runState = .busy ∧ u.hidden.phase = .normalise ∧ decodeModel (u.desc u.hidden.image).fmt = .ok .rgb ∧
      (u.withTurns [.phase]).env.turns = [.phase]) := by decide

theorem test_witness_StepRunsHostAccesses :
    demoError.ctl.runState ≠ .busy ∧
    (State.withScript demoError [.wr 0x00 0xF#32]).env.script = .wr 0x00 0xF#32 :: [] ∧
    decodeCommand 0xF#32 = .ok .ack ∧ decodeCommand 0x0#32 = .ok .nop ∧
    demoBusy.ctl.runState = .busy ∧ (demoBusy.withTurns [.host]).env.turns = .host :: [] := by decide

theorem test_witness_ScaleAlignsAndFills :
    (8 ∈ [1, 2, 4, 8] ∧ 255 < 2 ^ 8 ∧ 254 < 255) ∧ (1 ∈ [1, 2, 4, 8] ∧ 1 < 2 ^ 1 ∧ 0 < 1) := by decide

theorem test_witness_UnpackFollowsTheAddressArithmetic :
    unpack [1#8, 2#8] .d16 .scaled = .ok [1#8] ∧ unpack [7#8] .d8 .index = .ok [7#8] ∧
    unpack [0x1B#8] .d2 .index = .ok [0#8, 1#8, 2#8, 3#8] ∧ 0 < [1#8].length := by decide

theorem test_witness_D1DeliversEveryBit :
    let s := unpacking .d1 .gray [0xA5#8]
    0 < (s.desc s.hidden.image).rawLen.toNat ∧ 7 < 8 := by decide

theorem test_witness_D2DeliversBitPairs :
    let s := unpacking .d2 .idx [0xA5#8]
    0 < (s.desc s.hidden.image).rawLen.toNat ∧ 3 < 4 := by decide

theorem test_witness_D4DeliversNibbles :
    let s := unpacking .d4 .gray [0xA5#8, 0x5A#8]
    1 < (s.desc s.hidden.image).rawLen.toNat := by decide

theorem test_witness_D8PassesBytesThrough :
    let s := unpacking .d8 .gray [0xA5#8, 0x5A#8]
    1 < (s.desc s.hidden.image).rawLen.toNat := by decide

theorem test_witness_D16KeepsTheHighByte :
    let s := unpacking .d16 .gray [0xA5#8, 0x5A#8]
    let u := unpacking .d16 .gray [0xA5#8]
    ((s.desc s.hidden.image).rawLen.toNat % 2 = 0 ∧ 0 < (s.desc s.hidden.image).rawLen.toNat / 2) ∧
    (u.desc u.hidden.image).rawLen.toNat % 2 = 1 := by decide

theorem test_witness_UnpackWritesTheSamples :
    Legal demo .img2 gray8 ∧ (gray8.depth = .d16 → (demo.desc .img2).rawLen.toNat % 2 = 0) ∧
    Legal (one { gray8 with depth := .d16 } [1#8, 2#8] []) .img1 { gray8 with depth := .d16 } ∧
    ((one { gray8 with depth := .d16 } [1#8, 2#8] []).desc .img1).rawLen.toNat % 2 = 0 := by decide

/-- A palette of 4 bytes, of none, and of 2 entries at its last index and past it. -/
theorem test_witness_PaletteResolvesToTriples :
    [1#8, 2#8, 3#8, 4#8].length % 3 ≠ 0 ∧ ([] : List Byte).length % 3 = 0 ∧ redBlue.length % 3 = 0 ∧
    1 < redBlue.length / 3 ∧ redBlue.length / 3 ≤ 2 := by decide

theorem test_witness_GrayExpandsEverySample :
    (normalising .gray [7#8] []).hidden.samples[0]? = some 7#8 := by decide

theorem test_witness_GrayaExpandsPairs :
    let s := normalising .graya [10#8, 20#8] []
    s.hidden.samples.length % 2 = 0 ∧ s.hidden.samples[2 * 0]? = some 10#8 ∧
    s.hidden.samples[2 * 0 + 1]? = some 20#8 ∧ (normalising .graya [1#8] []).hidden.samples.length % 2 ≠ 0 := by decide

theorem test_witness_RgbExpandsTriples :
    let s := normalising .rgb [1#8, 2#8, 3#8] []
    s.hidden.samples.length % 3 = 0 ∧ s.hidden.samples[3 * 0]? = some 1#8 ∧ s.hidden.samples[3 * 0 + 1]? = some 2#8 ∧
    s.hidden.samples[3 * 0 + 2]? = some 3#8 ∧ (normalising .rgb [1#8, 2#8] []).hidden.samples.length % 3 ≠ 0 := by decide

theorem test_witness_RgbaPassesSamplesThrough :
    (normalising .rgba [1#8, 2#8, 3#8, 4#8] []).hidden.samples.length % 4 = 0 ∧
    (normalising .rgba [1#8] []).hidden.samples.length % 4 ≠ 0 := by decide

/-- A palette of 4 bytes; an index equal to the entry count behind a good one; only good indices. -/
theorem test_witness_IdxLooksUpEveryIndex :
    let a := normalising .idx [0#8] [1#8, 2#8, 3#8, 4#8]
    let b := normalising .idx [1#8, 2#8] redBlue
    let c := normalising .idx [1#8, 0#8] redBlue
    ((a.desc a.hidden.image).palLen.toNat % 3 ≠ 0) ∧
    ((b.desc b.hidden.image).palLen.toNat % 3 = 0 ∧ b.hidden.samples[1]? = some 2#8 ∧
      (b.desc b.hidden.image).palLen.toNat / 3 ≤ (2#8 : Byte).toNat ∧
      ∀ q < 1, ∀ j ∈ b.hidden.samples[q]?, j.toNat < (b.desc b.hidden.image).palLen.toNat / 3) ∧
    ((c.desc c.hidden.image).palLen.toNat % 3 = 0 ∧
      (∀ i ∈ c.hidden.samples, i.toNat < (c.desc c.hidden.image).palLen.toNat / 3) ∧
      c.hidden.samples[0]? = some 1#8) := by decide

theorem test_witness_NormWritesTheRgbaBuffer :
    Legal (one idx1 [0xA0#8] redBlue) .img1 idx1 ∧
    firstCause (imageCauses (one idx1 [0xA0#8] redBlue) .img1 idx1) = none ∧
    Legal demo .img1 rgb8 ∧ firstCause (imageCauses demo .img1 rgb8) = none := by decide

theorem test_witness_PhasesSetTheProgressCounters :
    (let s := unpacking .d2 .gray [0xE4#8]
     s.ctl.runState = .busy ∧ (∃ t, exec .d2 s = .next t ∧ t.ctl.runState = .busy) ∧ Instr.d2.kind = .depth) ∧
    (let s := normalising .rgb [1#8, 2#8, 3#8] []
     s.ctl.runState = .busy ∧ (∃ t, exec .rgb s = .next t ∧ t.ctl.runState = .busy) ∧ Instr.rgb.kind = .model) :=
  ⟨⟨rfl, ⟨_, rfl, rfl⟩, rfl⟩, rfl, ⟨_, rfl, rfl⟩, rfl⟩

theorem test_witness_MaskIgnoresSourceAlpha :
    [1#8, 2#8, 3#8, 4#8].length = [1#8, 2#8, 3#8, 5#8].length ∧ [1#8, 2#8, 3#8, 4#8].length % 4 = 0 ∧
    ∀ p, (pixelAt [1#8, 2#8, 3#8, 4#8] p).take 3 = (pixelAt [1#8, 2#8, 3#8, 5#8] p).take 3 := by
  refine ⟨rfl, rfl, fun p => ?_⟩
  cases p with
  | zero => rfl
  | succ p => simp [pixelAt, Nat.mul_succ]

theorem test_witness_MaskOfGreyIsItsSamples :
    rgbaGray [7#8] = .ok [7#8, 7#8, 7#8, 255#8] ∧ rgbaGraya [7#8, 1#8] = .ok [7#8, 7#8, 7#8, 1#8] ∧
    2 * 0 + 1 < [7#8, 1#8].length := by decide

theorem test_witness_MaskWritesOneBytePerPixel :
    Legal demo .img2 gray8 ∧ firstCause (imageCauses demo .img2 gray8) = none := by decide

theorem test_witness_AdjustGivesExactlyTheLength : [1#8].length < 2 ∧ 1 ≤ [1#8].length ∧ 0 ≤ [1#8].length := by decide

theorem test_witness_SizeMismatchHidesEveryImageError :
    let s := { demo with img2 := image 2 2 gray8 2 0 }
    Legal s .img1 rgb8 ∧ Legal s .img2 gray8 ∧ s.img1.height ≠ s.img2.height := by decide

/-- Two by one pixels, and zero by five. -/
theorem test_witness_MergeComposesColourAndLuminance :
    (Legal demo .img1 rgb8 ∧ Legal demo .img2 gray8 ∧ firstCause (mergeCauses demo rgb8 gray8) = none) ∧
    (Legal (images 0 5 rgb8 [] [] gray8 []) .img1 rgb8 ∧ Legal (images 0 5 rgb8 [] [] gray8 []) .img2 gray8 ∧
      firstCause (mergeCauses (images 0 5 rgb8 [] [] gray8 []) rgb8 gray8) = none) := by decide

/-- R210: 2×1 Rgba with the same bytes on both sides. -/
theorem test_witness_SelfMergeReplacesAlphaByLuminance :
    let b := [10#8, 20#8, 30#8, 40#8, 200#8, 100#8, 50#8, 0#8]
    let s := images 2 1 rgba8 b [] rgba8 b
    Legal s .img1 rgba8 ∧ s.img2 = s.img1 ∧
    (∀ a < s.img1.rawLen.toNat, byteAt s .raw2 a = byteAt s .raw1 a) ∧
    (∀ a < s.img1.palLen.toNat, byteAt s .pal2 a = byteAt s .pal1 a) ∧
    (∃ u, exec (.norm .img1) s = .next u ∧ Completed s u b) ∧
    s.img1.width.toNat * s.img1.height.toNat * 4 ≤ b.length :=
  ⟨by decide, by decide, by decide, by decide, ⟨_, rfl, completed_settle _ _ _⟩, by decide⟩

theorem test_witness_IllegalConfigComesFirst :
    (∀ f, ¬ Legal State.reset .img2 f) ∧ (∀ f, ¬ Legal State.reset .img1 f) ∧
    (∃ f, Legal { demo with img2 := Desc.reset } .img1 f) ∧
    (∀ f, ¬ Legal { demo with img2 := Desc.reset } .img2 f) ∧
    Instr.mask .img2 ∈ [Instr.unpack .img2, Instr.norm .img2, Instr.mask .img2] :=
  ⟨not_legal rfl, not_legal rfl, ⟨rgb8, by decide⟩, not_legal rfl, by decide⟩

theorem test_witness_OneImageCommandsEndByTheFirstCause :
    Legal demo .img1 rgb8 ∧ firstCause (imageCauses demo .img1 rgb8) = none ∧
    firstCause (imageCauses (one { idx1 with palPresent := false } [0#8] [1#8]) .img1 { idx1 with palPresent := false }) =
      some { code := .paletteNotFoundWhenIndexedPng, img := some .img1, pos := 0 } := by decide

theorem test_witness_MergeEndsByTheFirstCause :
    Legal demo .img1 rgb8 ∧ Legal demo .img2 gray8 ∧
    firstCause (mergeCauses (images 2 1 rgb8 [1#8, 2#8, 3#8] [] gray8 [0#8]) rgb8 gray8) =
      some { code := .lessDataSize, img := some .img1, pos := 0 } := by decide

/-- The other image, the sizes and the palette all differ. -/
theorem test_witness_UnpackDependsOnItsImageOnly :
    let u := images 9 9 { rgb8 with palPresent := true } [1#8, 2#8, 3#8, 4#8, 5#8, 6#8] redBlue rgba8 [7#8]
    u.params = demo.params ∧ (u.desc .img1).fmt.depth = (demo.desc .img1).fmt.depth ∧
    (u.desc .img1).fmt.model = (demo.desc .img1).fmt.model ∧ (u.desc .img1).rawLen = (demo.desc .img1).rawLen ∧
    (demo.desc .img1).palLen.toNat ≤ demo.params.palCap ∧ (u.desc .img1).palLen.toNat ≤ demo.params.palCap ∧
    (∀ a < (demo.desc .img1).rawLen.toNat, byteAt u .raw1 a = byteAt demo .raw1 a) ∧ u.img2 ≠ demo.img2 := by decide

theorem test_witness_PaletteIsReadByIndexedImagesOnly :
    let u := images 9 9 { rgb8 with palPresent := true } [1#8, 2#8, 3#8, 4#8, 5#8, 6#8] redBlue rgba8 [7#8]
    u.params = demo.params ∧ (u.desc .img1).fmt.depth = (demo.desc .img1).fmt.depth ∧
    (u.desc .img1).fmt.model = (demo.desc .img1).fmt.model ∧ (demo.desc .img1).fmt.model ≠ 4#3 ∧
    (u.desc .img1).rawLen = (demo.desc .img1).rawLen ∧
    (demo.desc .img1).palLen.toNat ≤ demo.params.palCap ∧ (u.desc .img1).palLen.toNat ≤ demo.params.palCap ∧
    (∀ a < (demo.desc .img1).rawLen.toNat, byteAt u .raw1 a = byteAt demo .raw1 a) := by decide

theorem test_witness_OperationsArePure :
    Instr.isOperation .merge = true ∧ exec .merge demo = .next demoDone := ⟨rfl, rfl⟩

theorem test_witness_ResultsFitTheOutputBuffer :
    demo.params.wf = true ∧ Instr.isOperation .merge = true ∧ exec .merge demo = .next demoDone ∧
    demoDone.ctl.runState = .done := ⟨by decide, rfl, rfl, by decide⟩

theorem test_witness_PhasesAgreeWithTheWholeOperation :
    StatusRules demoBusy ∧ demoBusy.ctl.runState = .busy ∧ demoBusy.hidden.phase = .decode ∧
    decodeOperation demoBusy.hidden.latched = some .merge :=
  ⟨⟨by decide, by decide, fun h => by cases h⟩, rfl, rfl, rfl⟩

theorem test_witness_StartedOperationsEnd :
    let s := (State.withScript demoBusy [.rd 0x04, .wait]).withTurns [.host, .phase]
    s.ctl.runState = .busy ∧ ∀ a ∈ s.env.script, a.wf = true := by decide

end Sys2Proof.Machine.Tests
end

section
/-! The operations as one: what every operation reads (its operands) and how long its result is; then the three
statements of the scope family (00_scope.md). -/

namespace Sys2Proof.Machine

/-! ### The operands of an operation -/

/-- `s` and `t` hold the same operands: everything an operation may read (R101). Status, OUT, the hidden state and the
host's script and turns are no operand. -/
structure SameOperands (s t : State) : Prop where
  params : t.params = s.params
  inputs : SameInputs s t
  epoch : t.env.epoch = s.env.epoch

namespace SameOperands

variable {s t : State}

theorem desc (h : SameOperands s t) (k : Img) : t.desc k = s.desc k := by
  obtain ⟨himg1, himg2, _⟩ := h.inputs
  exact desc_congr himg1 himg2 k

theorem mem (h : SameOperands s t) {space : Space} (ho : space ≠ .out) : t.mem space = s.mem space := by
  obtain ⟨_, _, hraw1, hraw2, hpal1, hpal2⟩ := h.inputs
  cases space with
  | raw1 => exact hraw1
  | raw2 => exact hraw2
  | pal1 => exact hpal1
  | pal2 => exact hpal2
  | out => exact absurd rfl ho

theorem rawBytes (h : SameOperands s t) (k : Img) : rawBytes t k = rawBytes s k := by
  simp only [Machine.rawBytes, h.desc, bytesAt_congr (h.mem (space := k.rawSpace) (by cases k <;> decide)) h.epoch]

theorem palBytes (h : SameOperands s t) (k : Img) : palBytes t k = palBytes s k := by
  simp only [Machine.palBytes, h.desc, bytesAt_congr (h.mem (space := k.palSpace) (by cases k <;> decide)) h.epoch]

theorem checkImage (h : SameOperands s t) (k : Img) : checkImage t k = checkImage s k :=
  checkImage_congr k h.params (h.desc k)

theorem normaliseImage (h : SameOperands s t) (k : Img) (f : Format) : normaliseImage t k f = normaliseImage s k f := by
  simp only [Machine.normaliseImage, h.rawBytes, h.palBytes]

theorem pixelCount (h : SameOperands s t) : pixelCount t = pixelCount s := by
  obtain ⟨himg1, _⟩ := h.inputs
  simp only [Machine.pixelCount, himg1]

theorem sizesAgree (h : SameOperands s t) : sizesAgree t = sizesAgree s := by
  obtain ⟨himg1, himg2, _⟩ := h.inputs
  simp only [Machine.sizesAgree, himg1, himg2]

theorem unpackResult (h : SameOperands s t) (k : Img) : unpackResult t k = unpackResult s k := by
  simp only [Machine.unpackResult, h.checkImage, h.rawBytes]

theorem normResult (h : SameOperands s t) (k : Img) : normResult t k = normResult s k := by
  simp only [Machine.normResult, h.checkImage, h.normaliseImage]

theorem maskResult (h : SameOperands s t) (k : Img) : maskResult t k = maskResult s k := by
  simp only [Machine.maskResult, h.normResult]

theorem mergeResult (h : SameOperands s t) : mergeResult t = mergeResult s := by
  simp only [Machine.mergeResult, mergeImages, mergeRgba1, mergeAlpha2, h.checkImage, h.normaliseImage, h.pixelCount,
    h.sizesAgree]

end SameOperands

/-! ### Every operation is its body between the start update and its end -/

/-- The body of an operation: its result or its error. An instruction that is no operation has none. -/
def opResult (i : Instr) (s : State) : Option (Except Raise (List Byte)) :=
  match i with
  | .merge => some (mergeResult s)
  | .unpack k => some (unpackResult s k)
  | .norm k => some (normResult s k)
  | .mask k => some (maskResult s k)
  | _ => none

/-- An operation starts, runs its body, and ends with what the body gave (R221, R223, R252). -/
theorem exec_operation {i : Instr} (hi : i.isOperation = true) (s : State) :
    ∃ r, opResult i s = some r ∧ exec i s = .next (settle (startOp (encode i) s) r) := by
  cases i with
  | merge => exact ⟨_, rfl, exec_merge s⟩
  | unpack k => exact ⟨_, rfl, exec_unpack k s⟩
  | norm k => exact ⟨_, rfl, exec_norm k s⟩
  | mask k => exact ⟨_, rfl, exec_mask k s⟩
  | _ => cases hi

theorem SameOperands.opResult {s t : State} (h : SameOperands s t) (i : Instr) : opResult i t = opResult i s := by
  cases i with
  | merge => exact congrArg some h.mergeResult
  | unpack k => exact congrArg some (h.unpackResult k)
  | norm k => exact congrArg some (h.normResult k)
  | mask k => exact congrArg some (h.maskResult k)
  | _ => rfl

/-- Running an operation leaves its operands as they are (R223). -/
theorem sameOperands_settle (w : Word) (s : State) (r : Except Raise (List Byte)) :
    SameOperands s (settle (startOp w s) r) := by
  cases r <;> exact ⟨rfl, ⟨rfl, rfl, rfl, rfl, rfl, rfl⟩, rfl⟩

/-- What an operation reports is a function of what its body gave. -/
theorem sameReport_settle (w : Word) (s t : State) (r : Except Raise (List Byte)) :
    SameReport (settle (startOp w s) r) (settle (startOp w t) r) := by
  cases r <;> exact ⟨rfl, rfl, rfl, rfl, rfl, fun _ _ => rfl⟩

/-! ### The length of a result -/

/-- The unpacker delivers exactly the samples its bytes hold (R121). -/
theorem unpack_length {bytes samples : List Byte} {d : Depth} {mode : Mode} (h : unpack bytes d mode = .ok samples) :
    samples.length = sampleCount d bytes.length := by
  cases d with
  | d1 => cases h; simp [sampleCount, depthBits]
  | d2 => cases h; simp [sampleCount, depthBits]; omega
  | d4 => cases h; simp [sampleCount, depthBits]; omega
  | d8 => cases h; simp [sampleCount, depthBits]
  | d16 =>
    simp only [unpack, samplesD16] at h
    split at h
    · cases h
    · cases h
      simp only [highBytes_length, sampleCount, depthBits]
      omega

/-- A lookup loop that finds every index gives one pixel per index. -/
theorem lookupPixels_length {table : List Rgb} {p : Nat} {samples out : List Byte}
    (h : lookupPixels table p samples = .ok out) : out.length = 4 * samples.length := by
  induction samples generalizing p out with
  | nil => cases h; rfl
  | cons i rest ih =>
    simp only [lookupPixels] at h
    split at h
    · cases h
    · split at h
      · cases h
      · rename_i tail htail
        cases h
        simp only [List.length_append, pixel_length, ih htail, List.length_cons]
        omega

/-- A branch of the normaliser gives one RGBA pixel per group of `arity` samples (R166). -/
theorem normalise_length {f : Format} {raw palette rgba : List Byte} (h : normalise f raw palette = .ok rgba) :
    rgba.length = 4 * (sampleCount f.depth raw.length / arityOf f.model) := by
  unfold normalise at h
  split at h
  · cases h
  · rename_i samples hs
    rw [← unpack_length hs]
    split at h <;> rename_i hm <;> rw [hm]
    · cases h
      simp [arityOf, Nat.mul_comm]
    · unfold rgbaGraya at h
      split at h <;> cases h
      have := (grayaPixels_spec samples (by omega)).1
      simp only [arityOf]
      omega
    · unfold rgbaRgb at h
      split at h <;> cases h
      have := (rgbPixels_spec samples (by omega)).1
      simp only [arityOf]
      omega
    · unfold rgbaRgba at h
      split at h <;> cases h
      simp only [arityOf]
      omega
    · unfold rgbaIdx at h
      split at h
      · cases h
      · simp [arityOf, lookupPixels_length h]

/-- The adjusted buffer is the head of the buffer (R200). -/
theorem adjust_length_le {bytes out : List Byte} {n : Nat} (h : adjust bytes n = .ok out) :
    out.length ≤ bytes.length := by
  unfold adjust at h
  split at h <;> cases h
  exact List.length_take_le' ..

theorem composePixels_length_le (x alphas : List Byte) : (composePixels x alphas).length ≤ x.length := by
  induction x, alphas using composePixels.induct with
  | case1 r g b a rest c alphas ih => simp [composePixels]; omega
  | case2 x alphas hx => simp [composePixels]

/-- No image gives more than 32 bytes of RGBA per raw byte: eight samples a byte, four bytes a sample (R8). -/
theorem normalise_length_le {f : Format} {raw palette rgba : List Byte} (h : normalise f raw palette = .ok rgba) :
    rgba.length ≤ 32 * raw.length := by
  have pixels_le : sampleCount f.depth raw.length / arityOf f.model ≤ sampleCount f.depth raw.length :=
    Nat.div_le_self ..
  have samples_le : sampleCount f.depth raw.length ≤ 8 * raw.length := Nat.div_le_self ..
  have := normalise_length h
  omega

/-- The raw bytes of a legal image fit its buffer (R222), so its RGBA buffer fits OUT (R8). -/
theorem normaliseImage_length_le {s : State} {k : Img} {f : Format} {rgba : List Byte} (hc : checkImage s k = .ok f)
    (h : normaliseImage s k f = .ok rgba) : rgba.length ≤ s.params.outCap := by
  obtain ⟨_, raw_le, _⟩ := checkImage_eq_ok.1 hc
  have := normalise_length_le (withImage_eq_ok.1 h)
  rw [rawBytes_length] at this
  simp only [Params.outCap]
  omega

theorem unpackResult_length_le {s : State} {k : Img} {bytes : List Byte} (h : unpackResult s k = .ok bytes) :
    bytes.length ≤ s.params.outCap := by
  unfold unpackResult at h
  split at h
  · cases h
  · rename_i f hc
    obtain ⟨_, raw_le, _⟩ := checkImage_eq_ok.1 hc
    have samples_le : sampleCount f.depth (rawBytes s k).length ≤ 8 * (rawBytes s k).length := Nat.div_le_self ..
    rw [← unpack_length (withImage_eq_ok.1 h), rawBytes_length] at samples_le
    simp only [Params.outCap]
    omega

theorem normResult_length_le {s : State} {k : Img} {bytes : List Byte} (h : normResult s k = .ok bytes) :
    bytes.length ≤ s.params.outCap := by
  unfold normResult at h
  split at h
  · cases h
  · rename_i f hc
    exact normaliseImage_length_le hc h

theorem maskResult_length_le {s : State} {k : Img} {bytes : List Byte} (h : maskResult s k = .ok bytes) :
    bytes.length ≤ s.params.outCap := by
  unfold maskResult at h
  split at h
  · cases h
  · rename_i rgba hn
    cases h
    calc (maskOf rgba).length = rgba.length / 4 := maskOf_length rgba
      _ ≤ rgba.length := Nat.div_le_self ..
      _ ≤ s.params.outCap := normResult_length_le hn

/-- The adjusted buffer of image 1 is no longer than what was normalised (R203). -/
theorem mergeRgba1_length_le {s : State} {f : Format} {bytes : List Byte} (hc : checkImage s .img1 = .ok f)
    (h : mergeRgba1 s f = .ok bytes) : bytes.length ≤ s.params.outCap := by
  unfold mergeRgba1 at h
  split at h
  · cases h
  · rename_i rgba hn
    exact (adjust_length_le (withImage_eq_ok.1 h)).trans (normaliseImage_length_le hc hn)

theorem mergeResult_length_le {s : State} {bytes : List Byte} (h : mergeResult s = .ok bytes) :
    bytes.length ≤ s.params.outCap := by
  unfold mergeResult mergeImages at h
  split at h
  · cases h
  · rename_i f1 hc1
    split at h
    · cases h
    · split at h
      · split at h
        · cases h
        · rename_i rgba1 h1
          split at h
          · cases h
          · cases h
            exact (composePixels_length_le _ _).trans (mergeRgba1_length_le hc1 h1)
      · cases h

/-- A result fits OUT (R8: "OUT_CAP = 32 · RAW_CAP"). -/
theorem opResult_length_le {i : Instr} {s : State} {bytes : List Byte} (h : opResult i s = some (.ok bytes)) :
    bytes.length ≤ s.params.outCap := by
  cases i with
  | merge => exact mergeResult_length_le (Option.some.inj h)
  | unpack k => exact unpackResult_length_le (Option.some.inj h)
  | norm k => exact normResult_length_le (Option.some.inj h)
  | mask k => exact maskResult_length_le (Option.some.inj h)
  | _ => cases h

/-- With the parameters of R8 every length up to OUT_CAP is a 32-bit word. -/
theorem outCap_lt {p : Params} (h : p.wf = true) : p.outCap < 2 ^ 32 := by
  simp only [Params.wf, Bool.and_eq_true, decide_eq_true_eq] at h
  obtain ⟨haw, _⟩ := h
  have : 2 ^ p.aw ≤ 2 ^ 26 := Nat.pow_le_pow_right (by decide) haw
  simp only [Params.outCap, Params.rawCap]
  omega

/-! ### The statements on operations -/

/-- Settles O57: the second run finds the operands of the first, so its body gives the same. -/
theorem operationsArePure : Obligations.OperationsArePure := by
  intro i s t hi ht
  obtain ⟨r, hr, hs⟩ := exec_operation hi s
  obtain ⟨r', hr', hu⟩ := exec_operation hi t
  cases hs.symm.trans ht
  rw [(sameOperands_settle _ s r).opResult i, hr] at hr'
  cases hr'
  exact ⟨_, hu, sameReport_settle _ s _ r⟩

/-- Settles O58: OUT holds the bytes of the body's result, at most OUT_CAP of them, so OUT_LEN loses no bit of their
number. -/
theorem resultsFitTheOutputBuffer : Obligations.ResultsFitTheOutputBuffer := by
  intro i s t hp hi ht hd
  obtain ⟨r, hr, hs⟩ := exec_operation hi s
  cases hs.symm.trans ht
  cases r with
  | error e => cases hd
  | ok bytes =>
    have fits : bytes.length ≤ s.params.outCap := opResult_length_le hr
    have word : bytes.length < 2 ^ 32 := fits.trans_lt (outCap_lt hp)
    simp only [settle, completeOp_ctl, completeOp_out, writeOut_out, cellsFrom_length, BitVec.toNat_ofNat]
    exact ⟨Nat.mod_eq_of_lt word, fits⟩

/-! ### The word of a command -/

/-- The three fields of a command word are the whole of it (R91). -/
theorem toNat_eq_commandFields (w : Word) :
    w.toNat = 32 * (commandFields w).zero.toNat + 16 * (commandFields w).sel.toNat + (commandFields w).op.toNat := by
  simp only [commandFields, BitVec.extractLsb'_toNat, Nat.shiftRight_eq_div_pow]
  omega

/-- A word whose fields are `op`, `sel` and no ZERO bit is their number. -/
theorem encode_eq_of_fields {w : Word} {i : Instr} {op : Nat} (hz : (commandFields w).zero = 0#27)
    (ho : (commandFields w).op.toNat = op) (he : (encode i).toNat = 16 * (commandFields w).sel.toNat + op) :
    encode i = w := by
  apply BitVec.eq_of_toNat_eq
  rw [he, toNat_eq_commandFields w, hz, ho]
  simp

theorem withoutSel_eq_ok {sel : BitVec 1} {i j : Instr} : withoutSel sel i = .ok j ↔ sel = 0#1 ∧ i = j := by
  unfold withoutSel
  split <;> simp_all

theorem encode_of_withoutSel {w : Word} {i j : Instr} {op : Nat} (hz : (commandFields w).zero = 0#27)
    (ho : (commandFields w).op.toNat = op) (he : (encode j).toNat = op)
    (h : withoutSel (commandFields w).sel j = .ok i) : encode i = w := by
  obtain ⟨hsel, rfl⟩ := withoutSel_eq_ok.1 h
  exact encode_eq_of_fields hz ho (by simp [he, hsel])

/-- Only its own word decodes to a command (R92, R93, R98). -/
theorem encode_of_decodeCommand {w : Word} {i : Instr} (h : decodeCommand w = .ok i) : encode i = w := by
  simp only [decodeCommand] at h
  split at h
  · cases h
  · rename_i hz
    have hz := not_not.1 hz
    split at h <;> rename_i ho
    · exact encode_of_withoutSel hz ho rfl h
    · exact encode_of_withoutSel hz ho rfl h
    · cases h
      have word : ∀ sel : BitVec 1, (encode (.unpack (imgOfSel sel))).toNat = 16 * sel.toNat + 2 := by decide
      exact encode_eq_of_fields hz ho (word _)
    · cases h
      have word : ∀ sel : BitVec 1, (encode (.norm (imgOfSel sel))).toNat = 16 * sel.toNat + 3 := by decide
      exact encode_eq_of_fields hz ho (word _)
    · cases h
      have word : ∀ sel : BitVec 1, (encode (.mask (imgOfSel sel))).toNat = 16 * sel.toNat + 4 := by decide
      exact encode_eq_of_fields hz ho (word _)
    · exact encode_of_withoutSel hz ho rfl h
    · cases h

/-! ### The host's next access -/

/-- WAIT never fails to answer: it is one read of STATUS (R102). -/
theorem hostMove_wait (s : State) : hostMove .wait s = .next (waitMove s) := rfl

theorem waitMove_of_busy {s : State} (hb : s.ctl.runState = .busy) :
    waitMove s = { s with env := { s.env with regData := statusWord s, script := .wait :: s.env.script } } := by
  simp [waitMove, hb, returnWord]

theorem waitMove_of_not_busy {s : State} (hb : s.ctl.runState ≠ .busy) :
    waitMove s = returnWord (statusWord s) s := by
  simp [waitMove, hb]

theorem serveHost_cons {s : State} {a : Access} {rest : List Access} (h : s.env.script = a :: rest) :
    serveHost s = hostMove a { s with env := { s.env with script := rest } } := by
  simp only [serveHost, h]

theorem step_of_not_busy {s : State} (hb : s.ctl.runState ≠ .busy) : step s = serveHost s := by
  simp only [step, if_neg hb]

theorem step_host_turn {s : State} {ts : List Turn} (hb : s.ctl.runState = .busy) (ht : s.env.turns = .host :: ts) :
    step s = serveHost (s.withTurns ts) := by
  simp only [step, if_pos hb, ht]

/-- The host's write of CMD is the write of R220. -/
theorem hostMove_cmd (w : Word) (s : State) : hostMove (.wr 0x00 w) s = commandWrite w s := rfl

/-- STATE not BUSY, the write of the word of NOP or ACK runs that instruction (R220). -/
theorem commandWrite_control {s : State} {i : Instr} (hb : s.ctl.runState ≠ .busy) (hi : i = .nop ∨ i = .ack) :
    commandWrite (encode i) s = exec i s := by
  rcases hi with rfl | rfl
  · simp only [commandWrite, if_neg hb, if_true]
  · have : encode .ack ≠ encode .nop := by decide
    simp only [commandWrite, if_neg hb, if_neg this, if_true]

/-! ### The statement on host accesses -/

/-- Settles O27: a step of the host is `serveHost`, which makes the access at the head of the script. -/
theorem stepRunsHostAccesses : Obligations.StepRunsHostAccesses := by
  constructor
  · intro s
    refine ⟨waitMove s, hostMove_wait s, ?_⟩
    by_cases hb : s.ctl.runState = .busy
    · simp [waitMove_of_busy hb, hb]
    · simp [waitMove_of_not_busy hb, hb, returnWord]
  · intro s a rest hs
    have next_access (hb : s.ctl.runState ≠ .busy) :
        step s = hostMove a { s with env := { s.env with script := rest } } :=
      (step_of_not_busy hb).trans (serveHost_cons hs)
    refine ⟨next_access, fun ts hb ht => (step_host_turn hb ht).trans (serveHost_cons hs), fun w i hb ha hw hi => ?_⟩
    subst ha
    rw [next_access hb, hostMove_cmd, ← encode_of_decodeCommand hw]
    exact commandWrite_control hb hi

end Sys2Proof.Machine
end

section
/-! The state family (10_state.md): the three invariants that every step keeps, each proved shape by shape of `Move`. -/

namespace Sys2Proof.Machine

/-! ### The rules of the status registers -/

/-- CTRL.IE is no part of the status rules, and nothing outside the control registers is. -/
theorem statusRules_congr {s t : State} {ie : Bool} (hc : t.ctl = { s.ctl with ie := ie }) (h : StatusRules s) :
    StatusRules t := by
  simpa only [StatusRules, hc] using h

/-- A cleared status is right in IDLE and in BUSY. -/
theorem statusRules_cleared {t : State} (hs : t.ctl.runState = .idle ∨ t.ctl.runState = .busy)
    (he : t.ctl.err = none) (hi : t.ctl.errImg = none) (hl : t.ctl.outLen = 0#32) (hp : t.ctl.errPos = 0#32) :
    StatusRules t := by
  refine ⟨fun _ => ⟨he, hi, hp⟩, fun _ => hl, fun herr => ?_⟩
  rcases hs with hs | hs <;> simp [hs] at herr

/-- The completion update clears no error field: a BUSY core has none set (R223, R241). -/
theorem statusRules_completeOp {s : State} (hb : s.ctl.runState = .busy) (h : StatusRules s) (len : Nat) :
    StatusRules (completeOp len s) := by
  obtain ⟨clear, _, _⟩ := h
  exact ⟨fun _ => clear (by simp [hb]), fun hd => absurd rfl hd, nofun⟩

theorem errPosFits_ofNat {code : ErrorCode} {pos : Nat} (h : errPosFits code pos = true) :
    errPosFits code (BitVec.ofNat 32 pos).toNat = true := by
  simp only [errPosFits, Bool.or_eq_true, decide_eq_true_eq] at h ⊢
  exact h.imp_right fun hpos => by simp [hpos]

/-- Error entry records what the row of the error in R241 says (R252). -/
theorem statusRules_raiseError {r : Raise} (hr : r.proper = true) (s : State) : StatusRules (raiseError r s) := by
  obtain ⟨himg, hpos⟩ := Bool.and_eq_true_iff.1 hr
  exact ⟨fun he => absurd rfl he, fun _ => rfl, fun _ => ⟨r.code, rfl, himg, errPosFits_ofNat hpos⟩⟩

theorem statusRules_startOp (w : Word) (s : State) : StatusRules (startOp w s) :=
  statusRules_cleared (.inr rfl) rfl rfl rfl rfl

theorem statusRules_acknowledge {s : State} (h : StatusRules s) : StatusRules (acknowledge s) := by
  rcases acknowledge_cases s with ⟨_, _, ha⟩ | ⟨_, ha⟩ <;> rw [ha]
  · exact h
  · exact statusRules_cleared (.inl rfl) rfl rfl rfl rfl

theorem statusRules_settle {s : State} {r : Except Raise (List Byte)} (hb : s.ctl.runState = .busy)
    (h : StatusRules s) (hr : ∀ x, r = .error x → x.proper = true) : StatusRules (settle s r) := by
  cases r with
  | ok bytes => exact statusRules_completeOp (s := writeOut bytes s) hb h _
  | error e => exact statusRules_raiseError (hr e rfl) s

/-- Settles O13: each shape of a next state leaves the status alone or sets it by one of the four atomic updates. -/
theorem stepKeepsStatusRules : Obligations.StepKeepsStatusRules := by
  intro s t h hstep
  cases move_of_step hstep with
  | env | hidden | compose => exact statusRules_congr (s := s) rfl h
  | ctrl e ie => exact statusRules_congr (s := s) (ie := ie) rfl h
  | desc e k d => exact statusRules_congr (s := s) (setDesc_ctl _ k d) h
  | store e space => exact statusRules_congr (s := s) (setMem_ctl _ space _) h
  | reset => exact statusRules_cleared (.inl rfl) rfl rfl rfl rfl
  | start e w => exact statusRules_startOp w _
  | ack e => exact statusRules_acknowledge (s := { s with env := e }) h
  | operation e w r hb hr => exact statusRules_settle rfl (statusRules_startOp w _) hr
  | fail e r hb hr => exact statusRules_raiseError hr _
  | complete e hb => exact statusRules_completeOp (s := { s with env := e }) hb h _

/-! ### The rules of the memories -/

/-- The memory rules speak of the parameters and the memories only. -/
theorem memoryRules_of_frame {s t : State} (h : MemoryRules s) (hp : t.params = s.params)
    (hin : ∀ space, space ≠ .out → t.mem space = s.mem space) (ho : Memory.wf t.out = true) : MemoryRules t := by
  obtain ⟨wf, below⟩ := h
  refine ⟨fun space => ?_, fun space hs => ?_⟩
  · by_cases hs : space = .out
    · exact hs ▸ ho
    · exact hin space hs ▸ wf space
  · rw [hp, hin space hs]
    exact below space hs

theorem SameInputs.mem {s t : State} (h : SameInputs s t) {space : Space} (ho : space ≠ .out) :
    t.mem space = s.mem space := by
  obtain ⟨_, _, hraw1, hraw2, hpal1, hpal2⟩ := h
  cases space with
  | raw1 => exact hraw1
  | raw2 => exact hraw2
  | pal1 => exact hpal1
  | pal2 => exact hpal2
  | out => exact absurd rfl ho

/-- A write of one byte below the capacity of an input buffer keeps the memory rules (R70, R76). -/
theorem memoryRules_store {s : State} {space : Space} {a : Nat} (h : MemoryRules s) (ha : a < s.params.capacity space)
    (v : Byte) : MemoryRules (s.setMem space (Memory.write (s.mem space) a v)) := by
  obtain ⟨wf, below⟩ := h
  refine ⟨fun other => ?_, fun other ho => ?_⟩
  · by_cases hs : other = space
    · subst hs
      simpa using write_wf (wf other) a v
    · simpa [hs] using wf other
  · by_cases hs : other = space
    · subst hs
      simpa using write_below (below other ho) ha v
    · simpa [hs] using below other ho

theorem memoryRules_reset {s : State} : MemoryRules (resetEvent s) :=
  ⟨fun space => by rw [resetEvent_mem]; rfl, fun space _ => by simp⟩

/-- No move changes the parameters (R8). -/
theorem Move.params {s t : State} (h : Move s t) : t.params = s.params := by
  cases h with
  | desc e k d => exact setDesc_params _ k d
  | store e space => exact setMem_params _ space _
  | ack e =>
    rcases acknowledge_cases { s with env := e } with ⟨_, _, ha⟩ | ⟨_, ha⟩ <;> rw [ha]
  | operation e w r => cases r <;> rfl
  | _ => rfl

theorem Move.keeps_memoryRules {s t : State} (hm : Move s t) (h : MemoryRules s) : MemoryRules t := by
  have outWf : Memory.wf s.out = true := h.1 .out
  have frame {t : State} (hp : t.params = s.params) (hi : SameInputs s t) (ho : Memory.wf t.out = true) :
      MemoryRules t := memoryRules_of_frame h hp (fun _ => hi.mem) ho
  cases hm with
  | env | ctrl | hidden | complete => exact frame rfl ⟨rfl, rfl, rfl, rfl, rfl, rfl⟩ outWf
  | start | fail => exact frame rfl ⟨rfl, rfl, rfl, rfl, rfl, rfl⟩ rfl
  | compose e bytes => exact frame rfl ⟨rfl, rfl, rfl, rfl, rfl, rfl⟩ (cellsFrom_wf 0 bytes)
  | operation e w r =>
    cases r with
    | ok bytes => exact frame rfl ⟨rfl, rfl, rfl, rfl, rfl, rfl⟩ (cellsFrom_wf 0 bytes)
    | error => exact frame rfl ⟨rfl, rfl, rfl, rfl, rfl, rfl⟩ rfl
  | ack e =>
    rcases acknowledge_cases { s with env := e } with ⟨_, _, ha⟩ | ⟨_, ha⟩ <;> rw [ha]
    · exact frame rfl ⟨rfl, rfl, rfl, rfl, rfl, rfl⟩ outWf
    · exact frame rfl ⟨rfl, rfl, rfl, rfl, rfl, rfl⟩ rfl
  | desc e k d =>
    exact memoryRules_of_frame h (setDesc_params _ k d) (fun space _ => by rw [setDesc_mem, mem_env])
      (by rwa [setDesc_out])
  | store e space a v _ _ ha =>
    have hs : MemoryRules { s with env := e } := frame rfl ⟨rfl, rfl, rfl, rfl, rfl, rfl⟩ outWf
    rw [← mem_env s e]
    exact memoryRules_store hs ha v
  | reset => exact memoryRules_reset

/-- Settles O14: an input buffer changes only by a write below its capacity or by reset, and OUT only as a whole. -/
theorem stepKeepsMemoryRules : Obligations.StepKeepsMemoryRules := fun _ _ h hstep =>
  ⟨(move_of_step hstep).keeps_memoryRules h, (move_of_step hstep).params⟩

/-! ### The rule of OUT and of the hidden state -/

/-- The output rule and the hidden rule as one invariant. -/
def OutputInvariant (s : State) : Prop := OutputRule s ∧ HiddenRule s

theorem outputInvariant_congr {s t : State} (hr : t.ctl.runState = s.ctl.runState) (hl : t.ctl.outLen = s.ctl.outLen)
    (ho : t.out = s.out) (hh : t.hidden = s.hidden) (h : OutputInvariant s) : OutputInvariant t := by
  simpa only [OutputInvariant, OutputRule, HiddenRule, hr, hl, ho, hh] using h

/-- IDLE and ERROR with an empty OUT and a dead hidden state. -/
theorem outputInvariant_at_rest {t : State} (hr : t.ctl.runState = .idle ∨ t.ctl.runState = .error) (ho : t.out = [])
    (hh : t.hidden = Hidden.dead) : OutputInvariant t := by
  rcases hr with hr | hr <;> simp [OutputInvariant, OutputRule, HiddenRule, hr, ho, hh]

/-- BUSY before the last phase, with an empty OUT (R37). -/
theorem outputInvariant_running {t : State} (hr : t.ctl.runState = .busy) (hp : t.hidden.phase ≠ .complete)
    (ho : t.out = []) : OutputInvariant t := by
  simp [OutputInvariant, OutputRule, HiddenRule, hr, hp, ho]

/-- BUSY at the last phase, with the bytes about to be announced in OUT (R37, R228). -/
theorem outputInvariant_last_phase {t : State} (hr : t.ctl.runState = .busy) (hp : t.hidden.phase = .complete)
    (ho : t.out = cellsFrom 0 t.hidden.result) : OutputInvariant t := by
  simp [OutputInvariant, OutputRule, HiddenRule, hr, hp, ho]

/-- The completion update announces the bytes that stand in OUT (R223). -/
theorem outputInvariant_completeOp {s : State} {bytes : List Byte} (ho : s.out = cellsFrom 0 bytes) :
    OutputInvariant (completeOp bytes.length s) := by
  refine ⟨?_, fun _ => rfl⟩
  simp [OutputRule, ho]

theorem outputInvariant_settle (s : State) (r : Except Raise (List Byte)) : OutputInvariant (settle s r) := by
  cases r with
  | ok bytes => exact outputInvariant_completeOp (s := writeOut bytes s) rfl
  | error e => exact outputInvariant_at_rest (.inr rfl) rfl rfl

theorem outputInvariant_acknowledge {s : State} (hb : s.ctl.runState ≠ .busy) (h : OutputInvariant s) :
    OutputInvariant (acknowledge s) := by
  rcases acknowledge_cases s with ⟨_, _, ha⟩ | ⟨_, ha⟩ <;> rw [ha]
  · exact h
  · exact outputInvariant_at_rest (.inl rfl) rfl (h.2 hb)

/-- While BUSY the output rule says what OUT holds: nothing before the last phase, the result at it. -/
theorem OutputInvariant.out_of_busy {s : State} (h : OutputInvariant s) (hb : s.ctl.runState = .busy) :
    s.out = if s.hidden.phase = .complete then cellsFrom 0 s.hidden.result else [] := by
  obtain ⟨hout, _⟩ := h
  by_cases hp : s.hidden.phase = .complete
  · simpa [OutputRule, hb, hp] using hout
  · simpa [OutputRule, hb, hp] using hout

/-- Settles O15: `compose` writes OUT on the way to the last phase, `complete` announces it there, and every other
shape of a next state empties OUT or leaves it. -/
theorem stepKeepsOutputRule : Obligations.StepKeepsOutputRule := by
  intro s t hout hhid hstep
  have h : OutputInvariant s := ⟨hout, hhid⟩
  show OutputInvariant t
  cases move_of_step hstep with
  | env | ctrl => exact outputInvariant_congr (s := s) rfl rfl rfl rfl h
  | desc e k d => exact outputInvariant_congr (s := s) (by simp) (by simp) (by simp) (by simp) h
  | store e space a v hb ho => exact outputInvariant_congr (s := s) (by simp) (by simp) (by simp [ho]) (by simp) h
  | reset => exact outputInvariant_at_rest (.inl rfl) rfl rfl
  | start => exact outputInvariant_running rfl nofun rfl
  | ack e hb => exact outputInvariant_acknowledge (s := { s with env := e }) hb h
  | operation e w r => exact outputInvariant_settle _ r
  | fail => exact outputInvariant_at_rest (.inr rfl) rfl rfl
  | hidden e h' hb hp hn => exact outputInvariant_running hb hn (by simpa [hp] using h.out_of_busy hb)
  | compose e bytes hb => exact outputInvariant_last_phase hb rfl rfl
  | complete e hb hp =>
    exact outputInvariant_completeOp (s := { s with env := e }) (by simpa [hp] using h.out_of_busy hb)

end Sys2Proof.Machine
end

section
/-! The state family (10_state.md): who moves in a step and what each mover may change; then the safety statements on
STATE, on the inputs while BUSY and on the one access that stops the machine. -/

namespace Sys2Proof.Machine

/-! ### The moves of the core -/

/-- What a move of a BUSY core leaves (R223, R228): the inputs stay, and the operation goes on or ends in DONE or
ERROR. -/
structure CoreMove (s t : State) : Prop where
  inputs : SameInputs s t
  runState : t.ctl.runState = .busy ∨ t.ctl.runState = .done ∨ t.ctl.runState = .error

/-- The schedule and the host's side play no part in a move of the core. -/
theorem CoreMove.of_withTurns {s t : State} {ts : List Turn} (h : CoreMove (s.withTurns ts) t) : CoreMove s t :=
  ⟨h.inputs, h.runState⟩

theorem coreMove_raiseError (r : Raise) (s : State) : CoreMove s (raiseError r s) :=
  ⟨⟨rfl, rfl, rfl, rfl, rfl, rfl⟩, .inr (.inr rfl)⟩

theorem coreMove_completeOp (len : Nat) (s : State) : CoreMove s (completeOp len s) :=
  ⟨⟨rfl, rfl, rfl, rfl, rfl, rfl⟩, .inr (.inl rfl)⟩

/-- A phase that goes on changes hidden state, and phase 10 changes OUT. -/
theorem coreMove_data {s : State} (hb : s.ctl.runState = .busy) (out : Memory) (h : Hidden) :
    CoreMove s { s with out := out, hidden := h } :=
  ⟨⟨rfl, rfl, rfl, rfl, rfl, rfl⟩, .inl hb⟩

theorem coreMove_endPhase {α : Type} {s : State} (hb : s.ctl.runState = .busy) (p : Phase) (r : Except Raise α)
    (keep : α → Hidden) : CoreMove s (endPhase p s r keep) := by
  cases r with
  | ok a => exact coreMove_data hb s.out _
  | error e => exact coreMove_raiseError e s

theorem coreMove_settle (w : Word) (s : State) (r : Except Raise (List Byte)) :
    CoreMove s (settle (startOp w s) r) := by
  cases r with
  | ok bytes => exact ⟨⟨rfl, rfl, rfl, rfl, rfl, rfl⟩, .inr (.inl rfl)⟩
  | error e => exact ⟨⟨rfl, rfl, rfl, rfl, rfl, rfl⟩, .inr (.inr rfl)⟩

/-! ### The rows of the two format fields -/

/-- A depth row delivers what the unpacker gives at its depth (R131). -/
theorem exec_depth (d : Depth) (s : State) :
    exec d.instr s = .next (deliverSamples s (unpack (rawBytes s s.hidden.image) d (currentMode s))) := by
  cases d <;> rfl

/-- A model row delivers an RGBA buffer, with the palette LUT loaded for IDX, or fails before it has one (R171). -/
theorem exec_model (m : Model) (pp : Bool) (s : State) :
    (∃ lut r, exec (m.instr pp) s = .next (deliverRgba { s with hidden := { s.hidden with lut := lut } } r)) ∨
    (∃ e, exec (m.instr pp) s = .next (raiseError e s)) := by
  cases m with
  | gray | graya | rgb | rgba => exact .inl ⟨s.hidden.lut, _, rfl⟩
  | idx =>
    simp only [Model.instr, exec, execIdx]
    split
    · exact .inr ⟨_, rfl⟩
    · exact .inl ⟨_, _, rfl⟩

/-- The end of an unpack phase: the samples stand with both counters at their totals, or the operation failed. -/
theorem deliverSamples_cases (s : State) (r : Except Err (List Byte)) :
    (∃ samples, deliverSamples s r = { s with
      hidden := { s.hidden with
        samples := samples, byteIdx := (rawBytes s s.hidden.image).length, sampleIdx := samples.length
        phase := phaseAfter s .unpack } }) ∨
    (∃ e, deliverSamples s r = raiseError e s) := by
  cases r with
  | ok samples => exact .inl ⟨samples, rfl⟩
  | error e => exact .inr ⟨_, rfl⟩

/-- The end of a normalise phase: the RGBA buffer stands with the counter at its total, or the operation failed. -/
theorem deliverRgba_cases (s : State) (r : Except Err (List Byte)) :
    (∃ rgba, deliverRgba s r = { s with
      hidden := { s.hidden with rgba := rgba, pixelIdx := rgba.length / 4, phase := phaseAfter s .normalise } }) ∨
    (∃ e, deliverRgba s r = raiseError e s) := by
  cases r with
  | ok rgba => exact .inl ⟨rgba, rfl⟩
  | error e => exact .inr ⟨_, rfl⟩

theorem coreMove_deliverSamples {s : State} (hb : s.ctl.runState = .busy) (r : Except Err (List Byte)) :
    CoreMove s (deliverSamples s r) := by
  rcases deliverSamples_cases s r with ⟨_, h⟩ | ⟨e, h⟩ <;> rw [h]
  · exact coreMove_data hb s.out _
  · exact coreMove_raiseError e s

theorem coreMove_deliverRgba {s : State} (hb : s.ctl.runState = .busy) (lut : List Rgb)
    (r : Except Err (List Byte)) :
    CoreMove s (deliverRgba { s with hidden := { s.hidden with lut := lut } } r) := by
  rcases deliverRgba_cases { s with hidden := { s.hidden with lut := lut } } r with ⟨_, h⟩ | ⟨e, h⟩ <;> rw [h]
  · exact coreMove_data hb s.out _
  · exact ⟨⟨rfl, rfl, rfl, rfl, rfl, rfl⟩, .inr (.inr rfl)⟩

/-! ### A BUSY core always answers with such a move -/

theorem phaseUnpack_coreMove {s : State} (hb : s.ctl.runState = .busy) :
    ∃ t, phaseUnpack s = .next t ∧ CoreMove s t := by
  unfold phaseUnpack
  split
  · rename_i i hi
    obtain ⟨d, rfl⟩ := decodeDepth_eq_ok hi
    exact ⟨_, exec_depth d s, coreMove_deliverSamples hb _⟩
  · exact ⟨_, rfl, coreMove_raiseError _ s⟩

theorem phaseNormalise_coreMove {s : State} (hb : s.ctl.runState = .busy) :
    ∃ t, phaseNormalise s = .next t ∧ CoreMove s t := by
  unfold phaseNormalise
  split
  · rename_i i hi
    obtain ⟨m, rfl⟩ := decodeModel_eq_ok hi
    rcases exec_model m (s.desc s.hidden.image).fmt.palPresent s with ⟨lut, r, h⟩ | ⟨e, h⟩
    · exact ⟨_, h, coreMove_deliverRgba hb lut r⟩
    · exact ⟨_, h, coreMove_raiseError e s⟩
  · exact ⟨_, rfl, coreMove_raiseError _ s⟩

theorem coreMove_phaseDecode {s : State} (hb : s.ctl.runState = .busy) : CoreMove s (phaseDecode s) := by
  unfold phaseDecode
  split
  · exact coreMove_raiseError _ s
  · exact coreMove_data hb s.out _

/-- One phase of the table of R228. -/
theorem phaseMove_coreMove {s : State} (hb : s.ctl.runState = .busy) :
    ∃ t, phaseMove s = .next t ∧ CoreMove s t := by
  unfold phaseMove
  cases s.hidden.phase with
  | decode => exact ⟨_, rfl, coreMove_phaseDecode hb⟩
  | config | size | adjustRgba | luminance | adjustAlpha => exact ⟨_, rfl, coreMove_endPhase hb _ _ _⟩
  | unpack => exact phaseUnpack_coreMove hb
  | normalise => exact phaseNormalise_coreMove hb
  | compose => exact ⟨_, rfl, coreMove_data hb _ _⟩
  | complete => exact ⟨_, rfl, coreMove_completeOp _ s⟩

/-- The latched operation at once (R229). -/
theorem wholeMove_coreMove (s : State) : ∃ t, wholeMove s = .next t ∧ CoreMove s t := by
  unfold wholeMove
  split
  · rename_i i hi
    obtain ⟨r, _, h⟩ := exec_operation (isOperation_of_decode hi) s
    exact ⟨_, h, coreMove_settle _ s r⟩
  · exact ⟨_, rfl, coreMove_raiseError _ s⟩

theorem runMove_coreMove {s : State} (hb : s.ctl.runState = .busy) : ∃ t, runMove s = .next t ∧ CoreMove s t := by
  unfold runMove
  split
  · exact wholeMove_coreMove s
  · exact phaseMove_coreMove hb

/-! ### Who moves -/

/-- The host has no access to make, or makes the one at the head of its script. -/
theorem serveHost_cases (s : State) :
    serveHost s = .next s ∨
    ∃ a rest, s.env.script = a :: rest ∧ serveHost s = hostMove a { s with env := { s.env with script := rest } } := by
  cases hs : s.env.script with
  | nil => exact .inl (by simp only [serveHost, hs])
  | cons a rest => exact .inr ⟨a, rest, rfl, serveHost_cons hs⟩

/-- WHO MOVES in a step: the core, which only a BUSY core does and which always answers; nobody; or the host with its
next access, which while BUSY takes a turn of the host. -/
theorem step_movers (s : State) :
    (s.ctl.runState = .busy ∧ ∃ t, step s = .next t ∧ CoreMove s t) ∨
    (∃ e, step s = .next { s with env := e }) ∨
    (∃ a rest e, s.env.script = a :: rest ∧ step s = hostMove a { s with env := e } ∧
      (s.ctl.runState = .busy → ∃ ts, s.env.turns = .host :: ts)) := by
  by_cases hb : s.ctl.runState = .busy
  · simp only [step, if_pos hb]
    cases ht : s.env.turns with
    | nil => exact .inl ⟨hb, runMove_coreMove hb⟩
    | cons turn ts =>
      cases turn with
      | host =>
        rcases serveHost_cases (s.withTurns ts) with h | ⟨a, rest, hs, h⟩
        · exact .inr (.inl ⟨_, h⟩)
        · exact .inr (.inr ⟨a, rest, _, hs, h, fun _ => ⟨ts, rfl⟩⟩)
      | phase =>
        obtain ⟨t, h, hc⟩ := phaseMove_coreMove (s := s.withTurns ts) hb
        exact .inl ⟨hb, t, h, hc.of_withTurns⟩
      | run =>
        obtain ⟨t, h, hc⟩ := runMove_coreMove (s := s.withTurns ts) hb
        exact .inl ⟨hb, t, h, hc.of_withTurns⟩
  · rw [step_of_not_busy hb]
    rcases serveHost_cases s with h | ⟨a, rest, hs, h⟩
    · exact .inr (.inl ⟨s.env, h⟩)
    · exact .inr (.inr ⟨a, rest, _, hs, h, fun hbusy => absurd hbusy hb⟩)

/-! ### The register port, access by access -/

/-- An offset names a register exactly when it is that register's offset (R21). -/
theorem regAt_eq_some {offset : Nat} {r : Reg} : regAt offset = some r ↔ offset = regOffset r := by
  constructor
  · intro h
    unfold regAt at h
    split at h <;> cases h <;> rfl
  · rintro rfl
    exact regAt_regOffset r

theorem regOffset_aligned (r : Reg) : regOffset r % 4 = 0 := by
  cases r with
  | width k | height k | fmt k | rawLen k | palLen k => cases k <;> rfl
  | _ => rfl

/-- An aligned write goes to the register map. -/
theorem hostMove_wr {offset : Nat} (h : offset % 4 = 0) (v : Word) (s : State) :
    hostMove (.wr offset v) s = writeOffset offset v s := by
  simp [hostMove, Access.wf, h]

/-- An aligned read returns the word of the map and changes nothing but the port (R68). -/
theorem hostMove_rd {offset : Nat} (h : offset % 4 = 0) (s : State) :
    hostMove (.rd offset) s = .next (returnWord (readOffset s offset) s) := by
  simp [hostMove, Access.wf, h]

/-- The host writes any register but CMD by `writeReg`. -/
theorem hostMove_wr_reg {r : Reg} (h : r ≠ .cmd) (v : Word) (s : State) :
    hostMove (.wr (regOffset r) v) s = .next (writeReg s r v) := by
  rw [hostMove_wr (regOffset_aligned r), writeOffset, regAt_regOffset]
  cases r <;> first | rfl | exact absurd rfl h

theorem hostMove_wr_unmapped {offset : Nat} (ha : offset % 4 = 0) (hu : regAt offset = none) (v : Word) (s : State) :
    hostMove (.wr offset v) s = .next s := by
  rw [hostMove_wr ha, writeOffset, hu]

/-- An aligned write is dropped, is the write of CMD, or is the write of another register. -/
theorem hostMove_wr_cases {offset : Nat} (ha : offset % 4 = 0) (v : Word) (s : State) :
    hostMove (.wr offset v) s = .next s ∨
    (offset = 0x00 ∧ hostMove (.wr offset v) s = commandWrite v s) ∨
    ∃ r, hostMove (.wr offset v) s = .next (writeReg s r v) := by
  cases hr : regAt offset with
  | none => exact .inl (hostMove_wr_unmapped ha hr v s)
  | some r =>
    obtain rfl := regAt_eq_some.1 hr
    by_cases hc : r = .cmd
    · subst hc
      exact .inr (.inl ⟨rfl, hostMove_cmd v s⟩)
    · exact .inr (.inr ⟨r, hostMove_wr_reg hc v s⟩)

/-- An access of the register port that is not an aligned word has no result (R33, U8). -/
theorem hostMove_of_not_wf {a : Access} (h : a.wf = false) (s : State) :
    hostMove a s = .refused .subWordRegisterAccess := by
  simp [hostMove, h]

theorem commandWrite_answers (w : Word) (s : State) : ∃ t, commandWrite w s = .next t := by
  rcases commandWrite_cases w s with h | ⟨_, h⟩ | ⟨_, h⟩ <;> exact ⟨_, h⟩

/-- Every other access has one. -/
theorem hostMove_of_wf {a : Access} (h : a.wf = true) (s : State) : ∃ t, hostMove a s = .next t := by
  cases a with
  | wr offset v =>
    rcases hostMove_wr_cases (of_decide_eq_true h) v s with hm | ⟨_, hm⟩ | ⟨_, hm⟩
    · exact ⟨_, hm⟩
    · exact hm ▸ commandWrite_answers v s
    · exact ⟨_, hm⟩
  | rd offset => exact ⟨_, hostMove_rd (of_decide_eq_true h) s⟩
  | reset | st | ld | wait => exact ⟨_, rfl⟩

/-- The accesses that are not well-formed: a register access at an offset that is no multiple of 4. -/
theorem not_wf_iff {a : Access} :
    a.wf = false ↔ ∃ offset, offset % 4 ≠ 0 ∧ ((∃ v, a = .wr offset v) ∨ a = .rd offset) := by
  cases a <;> simp [Access.wf]

/-- Settles O18: the core always answers, and so does the host's access unless it is not well-formed. -/
theorem onlySubWordAccessStops : Obligations.OnlySubWordAccessStops := by
  refine ⟨fun offset v s ho => ⟨?_, ?_⟩, fun s r hstep => ?_⟩
  · exact hostMove_of_not_wf (not_wf_iff.2 ⟨offset, ho, .inl ⟨v, rfl⟩⟩) s
  · exact hostMove_of_not_wf (not_wf_iff.2 ⟨offset, ho, .inr rfl⟩) s
  · rcases step_movers s with ⟨_, t, h, _⟩ | ⟨e, h⟩ | ⟨a, rest, e, hs, h, _⟩
    · cases h.symm.trans hstep
    · cases h.symm.trans hstep
    · cases hw : a.wf with
      | true =>
        obtain ⟨t, hm⟩ := hostMove_of_wf hw { s with env := e }
        cases hm.symm.trans (h.symm.trans hstep)
      | false =>
        cases (hostMove_of_not_wf hw { s with env := e }).symm.trans (h.symm.trans hstep)
        obtain ⟨offset, ho, ha⟩ := not_wf_iff.1 hw
        refine ⟨rfl, offset, rest, ho, ?_⟩
        rcases ha with ⟨v, rfl⟩ | rfl
        · exact .inl ⟨v, hs⟩
        · exact .inr hs

/-! ### What the host's accesses do to STATE and to the inputs -/

/-- A register write other than that of CMD keeps STATE. -/
theorem writeReg_runState (s : State) (r : Reg) (v : Word) : (writeReg s r v).ctl.runState = s.ctl.runState := by
  rcases writeReg_cases s r v with h | h | ⟨_, k, d, h⟩ <;> rw [h]
  rw [setDesc_ctl]

theorem hostStore_runState (s : State) (space : Space) (a : Nat) (v : Byte) :
    (hostStore s space a v).ctl.runState = s.ctl.runState := by
  rcases hostStore_cases s space a v with ⟨_, h⟩ | ⟨_, _, _, h⟩ <;> rw [h]
  rw [setMem_ctl]

theorem waitMove_frame (s : State) : waitMove s = { s with env := (waitMove s).env } := by
  unfold waitMove
  split <;> rfl

/-- What a write of CMD does to STATE (R27, R220): nothing, ACK leaves DONE or ERROR, or an operation starts. -/
theorem commandWrite_runState {w : Word} {s t : State} (h : commandWrite w s = .next t) :
    t.ctl.runState = s.ctl.runState ∨
    (s.ctl.runState ≠ .busy ∧ t.ctl.runState = .busy ∧ w ≠ encode .nop ∧ w ≠ encode .ack) ∨
    ((s.ctl.runState = .done ∨ s.ctl.runState = .error) ∧ t.ctl.runState = .idle ∧ w = encode .ack) := by
  unfold commandWrite at h
  split at h
  · cases h; exact .inl rfl
  · split at h
    · cases h; exact .inl rfl
    · split at h
      · cases h
        rcases acknowledge_cases s with ⟨_, _, ha⟩ | ⟨hs, ha⟩ <;> rw [ha]
        · exact .inl rfl
        · exact .inr (.inr ⟨hs, rfl, ‹_›⟩)
      · cases h; exact .inr (.inl ⟨‹_›, rfl, ‹_›, ‹_›⟩)

/-- What an access of the host does to STATE (R27). -/
theorem hostMove_runState {a : Access} {s t : State} (h : hostMove a s = .next t) :
    t.ctl.runState = s.ctl.runState ∨
    (s.ctl.runState ≠ .busy ∧ t.ctl.runState = .busy ∧
      ∃ w, a = .wr 0x00 w ∧ w ≠ encode .nop ∧ w ≠ encode .ack) ∨
    ((s.ctl.runState = .done ∨ s.ctl.runState = .error) ∧ t.ctl.runState = .idle ∧ a = .wr 0x00 (encode .ack)) ∨
    (t.ctl.runState = .idle ∧ a = .reset) := by
  cases hw : a.wf with
  | false => cases (hostMove_of_not_wf hw s).symm.trans h
  | true =>
    cases a with
    | reset => cases h; exact .inr (.inr (.inr ⟨rfl, rfl⟩))
    | wr offset v =>
      rcases hostMove_wr_cases (of_decide_eq_true hw) v s with hm | ⟨rfl, hm⟩ | ⟨r, hm⟩ <;> rw [hm] at h
      · cases h; exact .inl rfl
      · rcases commandWrite_runState h with hk | ⟨hs, ht, hn, ha⟩ | ⟨hs, ht, rfl⟩
        · exact .inl hk
        · exact .inr (.inl ⟨hs, ht, v, rfl, hn, ha⟩)
        · exact .inr (.inr (.inl ⟨hs, ht, rfl⟩))
      · cases h; exact .inl (writeReg_runState s r v)
    | rd offset =>
      rw [hostMove_rd (of_decide_eq_true hw)] at h
      cases h; exact .inl rfl
    | st space address v => cases h; exact .inl (hostStore_runState s space address v)
    | ld space address => cases h; rw [hostLoad_frame]; exact .inl rfl
    | wait => cases h; rw [waitMove_frame]; exact .inl rfl

/-- Settles O16: the core's moves end in BUSY, DONE or ERROR, and the host changes STATE by a write of CMD or by
reset. -/
theorem stateChangesOnlyByListedEvents : Obligations.StateChangesOnlyByListedEvents := by
  intro s t hstep
  rcases step_movers s with ⟨hb, u, h, hc⟩ | ⟨e, h⟩ | ⟨a, rest, e, hs, h, _⟩
  · cases h.symm.trans hstep
    rcases hc.runState with hr | hr
    · exact .inl (hr.trans hb.symm)
    · exact .inr (.inr (.inl ⟨hb, hr⟩))
  · cases h.symm.trans hstep
    exact .inl rfl
  · rcases hostMove_runState (h.symm.trans hstep) with hk | ⟨hn, ht, w, rfl, hw⟩ | ⟨hd, ht, rfl⟩ | ⟨ht, rfl⟩
    · exact .inl hk
    · exact .inr (.inl ⟨hn, ht, w, rest, hs, hw⟩)
    · exact .inr (.inr (.inr (.inl ⟨hd, ht, rest, hs⟩)))
    · exact .inr (.inr (.inr (.inr ⟨ht, rest, hs⟩)))

/-- While BUSY the host's next state differs in CTRL and in the host's side only, but for the reset event (R42, R71,
R227). -/
theorem hostMove_frame_of_busy {a : Access} {s t : State} (hb : s.ctl.runState = .busy) (h : hostMove a s = .next t) :
    t = { s with ctl := t.ctl, env := t.env } ∨ a = .reset := by
  cases hw : a.wf with
  | false => cases (hostMove_of_not_wf hw s).symm.trans h
  | true =>
    cases a with
    | reset => exact .inr rfl
    | wr offset v =>
      rcases hostMove_wr_cases (of_decide_eq_true hw) v s with hm | ⟨_, hm⟩ | ⟨r, hm⟩ <;> rw [hm] at h
      · cases h; exact .inl rfl
      · rw [commandWrite, if_pos hb] at h
        cases h; exact .inl rfl
      · cases h
        rcases writeReg_cases s r v with hr | hr | ⟨hn, _⟩
        · rw [hr]; exact .inl rfl
        · rw [hr]; exact .inl rfl
        · exact absurd hb hn
    | rd offset =>
      rw [hostMove_rd (of_decide_eq_true hw)] at h
      cases h; exact .inl rfl
    | st space address v =>
      cases h
      rcases hostStore_cases s space address v with ⟨_, hm⟩ | ⟨hn, _⟩
      · rw [hm]; exact .inl rfl
      · exact absurd hb hn
    | ld space address => cases h; rw [hostLoad_frame]; exact .inl rfl
    | wait => cases h; rw [waitMove_frame]; exact .inl rfl

/-- Settles O17: the core's moves leave the inputs, and so does every access of the host but reset. -/
theorem inputsCannotChangeWhileBusy : Obligations.InputsCannotChangeWhileBusy := by
  intro s t hb hstep
  rcases step_movers s with ⟨_, u, h, hc⟩ | ⟨e, h⟩ | ⟨a, rest, e, hs, h, hturn⟩
  · cases h.symm.trans hstep
    exact .inl hc.inputs
  · cases h.symm.trans hstep
    exact .inl ⟨rfl, rfl, rfl, rfl, rfl, rfl⟩
  · rcases hostMove_frame_of_busy (s := { s with env := e }) hb (h.symm.trans hstep) with ht | rfl
    · rw [ht]
      exact .inl ⟨rfl, rfl, rfl, rfl, rfl, rfl⟩
    · obtain ⟨ts, ht⟩ := hturn hb
      exact .inr ⟨rest, ts, hs, ht⟩

/-! ### The progress counters -/

theorem eq_instr_of_depthKind {i : Instr} (h : i.kind = .depth) : ∃ d, i = Depth.instr d := by
  cases i with
  | d1 => exact ⟨.d1, rfl⟩
  | d2 => exact ⟨.d2, rfl⟩
  | d4 => exact ⟨.d4, rfl⟩
  | d8 => exact ⟨.d8, rfl⟩
  | d16 => exact ⟨.d16, rfl⟩
  | _ => cases h

theorem eq_instr_of_modelKind {i : Instr} (h : i.kind = .model) : ∃ m pp, i = Model.instr pp m := by
  cases i with
  | gray => exact ⟨.gray, false, rfl⟩
  | graya => exact ⟨.graya, false, rfl⟩
  | rgb => exact ⟨.rgb, false, rfl⟩
  | rgba => exact ⟨.rgba, false, rfl⟩
  | idx pp => exact ⟨.idx, pp, rfl⟩
  | _ => cases h

theorem raiseError_not_busy (e : Raise) (s : State) : (raiseError e s).ctl.runState ≠ .busy := nofun

/-- Settles O43: a phase that leaves the core BUSY delivered, and a delivery sets its counters. -/
theorem phasesSetTheProgressCounters : Obligations.PhasesSetTheProgressCounters := by
  intro i s t _ hexec ht
  constructor
  · intro hi
    obtain ⟨d, rfl⟩ := eq_instr_of_depthKind hi
    cases (exec_depth d s).symm.trans hexec
    rcases deliverSamples_cases s _ with ⟨samples, h⟩ | ⟨e, h⟩ <;> rw [h] at ht ⊢
    · exact ⟨rawBytes_length s s.hidden.image, rfl⟩
    · exact absurd ht (raiseError_not_busy e s)
  · intro hi
    obtain ⟨m, pp, rfl⟩ := eq_instr_of_modelKind hi
    rcases exec_model m pp s with ⟨lut, r, hm⟩ | ⟨e, hm⟩ <;> cases hm.symm.trans hexec
    · rcases deliverRgba_cases { s with hidden := { s.hidden with lut := lut } } r with ⟨rgba, h⟩ | ⟨e, h⟩ <;>
        rw [h] at ht ⊢
      exact absurd ht (raiseError_not_busy e _)
    · exact absurd ht (raiseError_not_busy e s)

end Sys2Proof.Machine
end

section
/-! The state family (10_state.md): reset meets the invariants, the STATUS word, and the register map with what its
writes store. -/

namespace Sys2Proof.Machine

/-! ### Reset -/

/-- Settles O12: reset is at rest, with every memory empty. -/
theorem resetStateMeetsTheInvariants : Obligations.ResetStateMeetsTheInvariants := by
  obtain ⟨hout, hhid⟩ := outputInvariant_at_rest (t := State.reset) (.inl rfl) rfl rfl
  have memEmpty (space : Space) : State.reset.mem space = [] := by cases space <;> rfl
  refine ⟨statusRules_cleared (.inl rfl) rfl rfl rfl rfl, hhid, ⟨fun space => ?_, fun space _ => ?_⟩, hout⟩
  · rw [memEmpty]; rfl
  · simp [memEmpty]

/-! ### The STATUS word -/

/-- Three codes packed at bits 1:0, 7:4 and 9:8 come back from there, and every other bit is 0 (R23). -/
theorem packedCodes_fields : ∀ (state : BitVec 2) (err : BitVec 4) (img : BitVec 2),
    let word : Word := state.setWidth 32 ||| (err.setWidth 32 <<< 4) ||| (img.setWidth 32 <<< 8)
    word.extractLsb' 0 2 = state ∧ word.extractLsb' 4 4 = err ∧ word.extractLsb' 8 2 = img ∧
      word &&& 0xFFFFFC0C#32 = 0#32 := by
  decide

/-- Settles O8: STATUS packs the three codes, and each code is the number of its value. -/
theorem statusWordHoldsItsFields : Obligations.StatusWordHoldsItsFields := by
  intro s
  obtain ⟨hstate, herr, himg, hrest⟩ :=
    packedCodes_fields s.ctl.runState.code (errCode s.ctl.err) (errImgCode s.ctl.errImg)
  refine ⟨rfl, hstate, herr, himg, hrest, hstate.trans ?_, herr.trans ?_, himg.trans ?_⟩
  · cases s.ctl.runState <;> rfl
  · rcases s.ctl.err with _ | code
    · rfl
    · cases code <;> rfl
  · rcases s.ctl.errImg with _ | k
    · rfl
    · cases k <;> rfl

/-! ### Reads and dropped writes -/

theorem readOffset_regOffset (s : State) (r : Reg) : readOffset s (regOffset r) = readReg s r := by
  simp [readOffset]

theorem readOffset_unmapped {offset : Nat} (h : regAt offset = none) (s : State) : readOffset s offset = 0#32 := by
  simp [readOffset, h]

/-- The host's read of a register (R42, R68). -/
theorem hostMove_rd_reg (r : Reg) (s : State) :
    hostMove (.rd (regOffset r)) s = .next (returnWord (readReg s r) s) := by
  rw [hostMove_rd (regOffset_aligned r), readOffset_regOffset]

/-- While BUSY every register but CTRL drops a write (R42). -/
theorem writeReg_of_busy {s : State} {r : Reg} (hb : s.ctl.runState = .busy) (hr : r ≠ .ctrl) (v : Word) :
    writeReg s r v = s := by
  cases r with
  | cmd | status | outLen | errPos => rfl
  | ctrl => exact absurd rfl hr
  | width | height | fmt | rawLen | palLen => exact if_pos hb

/-- Settles O20: BUSY drops the writes of CMD, of the descriptors and of the buffers; a read is `hostMove_rd_reg`. -/
theorem busyDropsHostWrites : Obligations.BusyDropsHostWrites := by
  intro s
  refine ⟨fun hb => ⟨fun r v hr => ?_, fun space a v => ?_⟩, fun r => ?_, fun a v => ?_⟩
  · by_cases hc : r = .cmd
    · subst hc
      exact (hostMove_cmd v s).trans (if_pos hb)
    · rw [hostMove_wr_reg hc, writeReg_of_busy hb hr]
  · exact congrArg _ (if_pos hb)
  · exact ⟨_, hostMove_rd_reg r s, rfl, rfl⟩
  · rcases hostStore_cases s .out a v with ⟨_, h⟩ | ⟨_, ho, _⟩
    · exact congrArg _ h
    · exact absurd rfl ho

/-- Settles O22: an unmapped offset names no register, and the read-only registers ignore a write. -/
theorem unmappedAndReadOnlyOffsets : Obligations.UnmappedAndReadOnlyOffsets := by
  refine ⟨fun s offset ha hu => ?_, fun s v => ?_, fun r => ?_⟩
  · have hn := regAt_unmapped hu
    have hread := hostMove_rd ha s
    rw [readOffset_unmapped hn] at hread
    exact ⟨readOffset_unmapped hn s, fun v => hostMove_wr_unmapped ha hn v s, _, hread, rfl, rfl⟩
  · exact ⟨rfl, hostMove_wr_reg (r := .status) nofun v s, hostMove_wr_reg (r := .outLen) nofun v s,
      hostMove_wr_reg (r := .errPos) nofun v s, _, hostMove_rd_reg .cmd s, rfl, rfl⟩
  · cases r with
    | width k | height k | fmt k | rawLen k | palLen k => cases k <;> rfl
    | _ => rfl

/-! ### The bits a register stores -/

/-- The bits of a format word (R30, R94). -/
theorem formatWord_getElem (f : FormatFields) {i : Nat} (hi : i < 32) :
    (formatWord f)[i] =
      (f.depth.getLsbD i || (decide (8 ≤ i) && f.model.getLsbD (i - 8)) || (f.palPresent && decide (i = 16))) := by
  have flag : ∀ i (hi : i < 32) (b : Bool), (if b then 0x00010000#32 else 0#32)[i] = (b && decide (i = 16)) := by decide
  rw [formatWord, BitVec.getElem_or, BitVec.getElem_or, flag]
  simp only [BitVec.getElem_setWidth, BitVec.getElem_shiftLeft]
  grind

/-- What IMGk_FMT stores of a written word: its three fields (R94, R100). -/
theorem formatWord_formatFields (v : Word) : formatWord (formatFields v) = v &&& 0x0001071F#32 := by
  have mask : ∀ i (hi : i < 32), (0x0001071F#32)[i] =
      (decide (i < 5) || (decide (8 ≤ i) && decide (i < 11)) || decide (i = 16)) := by decide
  ext i hi
  rw [formatWord_getElem, BitVec.getElem_and, mask i hi]
  simp only [formatFields, BitVec.getLsbD_extractLsb', zero_add]
  grind

/-- What CTRL stores of a written word: bit 0 (R24). -/
theorem ctrlWord_of_bit (v : Word) : (if v.getLsbD 0 then 1#32 else 0#32) = v &&& 0x00000001#32 := by
  ext i hi
  simp only [BitVec.getElem_and, BitVec.getElem_one]
  grind

/-! ### A written register reads back -/

/-- Replacing the descriptor of image `k` is seen only by the registers of that image whose value differs. -/
theorem readReg_setDesc {s : State} {k : Img} {d : Desc} {q : Reg}
    (width : q = .width k → d.width = (s.desc k).width) (height : q = .height k → d.height = (s.desc k).height)
    (fmt : q = .fmt k → d.fmt = (s.desc k).fmt) (rawLen : q = .rawLen k → d.rawLen = (s.desc k).rawLen)
    (palLen : q = .palLen k → d.palLen = (s.desc k).palLen) :
    readReg (s.setDesc k d) q = readReg s q := by
  cases q with
  | cmd | status | ctrl | outLen | errPos => simp [readReg, statusWord, ctrlWord]
  | width j | height j | fmt j | rawLen j | palLen j =>
    by_cases hj : j = k
    · subst hj
      simp_all [readReg]
    · simp [readReg, hj]

/-- A descriptor register written while STATE is not BUSY: one descriptor changes, the register reads back what it
stores, and every other register keeps its value (R28 to R32). -/
theorem writeReg_descReg {s : State} {r : Reg} (hr : isDescReg r = true) (hb : s.ctl.runState ≠ .busy) (v : Word) :
    ∃ k d, writeReg s r v = s.setDesc k d ∧ readReg (s.setDesc k d) r = storedPart r v ∧
      ∀ q, q ≠ r → readReg (s.setDesc k d) q = readReg s q := by
  have same {α : Prop} {β : Type} (b : β) : α → b = b := fun _ => rfl
  cases r with
  | width k =>
    exact ⟨k, { s.desc k with width := v }, if_neg hb, by simp [readReg, storedPart], fun q hq =>
      readReg_setDesc (absurd · hq) (same _) (same _) (same _) (same _)⟩
  | height k =>
    exact ⟨k, { s.desc k with height := v }, if_neg hb, by simp [readReg, storedPart], fun q hq =>
      readReg_setDesc (same _) (absurd · hq) (same _) (same _) (same _)⟩
  | fmt k =>
    exact ⟨k, { s.desc k with fmt := formatFields v }, if_neg hb, by simp [readReg, storedPart, formatWord_formatFields],
      fun q hq => readReg_setDesc (same _) (same _) (absurd · hq) (same _) (same _)⟩
  | rawLen k =>
    exact ⟨k, { s.desc k with rawLen := v }, if_neg hb, by simp [readReg, storedPart], fun q hq =>
      readReg_setDesc (same _) (same _) (same _) (absurd · hq) (same _)⟩
  | palLen k =>
    exact ⟨k, { s.desc k with palLen := v }, if_neg hb, by simp [readReg, storedPart], fun q hq =>
      readReg_setDesc (same _) (same _) (same _) (same _) (absurd · hq)⟩
  | cmd | status | ctrl | outLen | errPos => cases hr

/-- A write of CTRL is seen by CTRL only (R24). -/
theorem readReg_writeReg_ctrl (s : State) (v : Word) {q : Reg} (hq : q ≠ .ctrl) :
    readReg (writeReg s .ctrl v) q = readReg s q := by
  cases q with
  | ctrl => exact absurd rfl hq
  | cmd | status | outLen | errPos => rfl
  | width k | height k | fmt k | rawLen k | palLen k => cases k <;> rfl

/-- Settles O21: a descriptor write replaces one field of one descriptor, and a write of CTRL sets IE. -/
theorem registerWriteReadsBack : Obligations.RegisterWriteReadsBack := by
  rintro s r v (⟨hd, hb⟩ | rfl)
  · obtain ⟨k, d, hw, hback, hother⟩ := writeReg_descReg hd hb v
    have hm : hostMove (.wr (regOffset r) v) s = .next (s.setDesc k d) :=
      hw ▸ hostMove_wr_reg (by rintro rfl; cases hd) v s
    exact ⟨_, hm, hback, hother, fun space => byteAt_congr (setDesc_mem s k d space) (by rw [setDesc_env]),
      setDesc_hidden s k d, setDesc_env s k d⟩
  · exact ⟨_, hostMove_wr_reg (r := .ctrl) nofun v s, ctrlWord_of_bit v, fun q hq => readReg_writeReg_ctrl s v hq,
      fun space => byteAt_congr (by cases space <;> rfl) rfl, rfl, rfl⟩

end Sys2Proof.Machine
end

section
/-! The memory family (20_memory.md): what an instruction leaves of the state, the host's accesses to a buffer byte, and
the address arithmetic of the unpacker. -/

namespace Sys2Proof.Machine

/-! ### What an instruction leaves -/

/-- Everything an instruction leaves (R61, R223): the status, OUT and the hidden state apart, `t` is `s`, and CTRL
stays. -/
structure InstrFrame (s t : State) : Prop where
  rest : t = { s with ctl := t.ctl, out := t.out, hidden := t.hidden }
  ie : t.ctl.ie = s.ctl.ie

theorem InstrFrame.inputs {s t : State} (h : InstrFrame s t) : SameInputs s t := by
  rw [h.rest]
  exact ⟨rfl, rfl, rfl, rfl, rfl, rfl⟩

theorem InstrFrame.params {s t : State} (h : InstrFrame s t) : t.params = s.params := by rw [h.rest]

theorem InstrFrame.env {s t : State} (h : InstrFrame s t) : t.env = s.env := by rw [h.rest]

theorem instrFrame_refl (s : State) : InstrFrame s s := ⟨rfl, rfl⟩

theorem instrFrame_raiseError (e : Raise) (s : State) : InstrFrame s (raiseError e s) := ⟨rfl, rfl⟩

theorem instrFrame_acknowledge (s : State) : InstrFrame s (acknowledge s) := by
  rcases acknowledge_cases s with ⟨_, _, h⟩ | ⟨_, h⟩ <;> rw [h]
  · exact instrFrame_refl s
  · exact ⟨rfl, rfl⟩

theorem instrFrame_settle (w : Word) (s : State) (r : Except Raise (List Byte)) :
    InstrFrame s (settle (startOp w s) r) := by
  cases r <;> exact ⟨rfl, rfl⟩

theorem instrFrame_deliverSamples (s : State) (r : Except Err (List Byte)) : InstrFrame s (deliverSamples s r) := by
  rcases deliverSamples_cases s r with ⟨_, h⟩ | ⟨e, h⟩ <;> rw [h]
  · exact ⟨rfl, rfl⟩
  · exact instrFrame_raiseError e s

theorem instrFrame_deliverRgba (s : State) (lut : List Rgb) (r : Except Err (List Byte)) :
    InstrFrame s (deliverRgba { s with hidden := { s.hidden with lut := lut } } r) := by
  rcases deliverRgba_cases { s with hidden := { s.hidden with lut := lut } } r with ⟨_, h⟩ | ⟨_, h⟩ <;> rw [h] <;>
    exact ⟨rfl, rfl⟩

theorem exec_depth_frame (d : Depth) (s : State) : ∃ t, exec d.instr s = .next t ∧ InstrFrame s t :=
  ⟨_, exec_depth d s, instrFrame_deliverSamples s _⟩

theorem exec_model_frame (m : Model) (pp : Bool) (s : State) :
    ∃ t, exec (m.instr pp) s = .next t ∧ InstrFrame s t := by
  rcases exec_model m pp s with ⟨lut, r, h⟩ | ⟨e, h⟩
  · exact ⟨_, h, instrFrame_deliverRgba s lut r⟩
  · exact ⟨_, h, instrFrame_raiseError e s⟩

theorem exec_operation_frame {i : Instr} (hi : i.isOperation = true) (s : State) :
    ∃ t, exec i s = .next t ∧ InstrFrame s t := by
  obtain ⟨r, _, h⟩ := exec_operation hi s
  exact ⟨_, h, instrFrame_settle _ s r⟩

/-- Every row of the table answers a next state within the frame. -/
theorem exec_frame (i : Instr) (s : State) : ∃ t, exec i s = .next t ∧ InstrFrame s t := by
  cases hk : i.kind with
  | depth =>
    obtain ⟨d, rfl⟩ := eq_instr_of_depthKind hk
    exact exec_depth_frame d s
  | model =>
    obtain ⟨m, pp, rfl⟩ := eq_instr_of_modelKind hk
    exact exec_model_frame m pp s
  | command =>
    cases i with
    | nop => exact ⟨s, rfl, instrFrame_refl s⟩
    | ack => exact ⟨_, rfl, instrFrame_acknowledge s⟩
    | merge | unpack | norm | mask => exact exec_operation_frame rfl s
    | _ => cases hk

/-- Settles O19: an instruction touches the status, OUT and the hidden state only. -/
theorem instructionsKeepTheInputs : Obligations.InstructionsKeepTheInputs := by
  intro i s
  obtain ⟨t, h, frame⟩ := exec_frame i s
  exact ⟨t, h, frame.inputs, frame.ie, frame.params, frame.env⟩

/-! ### The host writes a byte of a buffer -/

theorem hostMove_st (space : Space) (a : Nat) (v : Byte) (s : State) :
    hostMove (.st space a v) s = .next (hostStore s space a v) := rfl

theorem byteAt_write_same (s : State) (space : Space) (a : Nat) (v : Byte) :
    byteAt (s.setMem space (Memory.write (s.mem space) a v)) space a = v := by
  simp [byteAt]

/-- A written byte is no other byte: not one at another address, not one of another space (R70). -/
theorem byteAt_write_other (s : State) {space sp : Space} {a x : Nat} (v : Byte) (h : (sp, x) ≠ (space, a)) :
    byteAt (s.setMem space (Memory.write (s.mem space) a v)) sp x = byteAt s sp x := by
  by_cases hs : sp = space
  · subst hs
    have hx : x ≠ a := fun hx => h (hx ▸ rfl)
    simp [byteAt, read_write_other _ v hx]
  · exact byteAt_congr (setMem_mem_other hs) (by rw [setMem_env]) x

/-- Settles O23: the store is the write of one byte of one memory below the capacity, and is dropped from there on. -/
theorem bufferWriteReadsBack : Obligations.BufferWriteReadsBack := by
  intro s space a v hb ho
  rw [hostMove_st]
  rcases hostStore_cases s space a v with ⟨hdrop, h⟩ | ⟨_, _, ha, h⟩ <;> rw [h]
  · have hcap : s.params.capacity space ≤ a := (hdrop.resolve_left hb).resolve_left ho
    exact ⟨fun ha => absurd ha hcap.not_gt, fun _ => rfl⟩
  · refine ⟨fun _ => ⟨_, rfl, byteAt_write_same s space a v, fun sp x => byteAt_write_other s v, ?_⟩,
      fun hcap => absurd ha hcap.not_gt⟩
    exact ⟨setMem_ctl _ _ _, setMem_img1 _ _ _, setMem_img2 _ _ _, setMem_hidden _ _ _, setMem_env _ _ _⟩

/-! ### The host reads a byte of a buffer -/

theorem hostMove_ld (space : Space) (a : Nat) (s : State) : hostMove (.ld space a) s = .next (hostLoad s space a) := rfl

/-- The bytes a host read returns: those below the capacity while STATE is not BUSY, of OUT the valid ones (R70, R72,
R76). -/
theorem readable_iff {s : State} {space : Space} {a : Nat} :
    readable s space a = true ↔ s.ctl.runState ≠ .busy ∧ a < s.params.capacity space ∧
      (space = .out → s.ctl.runState = .done ∧ a < s.ctl.outLen.toNat) := by
  simp only [readable, Bool.and_eq_true, Bool.or_eq_true, decide_eq_true_eq, and_assoc, imp_iff_not_or]

theorem hostLoad_of_readable {s : State} {space : Space} {a : Nat} (h : readable s space a = true) :
    (hostLoad s space a).env = { s.env with bufData := byteAt s space a } := by
  rw [hostLoad, if_pos h]

theorem hostLoad_of_not_readable {s : State} {space : Space} {a : Nat} (h : ¬ readable s space a = true) :
    (hostLoad s space a).env =
      { s.env with bufData := Config.freeByte s.env.draws, draws := s.env.draws + 1 } := by
  rw [hostLoad, if_neg h]

/-- After the reset event no byte has a value, so each reads as its draw of the new epoch (R273). -/
theorem byteAt_resetEvent (s : State) (space : Space) (a : Nat) :
    byteAt (resetEvent s) space a = Config.powerOnByte (s.env.epoch + 1) space a := by
  simp [byteAt, Memory.read]

/-- Settles O24: the first two cases of a read are readable bytes, the third is every other byte. -/
theorem bufferReadReturnsTheByteOrAFreeValue : Obligations.BufferReadReturnsTheByteOrAFreeValue := by
  refine ⟨fun s t space a h => ?_, fun s space a => ⟨_, hostMove_ld space a s, hostLoad_frame s space a, ?_, ?_, ?_⟩⟩
  · cases h
    exact byteAt_resetEvent s space a
  · exact fun hb ha ho => hostLoad_of_readable (readable_iff.2 ⟨hb, ha, fun h => absurd h ho⟩)
  · rintro hd ha hl rfl
    exact hostLoad_of_readable (readable_iff.2 ⟨by simp [hd], ha, fun _ => ⟨hd, hl⟩⟩)
  · refine fun hno => hostLoad_of_not_readable fun hr => ?_
    obtain ⟨hb, ha, valid⟩ := readable_iff.1 hr
    rcases hno with hbusy | hcap | ⟨ho, hn | hlen⟩
    · exact hb hbusy
    · exact hcap.not_gt ha
    · exact hn (valid ho).1
    · exact hlen.not_gt (valid ho).2

/-! ### The addresses the unpacker reads -/

/-- Sample `p` of the double loop of R131 is group `p mod 8/n` of byte `p div 8/n` (R79). -/
theorem getElem?_groupSamples_of_lt (mode : Mode) {n p : Nat} {bytes : List Byte}
    (hp : p < (groupSamples mode n bytes).length) :
    ∃ b, bytes[p / (8 / n)]? = some b ∧
      (groupSamples mode n bytes)[p]? = some (sampleOf mode n (groupValue n b (p % (8 / n)))) := by
  rw [groupSamples_length] at hp
  have perByte : 0 < 8 / n := Nat.pos_of_ne_zero fun h => by simp [h] at hp
  have hb : bytes[p / (8 / n)]? = some _ := List.getElem?_eq_getElem (Nat.div_lt_of_lt_mul hp)
  have h := getElem?_groupSamples mode hb (Nat.mod_lt p perByte)
  rw [Nat.div_add_mod] at h
  exact ⟨_, hb, h⟩

/-- Settles O29: depths 1, 2 and 4 are the double loop, depth 8 is the bytes, depth 16 the first byte of each pair. -/
theorem unpackFollowsTheAddressArithmetic : Obligations.UnpackFollowsTheAddressArithmetic := by
  intro bytes d mode samples h
  refine ⟨unpack_length h, fun p hp => ?_⟩
  cases d with
  | d1 | d2 | d4 =>
    cases h
    exact getElem?_groupSamples_of_lt mode hp
  | d8 =>
    cases h
    rfl
  | d16 =>
    simp only [unpack, samplesD16] at h
    split at h
    · cases h
    · cases h
      rw [highBytes_length] at hp
      exact (highBytes_spec bytes).2 p hp

end Sys2Proof.Machine
end

section
/-! The encoding family (30_encoding.md): the command decoder inverts the encoder, and which command words are illegal;
the two fields of the format word, with the words written out from the tables. -/

namespace Sys2Proof.Machine

/-! ### The command word -/

/-- The command decoder answers with a command (R92). -/
theorem kind_of_decodeCommand {w : Word} {i : Instr} (h : decodeCommand w = .ok i) : i.kind = .command := by
  have without {sel : BitVec 1} {j : Instr} (hj : j.kind = .command) (h : withoutSel sel j = .ok i) :
      i.kind = .command := by
    obtain ⟨_, rfl⟩ := withoutSel_eq_ok.1 h
    exact hj
  simp only [decodeCommand] at h
  split at h
  · cases h
  · split at h
    · exact without rfl h
    · exact without rfl h
    · cases h; rfl
    · cases h; rfl
    · cases h; rfl
    · exact without rfl h
    · cases h

/-- The word of a command decodes to it (R92, R93). -/
theorem decodeCommand_encode {i : Instr} (h : i.kind = .command) : decodeCommand (encode i) = .ok i := by
  cases i with
  | nop | merge | ack => rfl
  | unpack k | norm k | mask k => cases k <;> rfl
  | _ => cases h

/-- Settles O1: the decoder answers only with commands and only for their words, and answers for each such word. -/
theorem commandDecodeInvertsEncode : Obligations.CommandDecodeInvertsEncode := by
  refine fun w i => ⟨fun h => ⟨kind_of_decodeCommand h, encode_of_decodeCommand h⟩, ?_⟩
  rintro ⟨hk, rfl⟩
  exact decodeCommand_encode hk

/-! ### The illegal command words -/

/-- A command that takes no SEL has a word exactly with SEL = 0 (R93). -/
theorem exists_withoutSel_eq_ok {sel : BitVec 1} {j : Instr} : (∃ i, withoutSel sel j = .ok i) ↔ sel = 0#1 := by
  simp [withoutSel_eq_ok]

/-- The three checks of a command word, one per field (R98). -/
theorem commandFields_wf_iff {f : CommandFields} : f.wf = true ↔
    (f.op.toNat ≤ 4 ∨ f.op.toNat = 15) ∧ f.zero = 0#27 ∧ (f.sel = 0#1 ∨ 2 ≤ f.op.toNat ∧ f.op.toNat ≤ 4) := by
  simp only [CommandFields.wf, CommandFields.opLegal, CommandFields.selLegal, Bool.and_eq_true, Bool.or_eq_true,
    decide_eq_true_eq, and_assoc]

/-- The words the decoder takes are those with legal fields (R98). -/
theorem exists_decodeCommand_eq_ok {w : Word} : (∃ i, decodeCommand w = .ok i) ↔ (commandFields w).wf = true := by
  simp only [decodeCommand, commandFields_wf_iff]
  split
  · rename_i hz
    simp [hz]
  · rename_i hz
    have hz := not_not.1 hz
    split
    case h_7 =>
      simp only [reduceCtorEq, exists_false, false_iff]
      rintro ⟨op_legal, _⟩
      grind
    all_goals
      rename_i ho
      simp [exists_withoutSel_eq_ok, hz, ho]

/-- OP as the low four bits of the word (R91). -/
theorem and_opMask_toNat (w : Word) : (w &&& 0xF#32).toNat = (commandFields w).op.toNat := by
  simp only [commandFields, BitVec.toNat_and, BitVec.extractLsb'_toNat, Nat.shiftRight_zero]
  exact Nat.and_two_pow_sub_one_eq_mod w.toNat 4

/-- SEL as bit 4 of the word (R91). -/
theorem getLsbD_selBit (w : Word) : w.getLsbD 4 = true ↔ (commandFields w).sel ≠ 0#1 := by
  have bit : ∀ sel : BitVec 1, sel.getLsbD 0 = true ↔ sel ≠ 0#1 := by decide
  rw [← bit]
  simp [commandFields]

/-- ZERO as the word without its low five bits (R91). -/
theorem shiftRight_eq_zero_iff (w : Word) : w >>> 5 = 0#32 ↔ (commandFields w).zero = 0#27 := by
  simp only [← BitVec.toNat_inj, commandFields, BitVec.toNat_ushiftRight, BitVec.extractLsb'_toNat,
    Nat.shiftRight_eq_div_pow, BitVec.toNat_ofNat]
  omega

/-- Which words no command has, over the three fields (R98). -/
theorem not_decodeCommand_iff {w : Word} : (∀ i, decodeCommand w ≠ .ok i) ↔
    (5 ≤ (commandFields w).op.toNat ∧ (commandFields w).op.toNat ≤ 14) ∨ (commandFields w).zero ≠ 0#27 ∨
      ((commandFields w).sel ≠ 0#1 ∧ (commandFields w).op.toNat ∈ [0, 1, 15]) := by
  rw [← not_exists, exists_decodeCommand_eq_ok, commandFields_wf_iff]
  have op_lt : (commandFields w).op.toNat < 16 := (commandFields w).op.isLt
  simp only [List.mem_cons, List.not_mem_nil, or_false]
  grind

/-! ### How an illegal command word ends -/

/-- A word that is not that of NOP or ACK starts an operation (R220, R221). -/
theorem commandWrite_start {w : Word} {s : State} (hb : s.ctl.runState ≠ .busy) (hn : w ≠ encode .nop)
    (ha : w ≠ encode .ack) : commandWrite w s = .next (startOp w s) := by
  simp only [commandWrite, if_neg hb, if_neg hn, if_neg ha]

theorem started_startOp (w : Word) (s : State) : Started w s (startOp w s) := ⟨rfl, rfl, rfl, rfl⟩

theorem decodeOperation_of_illegal {w : Word} (h : ∀ i, decodeCommand w ≠ .ok i) : decodeOperation w = none := by
  unfold decodeOperation
  split
  · exact absurd ‹_› (h _)
  · rfl

/-- The decode of an illegal latched word is the end of its operation (R226). -/
theorem wholeMove_of_illegal {s : State} (h : ∀ i, decodeCommand s.hidden.latched ≠ .ok i) :
    wholeMove s = .next (raiseError illegalCommand s) := by
  simp only [wholeMove, decodeOperation_of_illegal h]

/-- Settles O4: the three kinds of illegal word are `not_decodeCommand_iff` read off the word, and such a word, being
that of neither NOP nor ACK, starts an operation whose decode raises. -/
theorem illegalCommandWordEndsInError : Obligations.IllegalCommandWordEndsInError := by
  refine fun w => ⟨?_, fun h s hb => ?_⟩
  · have op_mem : (w &&& 0xF#32) ∈ [0#32, 1#32, 15#32] ↔ (commandFields w).op.toNat ∈ [0, 1, 15] := by
      simp [← and_opMask_toNat, ← BitVec.toNat_inj]
    rw [not_decodeCommand_iff, and_opMask_toNat, getLsbD_selBit, op_mem, ne_eq (w >>> 5), shiftRight_eq_zero_iff]
  · have not_word {i : Instr} (hi : i.kind = .command) : w ≠ encode i := by
      rintro rfl
      exact h i (decodeCommand_encode hi)
    exact ⟨startOp w s, raiseError illegalCommand (startOp w s), commandWrite_start hb (not_word rfl) (not_word rfl),
      started_startOp w s, wholeMove_of_illegal h, rfl, rfl⟩

/-! ### The format word -/

/-- A mask of the format word keeps the part of each stored field it covers (R94, R100). -/
theorem and_formatWord (w : Word) (m : FormatFields) :
    w &&& formatWord m = formatWord
      { depth := (formatFields w).depth &&& m.depth, model := (formatFields w).model &&& m.model
        palPresent := (formatFields w).palPresent && m.palPresent } := by
  ext i hi
  simp only [BitVec.getElem_and, formatWord_getElem, BitVec.getLsbD_and]
  simp only [formatFields, BitVec.getLsbD_extractLsb', zero_add]
  have := BitVec.lt_of_getLsbD (x := m.depth) (i := i)
  have := BitVec.lt_of_getLsbD (x := m.model) (i := i - 8)
  grind

/-- A format word determines its three fields (R94). -/
theorem formatFields_formatWord (f : FormatFields) : formatFields (formatWord f) = f := by
  have bit {i : Nat} (hi : i < 32) := BitVec.getLsbD_eq_getElem hi ▸ formatWord_getElem f hi
  obtain ⟨depth, model, palPresent⟩ := f
  simp only [formatFields, FormatFields.mk.injEq]
  refine ⟨?_, ?_, ?_⟩
  · ext i hi
    rw [BitVec.getElem_extractLsb', bit (by omega)]
    grind
  · ext i hi
    rw [BitVec.getElem_extractLsb', bit (by omega)]
    grind
  · rw [bit (by decide)]
    simp

theorem formatWord_inj {f g : FormatFields} : formatWord f = formatWord g ↔ f = g :=
  ⟨fun h => by rw [← formatFields_formatWord f, h, formatFields_formatWord], congrArg formatWord⟩

/-! ### The rows of the two fields -/

theorem encode_depth (d : Depth) :
    encode d.instr = formatWord { depth := d.code, model := 0#3, palPresent := false } := by
  cases d <;> rfl

theorem encode_model (m : Model) (pp : Bool) : encode (m.instr pp) =
    formatWord { depth := 0#5, model := m.code, palPresent := pp && decide (m = .idx) } := by
  cases m <;> cases pp <;> rfl

theorem depth_kind (d : Depth) : d.instr.kind = .depth := by cases d <;> rfl

theorem model_kind (m : Model) (pp : Bool) : (m.instr pp).kind = .model := by cases m <;> rfl

/-- A depth row has one code. -/
theorem depth_code_of_instr_eq {d e : Depth} (h : e.instr = d.instr) : e.code = d.code := by
  have word := encode_depth e
  rw [h, encode_depth, formatWord_inj] at word
  exact (FormatFields.mk.inj word).1.symm

theorem model_code_inj {m n : Model} (h : n.code = m.code) : n = m :=
  Except.ok.inj ((modelOfField_code n).symm.trans (h ▸ modelOfField_code m))

/-- Two model rows are one: the same model and, for IDX, the same operand (R97). -/
theorem model_instr_inj {m n : Model} {pp qq : Bool} :
    n.instr qq = m.instr pp ↔ n = m ∧ (qq && decide (m = .idx)) = (pp && decide (m = .idx)) := by
  constructor
  · intro h
    have word := encode_model n qq
    rw [h, encode_model, formatWord_inj] at word
    obtain ⟨-, hcode, hpp⟩ := FormatFields.mk.inj word
    obtain rfl := model_code_inj hcode
    exact ⟨rfl, hpp.symm⟩
  · rintro ⟨rfl, hpp⟩
    cases n with
    | idx => exact congrArg Instr.idx (by simpa using hpp)
    | _ => rfl

/-- DEPTH selects a row exactly when it holds its code (R95). -/
theorem decodeDepth_eq_instr {f : FormatFields} {d : Depth} : decodeDepth f = .ok d.instr ↔ f.depth = d.code := by
  constructor
  · unfold decodeDepth
    split
    · rename_i e he
      intro h
      exact (code_of_depthOfField he).trans (depth_code_of_instr_eq (Except.ok.inj h))
    · nofun
  · intro h
    rw [decodeDepth, h, depthOfField_code]

/-- MODEL selects a row exactly when it holds its code and, for IDX, PAL_PRESENT is the operand (R96, R97). -/
theorem decodeModel_eq_instr {f : FormatFields} {m : Model} {pp : Bool} : decodeModel f = .ok (m.instr pp) ↔
    f.model = m.code ∧ (f.palPresent && decide (m = .idx)) = (pp && decide (m = .idx)) := by
  constructor
  · unfold decodeModel
    split
    · rename_i n hn
      intro h
      obtain ⟨rfl, hpp⟩ := model_instr_inj.1 (Except.ok.inj h)
      exact ⟨code_of_modelOfField hn, hpp⟩
    · nofun
  · rintro ⟨h, hpp⟩
    rw [decodeModel, h, modelOfField_code]
    exact congrArg Except.ok (model_instr_inj.2 ⟨rfl, hpp⟩)

/-- A depth row's word is what its mask leaves of a format word exactly when DEPTH holds the row's code. -/
theorem encode_depth_eq_and {w : Word} {d : Depth} :
    encode d.instr = w &&& 0x0000001F#32 ↔ (formatFields w).depth = d.code := by
  have mask : 0x0000001F#32 = formatWord { depth := BitVec.allOnes 5, model := 0#3, palPresent := false } := rfl
  rw [mask, encode_depth, and_formatWord, formatWord_inj, eq_comm]
  simp only [FormatFields.mk.injEq, BitVec.and_allOnes, BitVec.and_zero, Bool.and_false, and_true]

/-- The bits that count for a model row: MODEL and, for IDX, PAL_PRESENT (R96, R97). -/
theorem modelMask_eq (m : Model) (pp : Bool) :
    (if (∃ qq, m.instr pp = .idx qq) then 0x00010700#32 else 0x00000700#32) =
      formatWord { depth := 0#5, model := BitVec.allOnes 3, palPresent := decide (m = .idx) } := by
  cases m with
  | idx => exact if_pos ⟨pp, rfl⟩
  | _ => exact if_neg nofun

/-- A model row's word is what its mask leaves of a format word exactly when MODEL holds the row's code and, for IDX,
PAL_PRESENT is the operand. -/
theorem encode_model_eq_and {w : Word} {m : Model} {pp : Bool} :
    encode (m.instr pp) =
        w &&& formatWord { depth := 0#5, model := BitVec.allOnes 3, palPresent := decide (m = .idx) } ↔
      (formatFields w).model = m.code ∧
        ((formatFields w).palPresent && decide (m = .idx)) = (pp && decide (m = .idx)) := by
  rw [encode_model, and_formatWord, formatWord_inj, eq_comm]
  simp only [FormatFields.mk.injEq, BitVec.and_allOnes, BitVec.and_zero, true_and]

/-- Settles O2: for a row, decode and the masked word say the same of the fields; another instruction is the answer of
neither decoder. -/
theorem formatDecodeInvertsEncode : Obligations.FormatDecodeInvertsEncode := by
  refine fun w i => ⟨⟨fun h => ?_, ?_⟩, ⟨fun h => ?_, ?_⟩⟩
  · obtain ⟨d, rfl⟩ := decodeDepth_eq_ok h
    exact ⟨depth_kind d, encode_depth_eq_and.2 (decodeDepth_eq_instr.1 h)⟩
  · rintro ⟨hk, he⟩
    obtain ⟨d, rfl⟩ := eq_instr_of_depthKind hk
    exact decodeDepth_eq_instr.2 (encode_depth_eq_and.1 he)
  · obtain ⟨m, rfl⟩ := decodeModel_eq_ok h
    rw [modelMask_eq]
    exact ⟨model_kind m _, encode_model_eq_and.2 (decodeModel_eq_instr.1 h)⟩
  · rintro ⟨hk, he⟩
    obtain ⟨m, pp, rfl⟩ := eq_instr_of_modelKind hk
    rw [modelMask_eq] at he
    exact decodeModel_eq_instr.2 (encode_model_eq_and.1 he)

/-! ### Words written out -/

/-- Settles O3: each command word is the word of its command, and each format word holds the codes of its format. -/
theorem specWordsDecode : Obligations.SpecWordsDecode :=
  ⟨decodeCommand_encode (i := .nop) rfl, decodeCommand_encode (i := .merge) rfl,
    decodeCommand_encode (i := .unpack .img1) rfl, decodeCommand_encode (i := .unpack .img2) rfl,
    decodeCommand_encode (i := .norm .img1) rfl, decodeCommand_encode (i := .norm .img2) rfl,
    decodeCommand_encode (i := .mask .img1) rfl, decodeCommand_encode (i := .mask .img2) rfl,
    decodeCommand_encode (i := .ack) rfl, decodeFormat_eq_ok.2 rfl, decodeFormat_eq_ok.2 rfl⟩

end Sys2Proof.Machine
end

section
/-! The encoding family (30_encoding.md): what a decoded word governs. A BUSY core runs the row a format field selects,
and UNPACK reads the DEPTH, MODEL and raw bytes of its image only. -/

namespace Sys2Proof.Machine

/-! ### A phase runs the row of its field -/

theorem step_no_turn {s : State} (hb : s.ctl.runState = .busy) (ht : s.env.turns = []) : step s = runMove s := by
  simp only [step, if_pos hb, ht]

theorem step_phase_turn {s : State} {ts : List Turn} (hb : s.ctl.runState = .busy) (ht : s.env.turns = .phase :: ts) :
    step s = phaseMove (s.withTurns ts) := by
  simp only [step, if_pos hb, ht]

theorem step_run_turn {s : State} {ts : List Turn} (hb : s.ctl.runState = .busy) (ht : s.env.turns = .run :: ts) :
    step s = runMove (s.withTurns ts) := by
  simp only [step, if_pos hb, ht]

/-- An operation that has begun runs phase by phase (R228). -/
theorem runMove_of_begun {s : State} (h : s.hidden.phase ≠ .decode) : runMove s = phaseMove s := by
  simp only [runMove, if_neg h]

/-- The core stands at an unpack or normalise phase, and the DEPTH or MODEL field it reads there selects row `i`. -/
def AtRow (s : State) (i : Instr) : Prop :=
  (s.hidden.phase = .unpack ∧ decodeDepth (s.desc s.hidden.image).fmt = .ok i) ∨
    (s.hidden.phase = .normalise ∧ decodeModel (s.desc s.hidden.image).fmt = .ok i)

/-- The schedule plays no part in which row a phase selects. -/
theorem AtRow.withTurns {s : State} {i : Instr} (h : AtRow s i) (ts : List Turn) : AtRow (s.withTurns ts) i := by
  simpa only [AtRow, withTurns_hidden, State.withTurns, desc_env] using h

theorem AtRow.phaseMove {s : State} {i : Instr} (h : AtRow s i) : phaseMove s = exec i s := by
  rcases h with ⟨hp, hd⟩ | ⟨hp, hm⟩
  · simp only [Machine.phaseMove, hp, phaseUnpack, hd]
  · simp only [Machine.phaseMove, hp, phaseNormalise, hm]

theorem AtRow.runMove {s : State} {i : Instr} (h : AtRow s i) : runMove s = exec i s := by
  have begun : s.hidden.phase ≠ .decode := by rcases h with ⟨hp, _⟩ | ⟨hp, _⟩ <;> simp [hp]
  rw [runMove_of_begun begun, h.phaseMove]

/-- Settles O26: with or without a turn of the core, the step is the phase, which runs the row of its field. -/
theorem stepRunsFormatFields : Obligations.StepRunsFormatFields := by
  intro s i hb h
  have row : AtRow s i := h
  refine ⟨fun ht => (step_no_turn hb ht).trans row.runMove, ?_⟩
  rintro ts (ht | ht)
  · exact (step_phase_turn hb ht).trans (row.withTurns ts).phaseMove
  · exact (step_run_turn hb ht).trans (row.withTurns ts).runMove

/-! ### What UNPACK reads -/

/-- The raw bytes of an image are its raw length and the bytes below it (R31, R101). -/
theorem rawBytes_congr {s u : State} {k : Img} (hl : (u.desc k).rawLen = (s.desc k).rawLen)
    (hbytes : ∀ a < (s.desc k).rawLen.toNat, byteAt u k.rawSpace a = byteAt s k.rawSpace a) :
    rawBytes u k = rawBytes s k := by
  simp only [rawBytes, bytesAt, hl]
  exact List.map_congr_left fun a ha => hbytes a (List.mem_range.1 ha)

/-- Of a palette that fits its buffer the configuration check sees PAL_PRESENT only, and keeps it as it is (R222). -/
theorem checkImage_of_same_fields {s u : State} {k : Img} (hp : u.params = s.params)
    (hd : (u.desc k).fmt.depth = (s.desc k).fmt.depth) (hm : (u.desc k).fmt.model = (s.desc k).fmt.model)
    (hl : (u.desc k).rawLen = (s.desc k).rawLen) (hs : (s.desc k).palLen.toNat ≤ s.params.palCap)
    (hu : (u.desc k).palLen.toNat ≤ s.params.palCap) :
    checkImage u k =
      (checkImage s k).map fun f => { f with palPresent := (u.desc k).fmt.palPresent } := by
  simp only [checkImage, decodeFormat, hp, hd, hm, hl, hs, hu, and_true]
  cases depthOfField (s.desc k).fmt.depth with
  | error => rfl
  | ok d =>
    cases modelOfField (s.desc k).fmt.model with
    | error => rfl
    | ok m => dsimp only; split <;> rfl

/-- Settles O55: the formats the two checks give differ in PAL_PRESENT only, which the unpacker does not read. -/
theorem unpackDependsOnItsImageOnly : Obligations.UnpackDependsOnItsImageOnly := by
  intro s u k hp hd hm hl hs hu hbytes
  have result : unpackResult u k = unpackResult s k := by
    simp only [unpackResult, rawBytes_congr hl hbytes, checkImage_of_same_fields hp hd hm hl hs hu]
    cases checkImage s k <;> rfl
  refine ⟨_, _, exec_unpack k s, exec_unpack k u, ?_⟩
  rw [result]
  exact sameReport_settle _ s u _

end Sys2Proof.Machine
end

section
/-! The bit_unpacker family (40_bit_unpacker.md): the arithmetic of `scale` and of a bit group, how a depth row ends, and
the samples of each depth, in the order of the rows. -/

namespace Sys2Proof.Machine

/-! ### scale (R127, R133) -/

/-- The fill stays below the aligned value's lowest bit, so the `or` of R127 is a sum. -/
theorem scale_eq (n v : Nat) : scale n v = v * 2 ^ (8 - n) + (if v % 2 = 1 then 2 ^ (8 - n) - 1 else 0) := by
  have fill_lt : (if v % 2 = 1 then 2 ^ (8 - n) - 1 else 0) < 2 ^ (8 - n) := by
    have := Nat.two_pow_pos (8 - n)
    split <;> omega
  rw [scale, ← Nat.shiftLeft_add_eq_or_of_lt fill_lt, Nat.shiftLeft_eq]

theorem mul_le_scale (n v : Nat) : v * 2 ^ (8 - n) ≤ scale n v := by
  rw [scale_eq]
  exact Nat.le_add_right _ _

theorem scale_lt_succ_mul (n v : Nat) : scale n v < (v + 1) * 2 ^ (8 - n) := by
  have := Nat.two_pow_pos (8 - n)
  rw [scale_eq, Nat.succ_mul]
  split <;> omega

/-- The next value is aligned above everything the fill of this one reaches (R133). -/
theorem scale_lt_scale {n u v : Nat} (h : u < v) : scale n u < scale n v :=
  calc scale n u < (u + 1) * 2 ^ (8 - n) := scale_lt_succ_mul n u
    _ ≤ v * 2 ^ (8 - n) := Nat.mul_le_mul_right _ h
    _ ≤ scale n v := mul_le_scale n v

/-- An n-bit value scales to a byte (R120). -/
theorem scale_lt_byte {n v : Nat} (hn : n ≤ 8) (hv : v < 2 ^ n) : scale n v < 256 :=
  calc scale n v < (v + 1) * 2 ^ (8 - n) := scale_lt_succ_mul n v
    _ ≤ 2 ^ n * 2 ^ (8 - n) := Nat.mul_le_mul_right _ hv
    _ = 256 := by rw [← Nat.pow_add, Nat.add_sub_cancel' hn]

/-- Settles O28: the `or` is a sum, whose two parts bound it from both sides. -/
theorem scaleAlignsAndFills : Obligations.ScaleAlignsAndFills := by
  intro n hn v hv
  have depth_le : n ≤ 8 := (by decide : ∀ n ∈ [1, 2, 4, 8], n ≤ 8) n hn
  exact ⟨scale_eq n v, scale_lt_byte depth_le hv, fun u hu => scale_lt_scale hu⟩

/-! ### How a depth row ends -/

/-- A depth row whose extraction gives samples delivers them. -/
theorem exec_depth_unpacked {d : Depth} {s : State} {samples : List Byte}
    (h : unpack (rawBytes s s.hidden.image) d (currentMode s) = .ok samples) :
    ∃ t, exec d.instr s = .next t ∧ Unpacked s t samples :=
  ⟨_, exec_depth d s, by rw [h]; rfl⟩

/-- A depth row whose extraction raises fails with that error for the image in work (R130). -/
theorem exec_depth_failed {d : Depth} {s : State} {e : Err}
    (h : unpack (rawBytes s s.hidden.image) d (currentMode s) = .error e) :
    ∃ t, exec d.instr s = .next t ∧ Failed s t { code := e.code, img := some s.hidden.image, pos := e.pos } :=
  ⟨_, exec_depth d s, by rw [h]; exact ⟨rfl, rfl⟩⟩

theorem getElem?_rawBytes (s : State) {k : Img} {a : Nat} (h : a < (s.desc k).rawLen.toNat) :
    (rawBytes s k)[a]? = some (byteAt s k.rawSpace a) :=
  getElem?_bytesAt s k.rawSpace h

/-! ### The depths of several groups per byte: D1, D2, D4 -/

/-- Group `j` at depth `n` as a quotient and a remainder (R62). -/
theorem groupValue_eq (n : Nat) (b : Byte) (j : Nat) :
    groupValue n b j = b.toNat / 2 ^ (8 - n * (j + 1)) % 2 ^ n := by
  rw [groupValue, Nat.and_two_pow_sub_one_eq_mod, Nat.shiftRight_eq_div_pow]

/-- The running unpacker is in index mode exactly when MODEL is 4, the code of IDX (R129). -/
theorem sampleOf_currentMode (s : State) (n v : Nat) : sampleOf (currentMode s) n v =
    if (s.desc s.hidden.image).fmt.model = 4#3 then BitVec.ofNat 8 v else BitVec.ofNat 8 (scale n v) := by
  have mode : currentMode s = if (s.desc s.hidden.image).fmt.model = 4#3 then .index else .scaled := rfl
  rw [mode]
  split <;> rfl

/-- A depth row that runs the double loop of R131 at depth `n` delivers the `8/n` groups of every raw byte in order. -/
theorem exec_depth_groups {d : Depth} {n : Nat}
    (hd : ∀ bytes mode, unpack bytes d mode = .ok (groupSamples mode n bytes)) (s : State) :
    ∃ t samples, exec d.instr s = .next t ∧ Unpacked s t samples ∧
      samples.length = 8 / n * (s.desc s.hidden.image).rawLen.toNat ∧
      ∀ a < (s.desc s.hidden.image).rawLen.toNat, ∀ j < 8 / n,
        samples[8 / n * a + j]? =
          some (sampleOf (currentMode s) n (groupValue n (byteAt s s.hidden.image.rawSpace a) j)) := by
  obtain ⟨t, hexec, hunpacked⟩ := exec_depth_unpacked (hd (rawBytes s s.hidden.image) (currentMode s))
  exact ⟨t, _, hexec, hunpacked, by rw [groupSamples_length, rawBytes_length],
    fun a ha j hj => getElem?_groupSamples _ (getElem?_rawBytes s ha) hj⟩

/-- A one-bit group is a bit, which scales to 0 or 255 (R122). -/
theorem sampleOf_bit (s : State) (b : Byte) {j : Nat} (hj : j < 8) :
    sampleOf (currentMode s) 1 (groupValue 1 b j) =
      if b.getLsbD (7 - j) then (if (s.desc s.hidden.image).fmt.model = 4#3 then 1#8 else 255#8) else 0#8 := by
  have shift : 8 - 1 * (j + 1) = 7 - j := by omega
  have bit : b.getLsbD (7 - j) = decide (groupValue 1 b j = 1) := by
    rw [groupValue_eq, shift, BitVec.getLsbD, Nat.testBit_eq_decide_div_mod_eq, Nat.pow_one]
  have bit_cases : groupValue 1 b j = 0 ∨ groupValue 1 b j = 1 := by
    rw [groupValue_eq]
    exact Nat.mod_two_eq_zero_or_one _
  rw [bit, sampleOf_currentMode]
  rcases bit_cases with h | h <;> rw [h]
  · exact ite_self _
  · rfl

/-- Settles O30: a byte has eight one-bit groups, and group `j` is bit `7 - j`. -/
theorem d1DeliversEveryBit : Obligations.D1DeliversEveryBit := by
  refine ⟨fun f => decodeDepth_eq_instr (d := .d1), fun s => ?_⟩
  obtain ⟨t, samples, hexec, hunpacked, hlen, hget⟩ := exec_depth_groups (d := .d1) (n := 1) (fun _ _ => rfl) s
  exact ⟨t, samples, hexec, hunpacked, hlen,
    fun a ha j hj => (hget a ha j hj).trans (congrArg some (sampleOf_bit s _ hj))⟩

/-- The four scaled two-bit values (R123). -/
theorem scale_two_values : ∀ v < 2 ^ 2, BitVec.ofNat 8 (scale 2 v) =
    if v = 0 then 0#8 else if v = 1 then 127#8 else if v = 2 then 128#8 else 255#8 := by decide

/-- Settles O31: a byte has four two-bit groups, and group `j` is the byte shifted right by `6 - 2j`, modulo 4. -/
theorem d2DeliversBitPairs : Obligations.D2DeliversBitPairs := by
  refine ⟨fun f => decodeDepth_eq_instr (d := .d2), fun s => ?_⟩
  obtain ⟨t, samples, hexec, hunpacked, hlen, hget⟩ := exec_depth_groups (d := .d2) (n := 2) (fun _ _ => rfl) s
  refine ⟨t, samples, hexec, hunpacked, hlen, fun a ha j hj => (hget a ha j hj).trans (congrArg some ?_)⟩
  have shift : 8 - 2 * (j + 1) = 6 - 2 * j := by omega
  rw [sampleOf_currentMode, groupValue_eq, shift, scale_two_values _ (Nat.mod_lt _ (by decide))]
  rfl

theorem groupValue_high_nibble (b : Byte) : groupValue 4 b 0 = b.toNat / 16 := by
  have nibble_lt : b.toNat / 16 < 16 := Nat.div_lt_of_lt_mul b.isLt
  rw [groupValue_eq]
  exact Nat.mod_eq_of_lt nibble_lt

theorem groupValue_low_nibble (b : Byte) : groupValue 4 b 1 = b.toNat % 16 := by
  rw [groupValue_eq]
  exact congrArg (· % 16) (Nat.div_one b.toNat)

/-- A scaled nibble is shifted by four bits and filled with 15 when odd (R124). -/
theorem sampleOf_nibble (s : State) (v : Nat) : sampleOf (currentMode s) 4 v =
    if (s.desc s.hidden.image).fmt.model = 4#3 then BitVec.ofNat 8 v
    else BitVec.ofNat 8 (16 * v + if v % 2 = 1 then 15 else 0) := by
  rw [sampleOf_currentMode, scale_eq, Nat.mul_comm v]
  rfl

/-- Settles O32: a byte has two four-bit groups, its quotient and its remainder by 16. -/
theorem d4DeliversNibbles : Obligations.D4DeliversNibbles := by
  refine ⟨fun f => decodeDepth_eq_instr (d := .d4), fun s => ?_⟩
  obtain ⟨t, samples, hexec, hunpacked, hlen, hget⟩ := exec_depth_groups (d := .d4) (n := 4) (fun _ _ => rfl) s
  refine ⟨t, samples, hexec, hunpacked, hlen, fun a ha => ?_⟩
  constructor
  · exact (hget a ha 0 (by decide)).trans (by rw [groupValue_high_nibble, sampleOf_nibble])
  · exact (hget a ha 1 (by decide)).trans (by rw [groupValue_low_nibble, sampleOf_nibble])

/-! ### The depths of whole bytes: D8, D16 -/

/-- Settles O33: the samples of D8 are the raw bytes. -/
theorem d8PassesBytesThrough : Obligations.D8PassesBytesThrough := by
  refine ⟨fun f => decodeDepth_eq_instr (d := .d8), fun s => ?_⟩
  obtain ⟨t, hexec, hunpacked⟩ := exec_depth_unpacked (d := .d8) (s := s) rfl
  exact ⟨t, _, hexec, hunpacked, rawBytes_length s s.hidden.image, fun a ha => getElem?_rawBytes s ha⟩

theorem samplesD16_even {bytes : List Byte} (h : bytes.length % 2 = 0) : samplesD16 bytes = .ok (highBytes bytes) :=
  if_neg (by omega)

theorem samplesD16_odd {bytes : List Byte} (h : bytes.length % 2 = 1) : samplesD16 bytes = .error lessData :=
  if_pos h

/-- Settles O34: the parity of the raw length decides between the high bytes and the error. -/
theorem d16KeepsTheHighByte : Obligations.D16KeepsTheHighByte := by
  refine ⟨fun f => decodeDepth_eq_instr (d := .d16), fun s => ?_⟩
  have raw_length := rawBytes_length s s.hidden.image
  constructor
  · intro even
    obtain ⟨t, hexec, hunpacked⟩ := exec_depth_unpacked (d := .d16) (s := s) (samplesD16_even (raw_length ▸ even))
    obtain ⟨high_length, high_get⟩ := highBytes_spec (rawBytes s s.hidden.image)
    rw [raw_length] at high_length high_get
    exact ⟨t, _, hexec, hunpacked, high_length,
      fun p hp => (high_get p hp).trans (getElem?_rawBytes s (by omega))⟩
  · intro odd
    exact exec_depth_failed (d := .d16) (samplesD16_odd (raw_length ▸ odd))

/-! ### The command UNPACK -/

/-- The unpacker gives samples at every depth but 16 with an odd byte count (R130). -/
theorem exists_unpack_eq_ok {bytes : List Byte} {d : Depth} (h : d = .d16 → bytes.length % 2 = 0) (mode : Mode) :
    ∃ samples, unpack bytes d mode = .ok samples := by
  cases d with
  | d1 | d2 | d4 | d8 => exact ⟨_, rfl⟩
  | d16 => exact ⟨_, samplesD16_even (h rfl)⟩

theorem modeOf_eq (m : Model) : modeOf m = if m = .idx then .index else .scaled := by
  cases m <;> rfl

/-- The body of UNPACK for a legal image is the unpacker on its raw bytes (R132). -/
theorem unpackResult_of_legal {s : State} {k : Img} {f : Format} (h : Legal s k f) :
    unpackResult s k = withImage k (unpack (rawBytes s k) f.depth (modeOf f.model)) := by
  rw [unpackResult, checkImage_eq_ok.2 h]

/-- Settles O35: the configuration check passes, the unpacker gives samples, and the operation completes with them. -/
theorem unpackWritesTheSamples : Obligations.UnpackWritesTheSamples := by
  intro s k f legal even
  obtain ⟨samples, hsamples⟩ := exists_unpack_eq_ok (bytes := rawBytes s k)
    (fun h => (congrArg (· % 2) (rawBytes_length s k)).trans (even h)) (modeOf f.model)
  refine ⟨_, samples, exec_unpack k s, ?_, modeOf_eq f.model ▸ hsamples⟩
  rw [unpackResult_of_legal legal, hsamples]
  exact completed_settle _ s samples

end Sys2Proof.Machine
end

section
/-! The palette_lut family (41_palette_lut.md): a palette as a table of byte triples, and NORM and MASK of an image that
is not Indexed, which read no palette. -/

namespace Sys2Proof.Machine

/-! ### Resolution and lookup (R150 to R153) -/

theorem resolve_error {palette : List Byte} (h : palette.length % 3 ≠ 0) :
    resolve palette = .error { code := .invalidPalette, pos := 0 } :=
  if_pos h

theorem lookup_eq_none_iff {table : List Rgb} {i : Nat} : lookup table i = none ↔ table.length ≤ i :=
  List.getElem?_eq_none_iff

/-- Settles O36: the table is the byte groups of the palette, one for every three bytes, and lookup is its indexing. -/
theorem paletteResolvesToTriples : Obligations.PaletteResolvesToTriples := by
  refine fun palette => ⟨resolve_error, fun whole => ?_⟩
  obtain ⟨table_length, entries⟩ := rgbGroups_spec palette whole
  exact ⟨rgbGroups palette, resolve_ok whole, table_length,
    fun i => ⟨fun past => lookup_eq_none_iff.2 (table_length.trans_le past), entries i⟩⟩

/-! ### What NORM and MASK read of an image that is not Indexed (R154) -/

/-- Of the five branches IDX alone reads the palette and PAL_PRESENT. -/
theorem normalise_of_not_idx {f : Format} (h : f.model ≠ .idx) (pp : Bool) (raw palette palette' : List Byte) :
    normalise { f with palPresent := pp } raw palette' = normalise f raw palette := by
  obtain ⟨d, m, _⟩ := f
  cases m with
  | gray | graya | rgb | rgba => rfl
  | idx => exact absurd rfl h

theorem Legal.model_ne_idx {s : State} {k : Img} {f : Format} (h : Legal s k f) (hm : (s.desc k).fmt.model ≠ 4#3) :
    f.model ≠ .idx := by
  obtain ⟨fields, _⟩ := h
  intro idx
  rw [fields, idx] at hm
  exact hm rfl

/-- Images with the same DEPTH, the same MODEL other than IDX and the same raw bytes normalise to the same result,
whatever their palettes. -/
theorem normResult_of_not_idx {s u : State} {k : Img} (hp : u.params = s.params)
    (hd : (u.desc k).fmt.depth = (s.desc k).fmt.depth) (hm : (u.desc k).fmt.model = (s.desc k).fmt.model)
    (hi : (s.desc k).fmt.model ≠ 4#3) (hl : (u.desc k).rawLen = (s.desc k).rawLen)
    (hs : (s.desc k).palLen.toNat ≤ s.params.palCap) (hu : (u.desc k).palLen.toNat ≤ s.params.palCap)
    (hbytes : ∀ a < (s.desc k).rawLen.toNat, byteAt u k.rawSpace a = byteAt s k.rawSpace a) :
    normResult u k = normResult s k := by
  simp only [normResult, checkImage_of_same_fields hp hd hm hl hs hu]
  cases hc : checkImage s k with
  | error r => rfl
  | ok f =>
    have not_idx : f.model ≠ .idx := Legal.model_ne_idx (checkImage_eq_ok.1 hc) hi
    simp only [Except.map, normaliseImage, rawBytes_congr hl hbytes]
    exact congrArg (withImage k) (normalise_of_not_idx not_idx _ _ _ _)

/-- Settles O56: NORM gives the same result on both states, and MASK is a function of that result. -/
theorem paletteIsReadByIndexedImagesOnly : Obligations.PaletteIsReadByIndexedImagesOnly := by
  intro s u k hp hd hm hi hl hs hu hbytes
  have norm : normResult u k = normResult s k := normResult_of_not_idx hp hd hm hi hl hs hu hbytes
  have mask : maskResult u k = maskResult s k := by simp only [maskResult, norm]
  constructor
  · refine ⟨_, _, exec_norm k s, exec_norm k u, ?_⟩
    rw [norm]
    exact sameReport_settle _ s u _
  · refine ⟨_, _, exec_mask k s, exec_mask k u, ?_⟩
    rw [mask]
    exact sameReport_settle _ s u _

end Sys2Proof.Machine
end

section
/-! The color_normalizer family (42_color_normalizer.md): how a model row ends, the pixels of each branch in the order
of the rows, and NORM of an image without a cause of error. -/

namespace Sys2Proof.Machine

/-! ### The rows that read no palette: how they end -/

/-- MODEL selects a row that is not IDX exactly when it holds its code (R96). -/
theorem decodeModel_eq_of_not_idx {m : Model} (hm : m ≠ .idx) (pp : Bool) (f : FormatFields) :
    decodeModel f = .ok (m.instr pp) ↔ f.model = m.code := by
  simp [decodeModel_eq_instr, hm]

theorem exec_gray (s : State) : exec .gray s = .next (deliverRgba s (rgbaGray s.hidden.samples)) := rfl

theorem exec_graya (s : State) : exec .graya s = .next (deliverRgba s (rgbaGraya s.hidden.samples)) := rfl

theorem exec_rgb (s : State) : exec .rgb s = .next (deliverRgba s (rgbaRgb s.hidden.samples)) := rfl

theorem exec_rgba (s : State) : exec .rgba s = .next (deliverRgba s (rgbaRgba s.hidden.samples)) := rfl

/-- A branch that gives pixels delivers them; the palette LUT stays. -/
theorem normalised_deliverRgba {s : State} {r : Except Err (List Byte)} {rgba : List Byte} (h : r = .ok rgba) :
    Normalised s (deliverRgba s r) rgba s.hidden.lut := by
  subst h
  rfl

/-- A branch that raises fails with that error for the image in work (R172). -/
theorem failed_deliverRgba {s : State} {r : Except Err (List Byte)} {e : Err} (h : r = .error e) :
    Failed s (deliverRgba s r) { code := e.code, img := some s.hidden.image, pos := e.pos } := by
  subst h
  exact ⟨rfl, rfl⟩

/-! ### GRAY, GRAYA, RGB, RGBA -/

/-- GRAY gives one pixel per sample (R167). -/
theorem rgbaGray_ok (samples : List Byte) :
    ∃ rgba, rgbaGray samples = .ok rgba ∧ rgba.length = 4 * samples.length ∧
      ∀ p g, samples[p]? = some g → pixelAt rgba p = [g, g, g, 255#8] := by
  refine ⟨_, rfl, by simp [Nat.mul_comm], ?_⟩
  induction samples with
  | nil => simp
  | cons c rest ih =>
    intro p g hp
    rw [List.flatMap_cons]
    cases p with
    | zero =>
      cases hp
      rfl
    | succ p =>
      rw [pixelAt_succ_pixel]
      exact ih p g hp

/-- Settles O37: the branch cannot fail. -/
theorem grayExpandsEverySample : Obligations.GrayExpandsEverySample := by
  refine ⟨decodeModel_eq_of_not_idx (m := .gray) (by decide) false, fun s => ?_⟩
  obtain ⟨rgba, hrgba, hlen, hpixels⟩ := rgbaGray_ok s.hidden.samples
  exact ⟨_, rgba, exec_gray s, normalised_deliverRgba hrgba, hlen, hpixels⟩

theorem rgbaGraya_whole {samples : List Byte} (h : samples.length % 2 = 0) :
    rgbaGraya samples = .ok (grayaPixels samples) :=
  if_neg (not_not_intro h)

theorem rgbaGraya_partial {samples : List Byte} (h : samples.length % 2 ≠ 0) : rgbaGraya samples = .error lessData :=
  if_pos h

/-- Settles O38: the parity of the sample count decides between the pixels and the error. -/
theorem grayaExpandsPairs : Obligations.GrayaExpandsPairs := by
  refine ⟨decodeModel_eq_of_not_idx (m := .graya) (by decide) false, fun s => ⟨fun whole => ?_, fun odd => ?_⟩⟩
  · obtain ⟨hlen, hpixels⟩ := grayaPixels_spec s.hidden.samples whole
    exact ⟨_, _, exec_graya s, normalised_deliverRgba (rgbaGraya_whole whole), hlen, hpixels⟩
  · exact ⟨_, exec_graya s, failed_deliverRgba (rgbaGraya_partial odd)⟩

theorem rgbaRgb_whole {samples : List Byte} (h : samples.length % 3 = 0) : rgbaRgb samples = .ok (rgbPixels samples) :=
  if_neg (not_not_intro h)

theorem rgbaRgb_partial {samples : List Byte} (h : samples.length % 3 ≠ 0) : rgbaRgb samples = .error lessData :=
  if_pos h

/-- Settles O39: the sample count modulo 3 decides between the pixels and the error. -/
theorem rgbExpandsTriples : Obligations.RgbExpandsTriples := by
  refine ⟨decodeModel_eq_of_not_idx (m := .rgb) (by decide) false, fun s => ⟨fun whole => ?_, fun rest => ?_⟩⟩
  · obtain ⟨hlen, hpixels⟩ := rgbPixels_spec s.hidden.samples whole
    exact ⟨_, _, exec_rgb s, normalised_deliverRgba (rgbaRgb_whole whole), hlen, hpixels⟩
  · exact ⟨_, exec_rgb s, failed_deliverRgba (rgbaRgb_partial rest)⟩

theorem rgbaRgba_whole {samples : List Byte} (h : samples.length % 4 = 0) : rgbaRgba samples = .ok samples :=
  if_neg (not_not_intro h)

theorem rgbaRgba_partial {samples : List Byte} (h : samples.length % 4 ≠ 0) : rgbaRgba samples = .error lessData :=
  if_pos h

/-- Settles O40: the sample count modulo 4 decides between the samples themselves and the error. -/
theorem rgbaPassesSamplesThrough : Obligations.RgbaPassesSamplesThrough := by
  refine ⟨decodeModel_eq_of_not_idx (m := .rgba) (by decide) false, fun s => ⟨fun whole => ?_, fun rest => ?_⟩⟩
  · exact ⟨_, exec_rgba s, normalised_deliverRgba (rgbaRgba_whole whole)⟩
  · exact ⟨_, exec_rgba s, failed_deliverRgba (rgbaRgba_partial rest)⟩

/-! ### IDX -/

theorem indexTable_absent (palette : List Byte) :
    indexTable false palette = .error { code := .paletteNotFoundWhenIndexedPng, pos := 0 } := rfl

theorem indexTable_present (palette : List Byte) : indexTable true palette = resolve palette := rfl

/-- Without a table IDX fails with the table's error (R171). -/
theorem exec_idx_failed {pp : Bool} {s : State} {e : Err}
    (h : indexTable pp (palBytes s s.hidden.image) = .error e) :
    ∃ t, exec (.idx pp) s = .next t ∧ Failed s t { code := e.code, img := some s.hidden.image, pos := e.pos } := by
  refine ⟨raiseError { code := e.code, img := some s.hidden.image, pos := e.pos } s, ?_, rfl, rfl⟩
  simp only [exec, execIdx, h, withImage_err]

/-- With a table IDX loads the palette LUT with it and runs the lookup loop (R38, R155, R171). -/
theorem exec_idx_loaded {pp : Bool} {s : State} {table : List Rgb}
    (h : indexTable pp (palBytes s s.hidden.image) = .ok table) :
    exec (.idx pp) s = .next (deliverRgba { s with hidden := { s.hidden with lut := table } }
      (lookupPixels table 0 s.hidden.samples)) := by
  simp only [exec, execIdx, h, withImage_ok]

theorem resolve_palBytes {s : State} {k : Img} (whole : (s.desc k).palLen.toNat % 3 = 0) :
    resolve (palBytes s k) = .ok (rgbGroups (palBytes s k)) :=
  resolve_ok ((palBytes_length s k).symm ▸ whole)

theorem rgbGroups_palBytes_length {s : State} {k : Img} (whole : (s.desc k).palLen.toNat % 3 = 0) :
    (rgbGroups (palBytes s k)).length = (s.desc k).palLen.toNat / 3 := by
  rw [← palBytes_length] at whole ⊢
  exact (rgbGroups_spec _ whole).1

/-- A palette entry is three bytes of the palette buffer (R150). -/
theorem getElem?_rgbGroups_palBytes {s : State} {k : Img} {i : Nat} (whole : (s.desc k).palLen.toNat % 3 = 0)
    (hi : i < (s.desc k).palLen.toNat / 3) :
    (rgbGroups (palBytes s k))[i]? = some
      { r := byteAt s k.palSpace (3 * i), g := byteAt s k.palSpace (3 * i + 1),
        b := byteAt s k.palSpace (3 * i + 2) } := by
  have byte {a : Nat} (ha : a < (s.desc k).palLen.toNat) : (palBytes s k)[a]? = some (byteAt s k.palSpace a) :=
    getElem?_bytesAt s k.palSpace ha
  rw [← palBytes_length] at whole hi
  obtain ⟨r, g, b, entry, hr, hg, hb⟩ := (rgbGroups_spec (palBytes s k) whole).2 i hi
  rw [palBytes_length] at hi
  rw [byte (by omega), Option.some.injEq] at hr hg hb
  rw [entry, hr, hg, hb]

/-- Settles O41: the table exists or raises one of its two errors, then the lookup loop ends at the first index past
the table or gives the entries, whose bytes are those of the palette. -/
theorem idxLooksUpEveryIndex : Obligations.IdxLooksUpEveryIndex := by
  refine ⟨fun f pp => (decodeModel_eq_instr (m := .idx)).trans (by simp [Model.code]), fun s => ?_⟩
  have loaded (whole : (s.desc s.hidden.image).palLen.toNat % 3 = 0) :=
    exec_idx_loaded ((indexTable_present _).trans (resolve_palBytes whole))
  refine ⟨exec_idx_failed (indexTable_absent _), fun broken => ?_, fun whole p i hp past below => ?_,
    fun whole below => ?_⟩
  · rw [← palBytes_length] at broken
    exact exec_idx_failed ((indexTable_present _).trans (resolve_error broken))
  · rw [← rgbGroups_palBytes_length whole] at past below
    have stops := lookupPixels_fails hp past below 0
    rw [Nat.zero_add] at stops
    exact ⟨_, loaded whole, failed_deliverRgba stops⟩
  · have indices := below
    rw [← rgbGroups_palBytes_length whole] at indices
    obtain ⟨rgba, hrgba, hlen, hpixels⟩ := lookupPixels_ok indices 0
    exact ⟨_, rgba, _, loaded whole, normalised_deliverRgba hrgba, resolve_palBytes whole, hlen, fun p i hp =>
      hpixels p i _ hp (getElem?_rgbGroups_palBytes whole (below i (List.mem_of_getElem? hp)))⟩

/-! ### An image without a cause of error -/

theorem firstCause_eq_none {causes : List Cause} : firstCause causes = none ↔ ∀ c ∈ causes, c.1 = false := by
  induction causes with
  | nil => simp [firstCause]
  | cons c rest ih =>
    obtain ⟨holds, r⟩ := c
    cases holds <;> simp [firstCause, ih]

/-- None of lines 5 to 9 of R250 holds for image k, said in the affirmative. -/
structure NoImageCause (s : State) (k : Img) (f : Format) : Prop where
  evenBytes : f.depth = .d16 → (s.desc k).rawLen.toNat % 2 = 0
  palette : f.model = .idx → f.palPresent = true
  wholeEntries : f.model = .idx → (s.desc k).palLen.toNat % 3 = 0
  goodIndices : f.model = .idx → ∀ p < sampleCount f.depth (s.desc k).rawLen.toNat,
    rawSample s k f.depth p < (s.desc k).palLen.toNat / 3
  wholePixels : f.model ≠ .idx → sampleCount f.depth (s.desc k).rawLen.toNat % arityOf f.model = 0

theorem noImageCause_of_firstCause {s : State} {k : Img} {f : Format} (h : firstCause (imageCauses s k f) = none) :
    NoImageCause s k f := by
  rw [firstCause_eq_none] at h
  simp only [imageCauses, oddByteCause, normaliseCauses, List.forall_mem_cons, Bool.and_eq_false_imp,
    decide_eq_true_eq, decide_eq_false_iff_not, not_not, Bool.not_eq_false', Option.isSome_eq_false_iff,
    Option.isNone_iff_eq_none] at h
  obtain ⟨odd, absent, broken, bad, short, -⟩ := h
  refine ⟨fun d => Nat.mod_two_ne_one.1 (odd d), absent, broken, fun idx p hp => ?_, short⟩
  have in_range := List.find?_eq_none.1 (bad idx) p (List.mem_range.2 hp)
  simpa using in_range

/-- The raw value of a sample is a byte at every depth (R120). -/
theorem groupValue_lt_byte {n : Nat} (hn : n ≤ 8) (b : Byte) (j : Nat) : groupValue n b j < 256 := by
  rw [groupValue_eq]
  calc _ < 2 ^ n := Nat.mod_lt _ (Nat.two_pow_pos n)
    _ ≤ 2 ^ 8 := Nat.pow_le_pow_right (by decide) hn

/-- In index mode sample `p` is the raw value that the address arithmetic of R79 finds (R128). -/
theorem toNat_unpack_index {s : State} {k : Img} {d : Depth} {samples : List Byte} {p : Nat} {i : Byte}
    (hu : unpack (rawBytes s k) d .index = .ok samples) (hi : samples[p]? = some i) :
    i.toNat = rawSample s k d p := by
  have rawByte {a : Nat} {b : Byte} (hb : (rawBytes s k)[a]? = some b) : b = byteAt s k.rawSpace a := by
    obtain ⟨ha, -⟩ := List.getElem?_eq_some_iff.1 hb
    rw [getElem?_rawBytes s (by simpa using ha)] at hb
    exact (Option.some.inj hb).symm
  have hp : p < samples.length := (List.getElem?_eq_some_iff.1 hi).1
  have address := (unpackFollowsTheAddressArithmetic _ _ _ _ hu).2 p hp
  cases d with
  | d1 | d2 | d4 =>
    obtain ⟨b, hb, hsample⟩ := address
    obtain rfl := rawByte hb
    rw [hi, Option.some.injEq] at hsample
    rw [hsample]
    exact Nat.mod_eq_of_lt (groupValue_lt_byte (by decide) _ _)
  | d8 | d16 => exact congrArg BitVec.toNat (rawByte (address.symm.trans hi))

/-- A branch gives pixels when the samples are whole pixels (R172) or, for IDX, a whole palette has every index
(R171). -/
theorem exists_normalise_eq_ok {f : Format} {raw palette samples : List Byte}
    (hu : unpack raw f.depth (modeOf f.model) = .ok samples)
    (whole : f.model ≠ .idx → samples.length % arityOf f.model = 0)
    (table : f.model = .idx → f.palPresent = true ∧ palette.length % 3 = 0 ∧
      ∀ i ∈ samples, i.toNat < palette.length / 3) :
    ∃ rgba, normalise f raw palette = .ok rgba := by
  obtain ⟨d, m, pp⟩ := f
  simp only [normalise, hu]
  cases m with
  | gray => exact ⟨_, rfl⟩
  | graya => exact ⟨_, rgbaGraya_whole (whole nofun)⟩
  | rgb => exact ⟨_, rgbaRgb_whole (whole nofun)⟩
  | rgba => exact ⟨_, rgbaRgba_whole (whole nofun)⟩
  | idx =>
    obtain ⟨rfl, entries, indices⟩ := table rfl
    rw [← (rgbGroups_spec palette entries).1] at indices
    obtain ⟨rgba, hrgba, -⟩ := lookupPixels_ok indices 0
    exact ⟨rgba, by simp only [rgbaIdx, indexTable_present, resolve_ok entries, hrgba]⟩

/-- An image without a cause of error normalises (R250). -/
theorem NoImageCause.exists_normalise_eq_ok {s : State} {k : Img} {f : Format} (h : NoImageCause s k f) :
    ∃ rgba, normalise f (rawBytes s k) (palBytes s k) = .ok rgba := by
  obtain ⟨samples, hu⟩ := exists_unpack_eq_ok (bytes := rawBytes s k)
    (fun d16 => by rw [rawBytes_length]; exact h.evenBytes d16) (modeOf f.model)
  have samples_length := unpack_length hu
  rw [rawBytes_length] at samples_length
  refine Machine.exists_normalise_eq_ok hu (fun not_idx => samples_length ▸ h.wholePixels not_idx) fun idx => ?_
  rw [palBytes_length]
  refine ⟨h.palette idx, h.wholeEntries idx, fun i hi => ?_⟩
  obtain ⟨p, hp⟩ := List.mem_iff_getElem?.1 hi
  have p_lt : p < samples.length := (List.getElem?_eq_some_iff.1 hp).1
  rw [idx] at hu
  rw [toNat_unpack_index hu hp]
  exact h.goodIndices idx p (samples_length ▸ p_lt)

/-! ### The command NORM -/

/-- The body of NORM for a legal image is its normalisation (R175). -/
theorem normResult_of_legal {s : State} {k : Img} {f : Format} (h : Legal s k f) :
    normResult s k = withImage k (normalise f (rawBytes s k) (palBytes s k)) := by
  rw [normResult, checkImage_eq_ok.2 h]
  rfl

/-- Settles O42: the configuration check passes, the image normalises, and the operation completes with the whole
buffer. -/
theorem normWritesTheRgbaBuffer : Obligations.NormWritesTheRgbaBuffer := by
  intro s k f legal clean
  obtain ⟨rgba, hrgba⟩ := (noImageCause_of_firstCause clean).exists_normalise_eq_ok
  have rgba_length := normalise_length hrgba
  rw [rawBytes_length] at rgba_length
  refine ⟨_, rgba, exec_norm k s, ?_, hrgba, rgba_length⟩
  rw [normResult_of_legal legal, hrgba]
  exact completed_settle _ s rgba

end Sys2Proof.Machine
end

section
/-! The luminance_calculator family (43_luminance_calculator.md): the luminance of one pixel, the mask of a whole buffer
pixel by pixel, the mask of the grey branches, and MASK of an image without a cause of error. -/

namespace Sys2Proof.Machine

/-! ### One pixel (R190, R191) -/

/-- Settles O44: a mean of three bytes is a byte, so nothing is cut off. -/
theorem lumaIsTheTruncatedMean : Obligations.LumaIsTheTruncatedMean := by
  intro r g b
  rw [luma, BitVec.toNat_ofNat]
  exact Nat.mod_eq_of_lt (luma_toNat r g b)

/-- The luminance of a grey pixel is its grey value (R193). -/
theorem luma_grey (g : Byte) : luma g g g = g := by
  apply BitVec.eq_of_toNat_eq
  have mean := lumaIsTheTruncatedMean g g g
  omega

/-! ### The mask of a buffer (R192) -/

/-- Byte `p` of the mask is the luminance of pixel `p`, which lies whole inside the buffer. -/
theorem getElem?_maskOf {x : List Byte} {p : Nat} (hp : p < (maskOf x).length) :
    ∃ r g b a, pixelAt x p = [r, g, b, a] ∧ (maskOf x)[p]? = some (luma r g b) := by
  rw [maskOf_length] at hp
  obtain ⟨r, g, b, a, hpixel⟩ := exists_pixelAt (x := x) (p := p) (by omega)
  exact ⟨r, g, b, a, hpixel, (maskOf_spec x).2 p r g b a hpixel⟩

/-- Settles O45: the masks have the same length, and at each position both are the luminance of the same R, G, B. -/
theorem maskIgnoresSourceAlpha : Obligations.MaskIgnoresSourceAlpha := by
  intro x y same_length _ same_rgb
  have mask_length : (maskOf x).length = (maskOf y).length := by rw [maskOf_length, maskOf_length, same_length]
  apply List.ext_getElem?
  intro p
  by_cases hp : p < (maskOf x).length
  · obtain ⟨r, g, b, a, pixel_x, mask_x⟩ := getElem?_maskOf hp
    obtain ⟨r', g', b', a', pixel_y, mask_y⟩ := getElem?_maskOf (mask_length ▸ hp)
    have rgb : [r, g, b] = [r', g', b'] := by simpa [pixel_x, pixel_y] using same_rgb p
    cases rgb
    exact mask_x.trans mask_y.symm
  · rw [List.getElem?_eq_none (not_lt.1 hp), List.getElem?_eq_none (mask_length ▸ not_lt.1 hp)]

/-! ### The mask of a grey image (R193) -/

/-- A grey pixel, whatever its alpha, adds its grey value to the mask. -/
theorem maskOf_grey_append (g a : Byte) (rest : List Byte) : maskOf (pixel g g g a ++ rest) = g :: maskOf rest :=
  congrArg (· :: maskOf rest) (luma_grey g)

theorem maskOf_rgbaGray {samples rgba : List Byte} (h : rgbaGray samples = .ok rgba) : maskOf rgba = samples := by
  cases h
  induction samples with
  | nil => rfl
  | cons g rest ih => rw [List.flatMap_cons, maskOf_grey_append, ih]

/-- The mask of the grey and alpha pairs holds the first sample of every whole pair. -/
theorem getElem?_maskOf_grayaPixels (samples : List Byte) (p : Nat) :
    (maskOf (grayaPixels samples))[p]? = if 2 * p + 1 < samples.length then samples[2 * p]? else none := by
  induction samples using grayaPixels.induct generalizing p with
  | case1 g a rest ih =>
    rw [grayaPixels, maskOf_grey_append]
    cases p with
    | zero => simp
    | succ p => simpa [Nat.mul_succ, Nat.succ_le_iff] using ih p
  | case2 samples no_pair =>
    match samples, no_pair with
    | [], _ => rfl
    | [_], _ => simp [grayaPixels, maskOf]
    | g :: a :: rest, no_pair => exact absurd rfl (no_pair g a rest)

/-- Settles O46: a grey pixel has its sample as luminance, in both grey branches; GRAYA gives pixels only for whole
pairs. -/
theorem maskOfGreyIsItsSamples : Obligations.MaskOfGreyIsItsSamples := by
  refine fun samples rgba => ⟨maskOf_rgbaGray, fun h p => ?_⟩
  by_cases whole : samples.length % 2 = 0
  · cases (rgbaGraya_whole whole).symm.trans h
    exact getElem?_maskOf_grayaPixels samples p
  · cases (rgbaGraya_partial whole).symm.trans h

/-! ### The command MASK -/

/-- The body of MASK is the mask of what NORM gives (R194). -/
theorem maskResult_of_normResult {s : State} {k : Img} {rgba : List Byte} (h : normResult s k = .ok rgba) :
    maskResult s k = .ok (maskOf rgba) := by
  rw [maskResult, h]

/-- Settles O47: the image normalises, as for NORM, and the operation completes with the mask of that buffer. -/
theorem maskWritesOneBytePerPixel : Obligations.MaskWritesOneBytePerPixel := by
  intro s k f legal clean
  obtain ⟨rgba, hrgba⟩ := (noImageCause_of_firstCause clean).exists_normalise_eq_ok
  have normalised : normResult s k = .ok rgba := by rw [normResult_of_legal legal, hrgba, withImage_ok]
  have rgba_length : rgba.length = 4 * pixelsOf s k f := by
    have len := normalise_length hrgba
    rwa [rawBytes_length] at len
  obtain ⟨mask_length, mask_bytes⟩ := maskOf_spec rgba
  refine ⟨_, rgba, maskOf rgba, exec_mask k s, ?_, hrgba, by omega, mask_bytes⟩
  rw [maskResult_of_normResult normalised]
  exact completed_settle _ s (maskOf rgba)

end Sys2Proof.Machine
end

section
/-! The image_merger family (44_image_merger.md): adjusting a buffer, the size check, the pixels of the merged picture,
MERGE of two images without a cause of error, and an image merged with itself. -/

namespace Sys2Proof.Machine

/-! ### adjust (R200) -/

/-- Settles O48: a short buffer raises, and any other is cut to its first bytes. -/
theorem adjustGivesExactlyTheLength : Obligations.AdjustGivesExactlyTheLength := by
  refine fun bytes len => ⟨adjust_short, fun enough => ?_⟩
  exact ⟨bytes.take len, adjust_ok enough, List.length_take_of_le enough, fun a ha => List.getElem?_take_of_lt ha⟩

/-! ### The size check (R201) -/

theorem sizesAgree_iff {s : State} :
    sizesAgree s = true ↔ s.img1.width = s.img2.width ∧ s.img1.height = s.img2.height := by
  simp [sizesAgree]

/-- After both configuration checks the body of MERGE is the merge itself (R208). -/
theorem mergeResult_of_legal {s : State} {f1 f2 : Format} (legal1 : Legal s .img1 f1) (legal2 : Legal s .img2 f2) :
    mergeResult s = mergeImages s f1 f2 := by
  simp only [mergeResult, checkImage_eq_ok.2 legal1, checkImage_eq_ok.2 legal2]

theorem mergeImages_of_mismatch {s : State} {f1 f2 : Format}
    (mismatch : s.img1.width ≠ s.img2.width ∨ s.img1.height ≠ s.img2.height) :
    mergeImages s f1 f2 = .error sizeMismatch :=
  if_neg fun agree => mismatch.elim (· (sizesAgree_iff.1 agree).1) (· (sizesAgree_iff.1 agree).2)

/-- Settles O49: the size check comes before either image is read. -/
theorem sizeMismatchHidesEveryImageError : Obligations.SizeMismatchHidesEveryImageError := by
  intro s f1 f2 legal1 legal2 mismatch
  refine ⟨_, exec_merge s, ?_⟩
  rw [mergeResult_of_legal legal1 legal2, mergeImages_of_mismatch mismatch]
  exact failed_settle _ s sizeMismatch

/-! ### The merged picture (R203 to R207) -/

/-- The first `n` pixels of the normalised image 1, with the first `n` bytes of the mask of the normalised image 2 as
alpha. -/
def mergedPixels (n : Nat) (x1 x2 : List Byte) : List Byte :=
  composePixels (x1.take (n * 4)) ((maskOf x2).take n)

/-- Two images of the same size that normalise to enough pixels merge. -/
theorem mergeImages_ok {s : State} {f1 f2 : Format} {x1 x2 : List Byte} (agree : sizesAgree s = true)
    (h1 : normalise f1 (rawBytes s .img1) (palBytes s .img1) = .ok x1)
    (h2 : normalise f2 (rawBytes s .img2) (palBytes s .img2) = .ok x2)
    (enough1 : pixelCount s * 4 ≤ x1.length) (enough2 : pixelCount s * 4 ≤ x2.length) :
    mergeImages s f1 f2 = .ok (mergedPixels (pixelCount s) x1 x2) := by
  have rgba1 : mergeRgba1 s f1 = .ok (x1.take (pixelCount s * 4)) := by
    simp only [mergeRgba1, normaliseImage, h1, adjust_ok enough1, withImage_ok]
  have mask_enough : pixelCount s ≤ (maskOf x2).length := by rw [maskOf_length]; omega
  have alpha2 : mergeAlpha2 s f2 = .ok ((maskOf x2).take (pixelCount s)) := by
    simp only [mergeAlpha2, normaliseImage, h2, adjust_ok mask_enough, withImage_ok]
  simp only [mergeImages, agree, if_true, rgba1, alpha2, mergedPixels]

/-- The merged picture has `n` pixels: R, G, B of image 1 and the luminance of image 2 (R205). -/
theorem mergedPixels_spec {n : Nat} {x1 x2 : List Byte} (enough1 : n * 4 ≤ x1.length)
    (enough2 : n * 4 ≤ x2.length) :
    (mergedPixels n x1 x2).length = n * 4 ∧
    ∀ p < n, ∀ r g b a r2 g2 b2 a2, pixelAt x1 p = [r, g, b, a] → pixelAt x2 p = [r2, g2, b2, a2] →
      pixelAt (mergedPixels n x1 x2) p = [r, g, b, luma r2 g2 b2] := by
  have rgba_length : (x1.take (n * 4)).length = n * 4 := List.length_take_of_le enough1
  have alpha_length : ((maskOf x2).take n).length = n := List.length_take_of_le (by rw [maskOf_length]; omega)
  obtain ⟨composed_length, composed⟩ :=
    composePixels_spec (x := x1.take (n * 4)) (alphas := (maskOf x2).take n) (by omega)
  refine ⟨composed_length.trans rgba_length, fun p hp r g b a r2 g2 b2 a2 colour grey => ?_⟩
  refine composed p r g b a _ ((pixelAt_take hp).trans colour) ?_
  rw [List.getElem?_take_of_lt hp]
  exact (maskOf_spec x2).2 p r2 g2 b2 a2 grey

/-! ### The command MERGE -/

/-- MERGE of two legal images of the same size that normalise to enough pixels completes with the merged picture
(R208). -/
theorem exec_merge_completes {s : State} {f1 f2 : Format} {x1 x2 : List Byte} (legal1 : Legal s .img1 f1)
    (legal2 : Legal s .img2 f2) (agree : sizesAgree s = true)
    (h1 : normalise f1 (rawBytes s .img1) (palBytes s .img1) = .ok x1)
    (h2 : normalise f2 (rawBytes s .img2) (palBytes s .img2) = .ok x2)
    (enough1 : pixelCount s * 4 ≤ x1.length) (enough2 : pixelCount s * 4 ≤ x2.length) :
    ∃ t, exec .merge s = .next t ∧ Completed s t (mergedPixels (pixelCount s) x1 x2) := by
  refine ⟨_, exec_merge s, ?_⟩
  rw [mergeResult_of_legal legal1 legal2, mergeImages_ok agree h1 h2 enough1 enough2]
  exact completed_settle _ s _

/-- None of lines 4 to 12 of R250 holds, said in the affirmative. -/
structure NoMergeCause (s : State) (f1 f2 : Format) : Prop where
  sameSize : sizesAgree s = true
  clean1 : firstCause (imageCauses s .img1 f1) = none
  enough1 : pixelCount s ≤ pixelsOf s .img1 f1
  clean2 : firstCause (imageCauses s .img2 f2) = none
  enough2 : pixelCount s ≤ pixelsOf s .img2 f2

theorem noMergeCause_of_firstCause {s : State} {f1 f2 : Format} (h : firstCause (mergeCauses s f1 f2) = none) :
    NoMergeCause s f1 f2 := by
  rw [firstCause_eq_none] at h
  simp only [mergeCauses, List.forall_mem_cons, List.forall_mem_append, ← firstCause_eq_none, sizeCause, shortCause,
    Bool.or_eq_false_iff, decide_eq_false_iff_not, not_not, not_lt] at h
  obtain ⟨size, clean1, enough1, clean2, enough2, -⟩ := h
  exact ⟨sizesAgree_iff.2 size, clean1, enough1, clean2, enough2⟩

/-- Settles O50: each image normalises as it does for NORM, to at least the pixels the size asks for. -/
theorem mergeComposesColourAndLuminance : Obligations.MergeComposesColourAndLuminance := by
  intro s f1 f2 legal1 legal2 h
  obtain ⟨agree, clean1, pixels1, clean2, pixels2⟩ := noMergeCause_of_firstCause h
  obtain ⟨_, x1, -, -, h1, length1⟩ := normWritesTheRgbaBuffer s .img1 f1 legal1 clean1
  obtain ⟨_, x2, -, -, h2, length2⟩ := normWritesTheRgbaBuffer s .img2 f2 legal2 clean2
  have enough1 : pixelCount s * 4 ≤ x1.length := by omega
  have enough2 : pixelCount s * 4 ≤ x2.length := by omega
  obtain ⟨t, ht, completed⟩ := exec_merge_completes legal1 legal2 agree h1 h2 enough1 enough2
  obtain ⟨merged_length, merged⟩ := mergedPixels_spec enough1 enough2
  refine ⟨t, x1, x2, _, ht, completed, h1, h2, merged_length, fun p (hp : p < pixelCount s) => ?_⟩
  obtain ⟨r, g, b, a, colour⟩ := exists_pixelAt (x := x1) (p := p) (by omega)
  obtain ⟨r2, g2, b2, a2, grey⟩ := exists_pixelAt (x := x2) (p := p) (by omega)
  exact ⟨r, g, b, a, r2, g2, b2, a2, colour, grey, merged p hp r g b a r2 g2 b2 a2 colour grey⟩

/-! ### An image merged with itself (R210) -/

/-- What a completed operation announces is the start of its result: OUT_LEN counts modulo 2^32, so it need not be all
of it (notes/assumptions/24.md). -/
theorem prefix_of_completed_settle {w : Word} {s : State} {r : Except Raise (List Byte)} {x : List Byte}
    (h : Completed s (settle (startOp w s) r) x) : ∃ y, r = .ok y ∧ x <+: y := by
  obtain ⟨status, bytes, -⟩ := h
  cases r with
  | error e => exact absurd (congrArg Control.runState status) nofun
  | ok y =>
    refine ⟨y, rfl, List.prefix_iff_getElem?.2 fun a ha => ?_⟩
    rw [← List.getElem?_eq_getElem ha, ← bytes a ha]
    exact (read_cellsFrom_zero a y).symm

theorem pixelAt_of_prefix {x y : List Byte} {p : Nat} (h : x <+: y) (hp : 4 * p + 4 ≤ x.length) :
    pixelAt x p = pixelAt y p := by
  obtain ⟨rest, rfl⟩ := h
  rw [pixelAt, pixelAt, List.drop_append_of_le_length (by omega),
    List.take_append_of_le_length (by rw [List.length_drop]; omega)]

/-- Two spaces that hold the same bytes are read alike. -/
theorem bytesAt_eq_of_byteAt_eq {s : State} {space other : Space} {n : Nat}
    (h : ∀ a < n, byteAt s other a = byteAt s space a) : bytesAt s other n = bytesAt s space n :=
  List.map_congr_left fun a ha => h a (List.mem_range.1 ha)

/-- Settles O51: image 2 normalises to the same buffer as image 1, which starts with what NORM announced, so the colour
and the luminance of a merged pixel come from one pixel. -/
theorem selfMergeReplacesAlphaByLuminance : Obligations.SelfMergeReplacesAlphaByLuminance := by
  intro s u f x legal same raw pal hu completed long
  obtain rfl := Host.Outcome.next.inj ((exec_norm .img1 s).symm.trans hu)
  obtain ⟨y, hy, x_prefix⟩ := prefix_of_completed_settle completed
  rw [normResult_of_legal legal, withImage_eq_ok] at hy
  have same_desc : s.desc .img2 = s.desc .img1 := same
  have legal2 : Legal s .img2 f := by simpa only [Legal, same_desc] using legal
  have raw2 : rawBytes s .img2 = rawBytes s .img1 := by
    rw [rawBytes, same_desc]
    exact bytesAt_eq_of_byteAt_eq raw
  have pal2 : palBytes s .img2 = palBytes s .img1 := by
    rw [palBytes, same_desc]
    exact bytesAt_eq_of_byteAt_eq pal
  have agree : sizesAgree s = true := sizesAgree_iff.2 ⟨by rw [same], by rw [same]⟩
  have x_enough : pixelCount s * 4 ≤ x.length := long
  have y_enough : pixelCount s * 4 ≤ y.length := x_enough.trans x_prefix.length_le
  obtain ⟨t, ht, merge_completed⟩ :=
    exec_merge_completes legal legal2 agree hy (by rw [raw2, pal2]; exact hy) y_enough y_enough
  refine ⟨t, _, ht, merge_completed, fun p (hp : p < pixelCount s) => ?_⟩
  obtain ⟨r, g, b, a, hx⟩ := exists_pixelAt (x := x) (p := p) (by omega)
  have pixel_y : pixelAt y p = [r, g, b, a] := (pixelAt_of_prefix x_prefix (by omega)).symm.trans hx
  exact ⟨r, g, b, a, hx, (mergedPixels_spec y_enough y_enough).2 p hp r g b a r g b a pixel_y pixel_y⟩

end Sys2Proof.Machine
end

section
/-! The control family (45_control_commands.md): NOP, ACK and what a write of CMD does, the operation a latched word
names, and the configuration check that comes first. -/

namespace Sys2Proof.Machine

/-! ### NOP, ACK and the write of CMD -/

/-- A write of CMD is dropped while BUSY (R220, R227). -/
theorem commandWrite_of_busy {s : State} (hb : s.ctl.runState = .busy) (w : Word) : commandWrite w s = .next s :=
  if_pos hb

theorem exec_nop (s : State) : exec .nop s = .next s := rfl

theorem exec_ack (s : State) : exec .ack s = .next (acknowledge s) := rfl

/-- Settles O5: the write of NOP is dropped while BUSY and runs NOP in every other state. -/
theorem nopChangesNothing : Obligations.NopChangesNothing := by
  refine ⟨decodeCommand_encode (i := .nop) rfl, fun s => ⟨exec_nop s, ?_⟩, fun i h => ?_⟩
  · rw [hostMove_cmd]
    by_cases hb : s.ctl.runState = .busy
    · exact commandWrite_of_busy hb _
    · exact (commandWrite_control hb (.inl rfl)).trans (exec_nop s)
  · have rejected : decodeCommand 0x00000010#32 = .error .selNotAllowed := rfl
    cases rejected.symm.trans h

/-- A cleared status in IDLE reads 0 (R23). -/
theorem statusWord_cleared {s : State} (hs : s.ctl.runState = .idle) (he : s.ctl.err = none)
    (hi : s.ctl.errImg = none) : statusWord s = 0#32 := by
  rw [statusWord, hs, he, hi]
  decide

/-- Settles O6: ACK is `acknowledge`, whose two cases are DONE or ERROR, and the rest. -/
theorem ackReturnsToIdle : Obligations.AckReturnsToIdle := by
  refine ⟨decodeCommand_encode (i := .ack) rfl, fun s => ⟨_, exec_ack s, ?_⟩⟩
  rcases acknowledge_cases s with ⟨not_done, not_error, h⟩ | ⟨ended, h⟩ <;> rw [h]
  · exact ⟨fun _ => rfl, fun ended => absurd ended (not_or.2 ⟨not_done, not_error⟩)⟩
  · refine ⟨fun idle => ?_, fun _ => ⟨rfl, statusWord_cleared rfl rfl rfl, Bool.and_false _, rfl⟩⟩
    rcases ended with ended | ended <;> cases idle.symm.trans ended

/-- Settles O7: the branches of the write of CMD, one by one. -/
theorem commandWriteDispatch : Obligations.CommandWriteDispatch := by
  refine fun w s => ⟨fun hb => commandWrite_of_busy hb w, ?_, ?_, fun hb hn ha => ?_⟩
  · rintro hb rfl
    exact commandWrite_control hb (.inl rfl)
  · rintro hb rfl
    exact commandWrite_control hb (.inr rfl)
  · exact ⟨_, commandWrite_start hb hn ha, started_startOp w s⟩

/-! ### The operation a latched word names -/

/-- A core that has not begun runs the whole operation its word decodes to (R226, R229). -/
theorem runMove_of_decode {s : State} {i : Instr} (hp : s.hidden.phase = .decode)
    (hi : decodeOperation s.hidden.latched = some i) : runMove s = exec i s := by
  simp only [runMove, if_pos hp, wholeMove, hi]

/-- Settles O25: with or without a turn of the core, the step is the whole operation. -/
theorem stepRunsLatchedOperation : Obligations.StepRunsLatchedOperation := fun s _ hb hp hi =>
  ⟨fun ht => (step_no_turn hb ht).trans (runMove_of_decode hp hi),
    fun ts ht => (step_run_turn hb ht).trans (runMove_of_decode (s := s.withTurns ts) hp hi)⟩

/-! ### The configuration check comes first -/

/-- The configuration check of an illegal image raises IllegalConfig for it (R222, R248). -/
theorem checkImage_of_not_legal {s : State} {k : Img} (h : ∀ f, ¬ Legal s k f) :
    checkImage s k = .error (illegalConfig k) := by
  cases hc : checkImage s k with
  | ok f => exact absurd (checkImage_eq_ok.1 hc) (h f)
  | error r => rw [checkImage_eq_error hc]

/-- What the configuration check of its image raises ends a one-image command. -/
theorem opResult_of_illegal {s : State} {k : Img} {r : Raise} (h : checkImage s k = .error r) :
    ∀ i ∈ [Instr.unpack k, Instr.norm k, Instr.mask k], opResult i s = some (.error r) := by
  simp [opResult, unpackResult, maskResult, normResult, h]

theorem mergeResult_of_illegal_img1 {s : State} {r : Raise} (h : checkImage s .img1 = .error r) :
    mergeResult s = .error r := by
  simp only [mergeResult, h]

theorem mergeResult_of_illegal_img2 {s : State} {f : Format} {r : Raise} (legal : Legal s .img1 f)
    (h : checkImage s .img2 = .error r) : mergeResult s = .error r := by
  simp only [mergeResult, checkImage_eq_ok.2 legal, h]

/-- An operation whose body raises ends with that error. -/
theorem exec_failed {i : Instr} {s : State} {r : Raise} (h : opResult i s = some (.error r)) :
    ∃ t, exec i s = .next t ∧ Failed s t r := by
  have operation : i.isOperation = true := by
    cases i with
    | merge | unpack | norm | mask => rfl
    | _ => cases h
  obtain ⟨r', hr', hexec⟩ := exec_operation operation s
  cases h.symm.trans hr'
  exact ⟨_, hexec, failed_settle _ s r⟩

/-- Settles O52: the check of the first illegal image is the first thing that raises. -/
theorem illegalConfigComesFirst : Obligations.IllegalConfigComesFirst := by
  refine fun s => ⟨fun k h i hi => ?_, fun h => ?_, ?_⟩
  · exact exec_failed (opResult_of_illegal (checkImage_of_not_legal h) i hi)
  · exact exec_failed (congrArg some (mergeResult_of_illegal_img1 (checkImage_of_not_legal h)))
  · rintro ⟨f, legal⟩ h
    exact exec_failed (congrArg some (mergeResult_of_illegal_img2 legal (checkImage_of_not_legal h)))

end Sys2Proof.Machine
end

section
/-! The control family (45_control_commands.md): an operation run phase by phase. Each phase gives a result and goes on
or raises; the phases of a command compose to its body, so both forms of an operation end in the same state (R228 to
R230). -/

namespace Sys2Proof.Machine

/-! ### A running operation -/

/-- `s` with the hidden state `h` of a running operation, and the turns `ts` to come. -/
def State.running (s : State) (h : Hidden) (ts : List Turn) : State :=
  { s with hidden := h, env := { s.env with turns := ts } }

theorem running_self (s : State) (ts : List Turn) : s.running s.hidden ts = s.withTurns ts := rfl

@[simp] theorem running_hidden (s : State) (h : Hidden) (ts : List Turn) : (s.running h ts).hidden = h := rfl

/-- A running operation reads the operands it started with. -/
theorem sameOperands_running (s : State) (h : Hidden) (ts : List Turn) : SameOperands s (s.running h ts) :=
  ⟨rfl, ⟨rfl, rfl, rfl, rfl, rfl, rfl⟩, rfl⟩

/-- The hidden state `h` belongs to the operation `i`, with image `k` in work and phase `p` next. -/
structure Stands (h : Hidden) (i : Instr) (k : Img) (p : Phase) : Prop where
  command : decodeOperation h.latched = some i
  image : h.image = k
  phase : h.phase = p

/-! ### Runs of phase turns -/

/-- The first of `n + 1` steps. -/
theorem run_of_step {s t : State} (h : step s = .next t) (n : Nat) :
    Host.Core.run Sys2Proof.core (n + 1) s = Host.Core.run Sys2Proof.core n t := by
  have first : Sys2Proof.core.step s = .next t := h
  simp only [Host.Core.run, first]

/-- With hidden state `h`, at most `n` turns of one phase each end the operation with `r`. -/
def PhasesEnd (n : Nat) (s : State) (h : Hidden) (r : Except Raise (List Byte)) : Prop :=
  ∃ m ≤ n, ∀ ts, Host.Core.run Sys2Proof.core m (s.running h (List.replicate m .phase ++ ts)) =
    .next (settle (s.withTurns ts) r)

theorem PhasesEnd.mono {n m : Nat} {s : State} {h : Hidden} {r : Except Raise (List Byte)} (ends : PhasesEnd n s h r)
    (le : n ≤ m) : PhasesEnd m s h r := by
  obtain ⟨j, hj, run⟩ := ends
  exact ⟨j, hj.trans le, run⟩

/-- Phase `p` gives `x`: with `x` an error it raises, else it keeps what `keep` says (R228). -/
def PhaseGives {α : Type} (p : Phase) (s : State) (h : Hidden) (x : Except Raise α) (keep : α → Hidden) : Prop :=
  ∀ ts, phaseMove (s.running h ts) = .next (endPhase p (s.running h ts) x keep)

section Phases

variable {n : Nat} {s : State} {h : Hidden} {i : Instr} {k : Img} {p : Phase} {f : Format}
  {r : Except Raise (List Byte)}

/-- One turn of a BUSY core is one phase. -/
theorem run_phase_turn (hb : s.ctl.runState = .busy) {ts : List Turn} {t : State}
    (move : phaseMove (s.running h ts) = .next t) (n : Nat) :
    Host.Core.run Sys2Proof.core (n + 1) (s.running h (.phase :: ts)) = Host.Core.run Sys2Proof.core n t :=
  run_of_step ((step_phase_turn (s := s.running h (.phase :: ts)) hb rfl).trans move) n

/-- A phase that raises ends the operation, one that succeeds hands over to the next phase of its column. -/
theorem PhaseGives.phasesEnd {α : Type} {x : Except Raise α} {keep : α → Hidden} (gives : PhaseGives p s h x keep)
    (hb : s.ctl.runState = .busy) (here : Stands h i k p) (failed : ∀ e, x = .error e → r = .error e)
    (next : ∀ a, x = .ok a → PhasesEnd n s { keep a with phase := nextPhase (some i) k p } r) :
    PhasesEnd (n + 1) s h r := by
  obtain ⟨command, rfl, -⟩ := here
  cases x with
  | error e =>
    obtain rfl := failed e rfl
    exact ⟨1, Nat.le_add_left 1 n, fun ts => run_phase_turn hb (gives ts) 0⟩
  | ok a =>
    obtain ⟨m, le, run⟩ := next a rfl
    refine ⟨m + 1, Nat.succ_le_succ le, fun ts => ?_⟩
    rw [← run ts, ← command]
    exact run_phase_turn hb (gives _) m

/-! ### What each phase gives -/

theorem phaseGives_decode (hi : decodeOperation h.latched = some i) (hp : h.phase = .decode) :
    PhaseGives .decode s h (.ok ()) fun _ => { h with image := firstImage i } := by
  intro ts
  simp only [phaseMove, running_hidden, hp, phaseDecode, hi]
  rfl

theorem phaseGives_config (hp : h.phase = .config) :
    PhaseGives .config s h (checkConfig (s.running h [])) fun _ => h := by
  intro ts
  have same : checkConfig (s.running h ts) = checkConfig (s.running h []) := by
    simp only [checkConfig, (sameOperands_running s h _).checkImage, running_hidden]
  simp only [phaseMove, running_hidden, hp, phaseConfig, same]

theorem phaseGives_size (hp : h.phase = .size) :
    PhaseGives .size s h (if sizesAgree s then .ok () else .error sizeMismatch) fun _ => h := by
  intro ts
  simp only [phaseMove, running_hidden, hp, phaseSize, (sameOperands_running s h ts).sizesAgree]

theorem deliverSamples_eq_endPhase (s : State) (r : Except Err (List Byte)) :
    deliverSamples s r = endPhase .unpack s (withImage s.hidden.image r) fun samples =>
      { s.hidden with
        samples := samples, byteIdx := (rawBytes s s.hidden.image).length, sampleIdx := samples.length } := by
  cases r <;> rfl

theorem deliverRgba_eq_endPhase (s : State) (r : Except Err (List Byte)) :
    deliverRgba s r = endPhase .normalise s (withImage s.hidden.image r) fun rgba =>
      { s.hidden with rgba := rgba, pixelIdx := rgba.length / 4 } := by
  cases r <;> rfl

/-- The DEPTH field of a legal image selects the extraction of its format (R131). -/
theorem phaseGives_unpack (here : Stands h i k .unpack) (legal : Legal s k f) :
    PhaseGives .unpack s h (withImage k (unpack (rawBytes s k) f.depth (modeOf f.model))) fun samples =>
      { h with samples := samples, byteIdx := (rawBytes s k).length, sampleIdx := samples.length } := by
  obtain ⟨-, rfl, hp⟩ := here
  obtain ⟨fields, -⟩ := legal
  intro ts
  have operands := sameOperands_running s h ts
  have row : AtRow (s.running h ts) f.depth.instr :=
    .inl ⟨hp, decodeDepth_eq_instr.2 (by rw [operands.desc, running_hidden, fields])⟩
  have mode : currentMode (s.running h ts) = modeOf f.model := by
    rw [currentMode, operands.desc, running_hidden, fields, modeOfField_code]
  rw [row.phaseMove, exec_depth, deliverSamples_eq_endPhase, mode, operands.rawBytes, running_hidden]

/-- The branch of a format on the samples of an image: `normalise` after the unpacker (R174, R176). -/
def normaliseSamples (f : Format) (palette samples : List Byte) : Except Err (List Byte) :=
  match f.model with
  | .gray => rgbaGray samples
  | .graya => rgbaGraya samples
  | .rgb => rgbaRgb samples
  | .rgba => rgbaRgba samples
  | .idx => rgbaIdx f.palPresent palette samples

/-- `normalise` is the unpacker, then the branch. -/
theorem normalise_eq (f : Format) (raw palette : List Byte) :
    normalise f raw palette = (unpack raw f.depth (modeOf f.model)).bind (normaliseSamples f palette) := by
  rw [normalise]
  cases unpack raw f.depth (modeOf f.model) <;> rfl

/-- The MODEL field of a legal image selects the branch of its format (R176); IDX loads the palette LUT on the way. -/
theorem phaseGives_normalise (here : Stands h i k .normalise) (legal : Legal s k f) :
    ∃ lut, PhaseGives .normalise s h (withImage k (normaliseSamples f (palBytes s k) h.samples)) fun rgba =>
      { h with rgba := rgba, pixelIdx := rgba.length / 4, lut := lut } := by
  obtain ⟨-, rfl, hp⟩ := here
  obtain ⟨fields, -⟩ := legal
  obtain ⟨depth, model, palPresent⟩ := f
  have branch (ts : List Turn) : phaseMove (s.running h ts) = exec (model.instr palPresent) (s.running h ts) := by
    refine AtRow.phaseMove (.inr ⟨hp, decodeModel_eq_instr.2 ?_⟩)
    rw [(sameOperands_running s h ts).desc, running_hidden, fields]
    exact ⟨rfl, rfl⟩
  cases model with
  | gray | graya | rgb | rgba =>
    exact ⟨h.lut, fun ts => (branch ts).trans (congrArg Host.Outcome.next (deliverRgba_eq_endPhase _ _))⟩
  | idx =>
    have palette (ts : List Turn) := (sameOperands_running s h ts).palBytes h.image
    cases table : indexTable palPresent (palBytes s h.image) with
    | error e =>
      refine ⟨h.lut, fun ts => (branch ts).trans ?_⟩
      simp only [Model.instr, exec, execIdx, running_hidden, palette, table, normaliseSamples, rgbaIdx]
      rfl
    | ok lut =>
      refine ⟨lut, fun ts => (branch ts).trans ?_⟩
      rw [Model.instr, exec_idx_loaded (table := lut) (by rw [running_hidden, palette, table]), deliverRgba_eq_endPhase]
      simp only [normaliseSamples, rgbaIdx, table]
      rfl

theorem phaseGives_adjustRgba (hp : h.phase = .adjustRgba) :
    PhaseGives .adjustRgba s h (withImage .img1 (adjust h.rgba (pixelCount s * 4)))
      fun bytes => { h with rgba1 := bytes, image := .img2 } := by
  intro ts
  simp only [phaseMove, running_hidden, hp, phaseAdjustRgba, (sameOperands_running s h ts).pixelCount]

theorem phaseGives_luminance (hp : h.phase = .luminance) :
    PhaseGives .luminance s h (.ok (maskOf h.rgba)) fun bytes => { h with alpha2 := bytes } := by
  intro ts
  simp only [phaseMove, running_hidden, hp, phaseLuminance]

theorem phaseGives_adjustAlpha (hp : h.phase = .adjustAlpha) :
    PhaseGives .adjustAlpha s h (withImage .img2 (adjust h.alpha2 (pixelCount s)))
      fun bytes => { h with alpha2 := bytes } := by
  intro ts
  simp only [phaseMove, running_hidden, hp, phaseAdjustAlpha, (sameOperands_running s h ts).pixelCount]

/-- Phases 10 and 11: the result goes to OUT and the operation completes (R205, R223). -/
theorem phasesEnd_compose {bytes : List Byte} (hb : s.ctl.runState = .busy) (hp : h.phase = .compose)
    (result : resultBytes h = bytes) : PhasesEnd 2 s h (.ok bytes) := by
  subst result
  refine ⟨2, le_rfl, fun ts => ?_⟩
  have compose : phaseMove (s.running h (.phase :: ts)) = .next (phaseCompose (s.running h (.phase :: ts))) := by
    simp only [phaseMove, running_hidden, hp]
  refine (run_phase_turn hb compose 1).trans ?_
  exact run_phase_turn (s := { s with out := cellsFrom 0 (resultBytes h) })
    (h := { h with result := resultBytes h, phase := .complete }) hb rfl 0

/-! ### The columns of the table of R228 -/

/-- The configuration check of a one-image command is that of its image (R222). -/
theorem checkConfig_of_not_merge (here : Stands s.hidden i k p) (one : i ≠ .merge) :
    checkConfig s = (checkImage s k).map fun _ => () := by
  obtain ⟨command, rfl, -⟩ := here
  simp only [checkConfig, command]
  cases checkImage s s.hidden.image with
  | error e => rfl
  | ok f =>
    cases i with
    | merge => exact absurd rfl one
    | _ => rfl

/-- MERGE checks the image in work, then image 2 (R222). -/
theorem checkConfig_of_merge (here : Stands s.hidden .merge k p) :
    checkConfig s = (checkImage s k).bind fun _ => (checkImage s .img2).map fun _ => () := by
  obtain ⟨command, rfl, -⟩ := here
  simp only [checkConfig, command]
  cases checkImage s s.hidden.image with
  | error e => rfl
  | ok f => cases checkImage s .img2 <;> rfl

/-- The hidden state `h'` is `h` with the image in work normalised to `rgba`, and phase `p` next. -/
structure ImageDone (h h' : Hidden) (rgba : List Byte) (i : Instr) (k : Img) (p : Phase) : Prop where
  stands : Stands h' i k p
  rgba : h'.rgba = rgba
  rgba1 : h'.rgba1 = h.rgba1

/-- Phases 3 and 4, or 6 and 7: the image in work is normalised (R175). -/
theorem phasesEnd_normaliseImage (hb : s.ctl.runState = .busy) (here : Stands h i k .unpack)
    (onward : nextPhase (some i) k .unpack = .normalise) (legal : Legal s k f)
    (failed : ∀ e, normaliseImage s k f = .error e → r = .error e)
    (next : ∀ rgba h', normaliseImage s k f = .ok rgba →
      ImageDone h h' rgba i k (nextPhase (some i) k .normalise) → PhasesEnd n s h' r) :
    PhasesEnd (n + 2) s h r := by
  have body : normaliseImage s k f = withImage k
      ((unpack (rawBytes s k) f.depth (modeOf f.model)).bind (normaliseSamples f (palBytes s k))) :=
    congrArg (withImage k) (normalise_eq f _ _)
  rw [body] at failed next
  refine (phaseGives_unpack here legal).phasesEnd hb here (fun e he => failed e ?_) fun samples hs => ?_
  · obtain ⟨e, hu, rfl⟩ := withImage_error he
    rw [hu]
    rfl
  · rw [withImage_eq_ok] at hs
    rw [hs] at failed next
    have there : Stands { h with
        samples := samples, byteIdx := (rawBytes s k).length, sampleIdx := samples.length, phase := .normalise }
        i k .normalise := ⟨here.command, here.image, rfl⟩
    rw [onward]
    obtain ⟨lut, gives⟩ := phaseGives_normalise there legal
    exact gives.phasesEnd hb there failed fun rgba hr =>
      next rgba _ hr ⟨⟨here.command, here.image, rfl⟩, rfl, rfl⟩

/-- The column of UNPACK after its configuration check (R132). -/
theorem phasesEnd_unpack (hb : s.ctl.runState = .busy) (here : Stands h (.unpack k) k .unpack)
    (legal : Legal s k f) :
    PhasesEnd 3 s h (withImage k (unpack (rawBytes s k) f.depth (modeOf f.model))) := by
  refine (phaseGives_unpack here legal).phasesEnd hb here (fun _ he => he) fun samples hs => ?_
  rw [hs]
  exact phasesEnd_compose hb rfl (by simp only [resultBytes, here.command])

/-- The column of NORM after its configuration check (R175). -/
theorem phasesEnd_norm (hb : s.ctl.runState = .busy) (here : Stands h (.norm k) k .unpack) (legal : Legal s k f) :
    PhasesEnd 4 s h (normaliseImage s k f) := by
  refine phasesEnd_normaliseImage hb here rfl legal (fun _ he => he) fun rgba h' hr done => ?_
  rw [hr]
  exact phasesEnd_compose hb done.stands.phase (by simp only [resultBytes, done.stands.command, done.rgba])

/-- The column of MASK after its configuration check (R194). -/
theorem phasesEnd_mask (hb : s.ctl.runState = .busy) (here : Stands h (.mask k) k .unpack) (legal : Legal s k f) :
    PhasesEnd 5 s h ((normaliseImage s k f).map maskOf) := by
  refine phasesEnd_normaliseImage hb here rfl legal (fun e he => by rw [he]; rfl) fun rgba h' hr done => ?_
  refine (phaseGives_luminance done.stands.phase).phasesEnd hb done.stands nofun ?_
  rintro _ ⟨⟩
  rw [hr]
  exact phasesEnd_compose hb rfl (by simp only [resultBytes, done.stands.command, done.rgba])

/-- Phases 6 to 11 of MERGE: image 2, and its mask under the pixels of image 1 (R204, R205). -/
theorem phasesEnd_merge_img2 (hb : s.ctl.runState = .busy) (here : Stands h .merge .img2 .unpack)
    (legal : Legal s .img2 f) :
    PhasesEnd 6 s h ((mergeAlpha2 s f).map (composePixels h.rgba1)) := by
  refine phasesEnd_normaliseImage hb here rfl legal (fun e he => by rw [mergeAlpha2, he]; rfl) fun rgba h' hr done => ?_
  have body : mergeAlpha2 s f = withImage .img2 (adjust (maskOf rgba) (pixelCount s)) := by rw [mergeAlpha2, hr]
  obtain ⟨stands, rfl, rgba1⟩ := done
  rw [body, ← rgba1]
  refine (phaseGives_luminance stands.phase).phasesEnd hb stands nofun ?_
  rintro _ ⟨⟩
  refine PhaseGives.phasesEnd (phaseGives_adjustAlpha rfl) hb ⟨stands.command, stands.image, rfl⟩
    (fun e he => by rw [he]; rfl) fun alpha2 ha => ?_
  rw [ha]
  exact phasesEnd_compose hb rfl (by simp only [resultBytes, stands.command])

/-- Phases 2 to 11 of MERGE (R207). -/
theorem phasesEnd_merge {f1 f2 : Format} (hb : s.ctl.runState = .busy) (here : Stands h .merge .img1 .size)
    (legal1 : Legal s .img1 f1) (legal2 : Legal s .img2 f2) : PhasesEnd 10 s h (mergeImages s f1 f2) := by
  refine (phaseGives_size here.phase).phasesEnd hb here (fun e raised => ?_) fun _ passed => ?_
  · split at raised <;> cases raised
    exact if_neg ‹_›
  have agree : sizesAgree s = true := by
    split at passed
    · assumption
    · cases passed
  have there : Stands { h with phase := .unpack } .merge .img1 .unpack := ⟨here.command, here.image, rfl⟩
  have body : mergeImages s f1 f2 =
      (mergeRgba1 s f1).bind fun rgba1 => (mergeAlpha2 s f2).map (composePixels rgba1) := by
    rw [mergeImages, if_pos agree]
    cases mergeRgba1 s f1 with
    | error e => rfl
    | ok rgba1 => cases mergeAlpha2 s f2 <;> rfl
  rw [body]
  refine phasesEnd_normaliseImage hb there rfl legal1 (fun e he => by rw [mergeRgba1, he]; rfl)
    fun rgba h' hr done => ?_
  have cut : mergeRgba1 s f1 = withImage .img1 (adjust rgba (pixelCount s * 4)) := by rw [mergeRgba1, hr]
  obtain ⟨stands, rfl, -⟩ := done
  rw [cut]
  refine (phaseGives_adjustRgba stands.phase).phasesEnd hb stands (fun e he => by rw [he]; rfl) fun rgba1 ha => ?_
  rw [ha]
  exact phasesEnd_merge_img2 hb ⟨stands.command, rfl, rfl⟩ legal2

theorem nextPhase_config_of_not_merge (one : i ≠ .merge) : nextPhase (some i) k .config = .unpack := by
  cases i with
  | merge => exact absurd rfl one
  | _ => rfl

/-- Phase 1 of a one-image command: IllegalConfig, or on with a legal image. -/
theorem phasesEnd_config_of_one_image (hb : s.ctl.runState = .busy) (here : Stands h i k .config)
    (one : i ∈ [Instr.unpack k, Instr.norm k, Instr.mask k]) (hr : opResult i s = some r)
    (next : ∀ f, Legal s k f → Stands { h with phase := .unpack } i k .unpack →
      PhasesEnd n s { h with phase := .unpack } r) :
    PhasesEnd (n + 1) s h r := by
  have not_merge : i ≠ .merge := by
    rintro rfl
    simp at one
  have gives : PhaseGives .config s h ((checkImage s k).map fun _ => ()) fun _ => h := by
    rw [← (sameOperands_running s h []).checkImage, ← checkConfig_of_not_merge here not_merge]
    exact phaseGives_config here.phase
  cases check : checkImage s k with
  | error e =>
    rw [check] at gives
    obtain rfl := Option.some.inj (hr.symm.trans (opResult_of_illegal check i one))
    exact gives.phasesEnd hb here (fun _ raised => by cases raised; rfl) nofun
  | ok f =>
    rw [check] at gives
    refine gives.phasesEnd hb here nofun fun _ _ => ?_
    rw [nextPhase_config_of_not_merge not_merge]
    exact next f (checkImage_eq_ok.1 check) ⟨here.command, here.image, rfl⟩

/-- Phases 1 to 11 of MERGE (R208). -/
theorem phasesEnd_config_of_merge (hb : s.ctl.runState = .busy) (here : Stands h .merge .img1 .config) :
    PhasesEnd 11 s h (mergeResult s) := by
  have gives : PhaseGives .config s h
      ((checkImage s .img1).bind fun _ => (checkImage s .img2).map fun _ => ()) fun _ => h := by
    rw [← (sameOperands_running s h []).checkImage, ← (sameOperands_running s h []).checkImage,
      ← checkConfig_of_merge here]
    exact phaseGives_config here.phase
  cases check1 : checkImage s .img1 with
  | error e =>
    rw [check1] at gives
    rw [mergeResult_of_illegal_img1 check1]
    exact gives.phasesEnd hb here (fun _ raised => by cases raised; rfl) nofun
  | ok f1 =>
    have legal1 := checkImage_eq_ok.1 check1
    cases check2 : checkImage s .img2 with
    | error e =>
      rw [check1, check2] at gives
      rw [mergeResult_of_illegal_img2 legal1 check2]
      exact gives.phasesEnd hb here (fun _ raised => by cases raised; rfl) nofun
    | ok f2 =>
      have legal2 := checkImage_eq_ok.1 check2
      rw [check1, check2] at gives
      rw [mergeResult_of_legal legal1 legal2]
      exact gives.phasesEnd hb here nofun fun _ _ =>
        phasesEnd_merge hb ⟨here.command, here.image, rfl⟩ legal1 legal2

theorem maskResult_of_legal (legal : Legal s k f) : maskResult s k = (normaliseImage s k f).map maskOf := by
  rw [maskResult, normResult_of_legal legal, normaliseImage]
  cases withImage k (normalise f (rawBytes s k) (palBytes s k)) <;> rfl

/-- After its decode an operation ends with its body within eleven phases (R228). -/
theorem phasesEnd_config (hb : s.ctl.runState = .busy) (here : Stands h i (firstImage i) .config)
    (hr : opResult i s = some r) : PhasesEnd 11 s h r := by
  cases i with
  | merge =>
    cases hr
    exact phasesEnd_config_of_merge hb here
  | unpack k =>
    refine (phasesEnd_config_of_one_image (k := k) hb here (by simp) hr fun f legal there => ?_).mono
      (show 3 + 1 ≤ 11 by decide)
    cases hr
    rw [unpackResult_of_legal legal]
    exact phasesEnd_unpack hb there legal
  | norm k =>
    refine (phasesEnd_config_of_one_image (k := k) hb here (by simp) hr fun f legal there => ?_).mono
      (show 4 + 1 ≤ 11 by decide)
    cases hr
    rw [normResult_of_legal legal]
    exact phasesEnd_norm hb there legal
  | mask k =>
    refine (phasesEnd_config_of_one_image (k := k) hb here (by simp) hr fun f legal there => ?_).mono
      (show 5 + 1 ≤ 11 by decide)
    cases hr
    rw [maskResult_of_legal legal]
    exact phasesEnd_mask hb there legal
  | _ => cases hr

/-! ### Both forms of an operation -/

/-- A BUSY core has a clear status, so the start update has nothing to clear that the end leaves (R23, R221). -/
theorem settle_startOp (rules : StatusRules s) (hb : s.ctl.runState = .busy) (w : Word)
    (r : Except Raise (List Byte)) : settle (startOp w s) r = settle s r := by
  obtain ⟨clear, -⟩ := rules
  obtain ⟨err, errImg, errPos⟩ := clear (by simp [hb])
  cases r with
  | ok bytes => simp only [settle, completeOp, writeOut, startOp, err, errImg, errPos]
  | error e => rfl

/-- The schedule is no operand: at once, an operation ends with the body read off `s`. -/
theorem exec_withTurns (rules : StatusRules s) (hb : s.ctl.runState = .busy) (hi : i.isOperation = true)
    (hr : opResult i s = some r) (ts : List Turn) : exec i (s.withTurns ts) = .next (settle (s.withTurns ts) r) := by
  obtain ⟨r', hr', hexec⟩ := exec_operation hi (s.withTurns ts)
  have same : opResult i (s.withTurns ts) = opResult i s :=
    running_self s ts ▸ (sameOperands_running s s.hidden ts).opResult i
  cases hr'.symm.trans (same.trans hr)
  rw [hexec, settle_startOp (s := s.withTurns ts) rules hb]

/-- Settles O59: phase by phase the operation ends with the body that the operation at once ends with. -/
theorem phasesAgreeWithTheWholeOperation : Obligations.PhasesAgreeWithTheWholeOperation := by
  intro s i rules hb hp hi
  have operation := isOperation_of_decode hi
  obtain ⟨r, hr, -⟩ := exec_operation operation s
  have ends : PhasesEnd 12 s s.hidden r :=
    (phaseGives_decode hi hp).phasesEnd hb ⟨hi, rfl, hp⟩ nofun fun _ _ => phasesEnd_config hb ⟨hi, rfl, rfl⟩ hr
  obtain ⟨n, le, run⟩ := ends
  exact ⟨n, le, fun ts => (run ts).trans (exec_withTurns rules hb operation hr ts).symm⟩

end Phases

end Sys2Proof.Machine
end

section
/-! The control family (45_control_commands.md): a started operation ends. Every move of the core uses up a phase of the
operation, and every other step while BUSY uses up a listed turn (R229). -/

namespace Sys2Proof.Machine

/-! ### The phases left -/

/-- How many phases of the longest column of R228 are left, this one counted, with image `k` in work. -/
def phasesLeft : Phase → Img → Nat
  | .decode, _ => 12
  | .config, _ => 11
  | .size, _ => 10
  | .unpack, .img1 => 9
  | .normalise, .img1 => 8
  | .adjustRgba, _ => 7
  | .unpack, .img2 => 6
  | .normalise, .img2 => 5
  | .luminance, _ => 4
  | .adjustAlpha, _ => 3
  | .compose, _ => 2
  | .complete, _ => 1

theorem phasesLeft_bounds : ∀ p k, 0 < phasesLeft p k ∧ phasesLeft p k ≤ 12 := by
  intro p k
  cases p <;> cases k <;> decide

/-- Every phase but the last hands over to a later one: only phase 0 chooses the image in work, and phase 5 moves on to
image 2. -/
theorem phasesLeft_nextPhase (cmd : Option Instr) {p : Phase} {k j : Img} (more : p ≠ .complete)
    (kept : p ≠ .decode → p ≠ .adjustRgba → j = k) (moved : p = .adjustRgba → j = .img2) :
    phasesLeft (nextPhase cmd k p) j < phasesLeft p k := by
  cases p with
  | decode => exact Nat.lt_add_one _
  | adjustRgba =>
    obtain rfl := moved rfl
    exact Nat.lt_add_one _
  | compose => exact Nat.lt_add_one _
  | complete => exact absurd rfl more
  | size | adjustAlpha =>
    obtain rfl := kept nofun nofun
    rw [nextPhase]
    cases j <;> decide
  | config | unpack | luminance =>
    obtain rfl := kept nofun nofun
    simp only [nextPhase]
    split <;> cases j <;> decide
  | normalise =>
    obtain rfl := kept nofun nofun
    simp only [nextPhase]
    split
    · decide
    · decide
    · cases j <;> decide
    · cases j <;> decide

/-! ### What a move of the core uses up -/

/-- From `s` to `t` a BUSY core has ended its operation, or gone on with fewer phases left and nothing but OUT and the
hidden state changed. -/
def Advances (s t : State) : Prop :=
  (t.ctl.runState = .done ∨ t.ctl.runState = .error) ∨
  (t = { s with out := t.out, hidden := t.hidden } ∧
    phasesLeft t.hidden.phase t.hidden.image < phasesLeft s.hidden.phase s.hidden.image)

theorem advances_raiseError (e : Raise) (s : State) : Advances s (raiseError e s) := .inl (.inr rfl)

/-- A phase that goes on. -/
theorem advances_data {s : State} {p : Phase} (hp : s.hidden.phase = p) (more : p ≠ .complete) (out : Memory)
    {h : Hidden} (kept : p ≠ .decode → p ≠ .adjustRgba → h.image = s.hidden.image)
    (moved : p = .adjustRgba → h.image = .img2) :
    Advances s { s with out := out, hidden := { h with phase := phaseAfter s p } } := by
  subst hp
  exact .inr ⟨rfl, phasesLeft_nextPhase _ more kept moved⟩

theorem advances_endPhase {α : Type} {s : State} {p : Phase} (hp : s.hidden.phase = p) (more : p ≠ .complete)
    (r : Except Raise α) {keep : α → Hidden}
    (kept : ∀ a, p ≠ .decode → p ≠ .adjustRgba → (keep a).image = s.hidden.image)
    (moved : ∀ a, p = .adjustRgba → (keep a).image = .img2) : Advances s (endPhase p s r keep) := by
  cases r with
  | ok a => exact advances_data hp more s.out (kept a) (moved a)
  | error e => exact advances_raiseError e s

theorem advances_phaseDecode {s : State} (hp : s.hidden.phase = .decode) : Advances s (phaseDecode s) := by
  unfold phaseDecode
  split
  · exact advances_raiseError _ s
  · exact advances_data hp nofun s.out (h := { s.hidden with image := firstImage _ })
      (absurd rfl) nofun

theorem phaseUnpack_advances {s : State} (hp : s.hidden.phase = .unpack) :
    ∃ t, phaseUnpack s = .next t ∧ Advances s t := by
  unfold phaseUnpack
  split
  · rename_i i hi
    obtain ⟨d, rfl⟩ := decodeDepth_eq_ok hi
    refine ⟨_, exec_depth d s, ?_⟩
    rw [deliverSamples_eq_endPhase]
    exact advances_endPhase hp nofun _ (fun _ _ _ => rfl) nofun
  · exact ⟨_, rfl, advances_raiseError _ s⟩

theorem phaseNormalise_advances {s : State} (hp : s.hidden.phase = .normalise) :
    ∃ t, phaseNormalise s = .next t ∧ Advances s t := by
  unfold phaseNormalise
  split
  · rename_i i hi
    obtain ⟨m, rfl⟩ := decodeModel_eq_ok hi
    rcases exec_model m (s.desc s.hidden.image).fmt.palPresent s with ⟨lut, r, h⟩ | ⟨e, h⟩
    · refine ⟨_, h, ?_⟩
      rw [deliverRgba_eq_endPhase]
      exact advances_endPhase (s := { s with hidden := { s.hidden with lut := lut } }) hp nofun _
        (fun _ _ _ => rfl) nofun
    · exact ⟨_, h, advances_raiseError e s⟩
  · exact ⟨_, rfl, advances_raiseError _ s⟩

/-- One phase of the table of R228 advances. -/
theorem phaseMove_advances (s : State) : ∃ t, phaseMove s = .next t ∧ Advances s t := by
  unfold phaseMove
  cases hp : s.hidden.phase with
  | decode => exact ⟨_, rfl, advances_phaseDecode hp⟩
  | config | size | luminance | adjustAlpha => exact ⟨_, rfl, advances_endPhase hp nofun _ (fun _ _ _ => rfl) nofun⟩
  | adjustRgba => exact ⟨_, rfl, advances_endPhase hp nofun _ (fun _ _ => absurd rfl) fun _ _ => rfl⟩
  | unpack => exact phaseUnpack_advances hp
  | normalise => exact phaseNormalise_advances hp
  | compose => exact ⟨_, rfl, advances_data hp nofun _ (fun _ _ => rfl) nofun⟩
  | complete => exact ⟨_, rfl, .inl (.inl rfl)⟩

/-- The latched operation at once ends, an illegal word too (R226, R229). -/
theorem wholeMove_advances (s : State) : ∃ t, wholeMove s = .next t ∧ Advances s t := by
  unfold wholeMove
  split
  · rename_i i hi
    obtain ⟨r, _, h⟩ := exec_operation (isOperation_of_decode hi) s
    refine ⟨_, h, .inl ?_⟩
    cases r with
    | ok bytes => exact .inl rfl
    | error e => exact .inr rfl
  · exact ⟨_, rfl, advances_raiseError _ s⟩

theorem runMove_advances (s : State) : ∃ t, runMove s = .next t ∧ Advances s t := by
  unfold runMove
  split
  · exact wholeMove_advances s
  · exact phaseMove_advances s

/-! ### What the host's access uses up -/

/-- An access of the host takes no turn, and puts no access into the script but itself (R102). -/
theorem hostMove_env {a : Access} {s t : State} (h : hostMove a s = .next t) :
    t.env.turns = s.env.turns ∧ ∀ b ∈ t.env.script, b = a ∨ b ∈ s.env.script := by
  have same {u : State} (turns : u.env.turns = s.env.turns) (script : u.env.script = s.env.script) :
      u.env.turns = s.env.turns ∧ ∀ b ∈ u.env.script, b = a ∨ b ∈ s.env.script :=
    ⟨turns, fun b hb => .inr (script ▸ hb)⟩
  cases hw : a.wf with
  | false => cases (hostMove_of_not_wf hw s).symm.trans h
  | true =>
    cases a with
    | reset => cases h; exact same rfl rfl
    | wr offset v =>
      rcases hostMove_wr_cases (of_decide_eq_true hw) v s with hm | ⟨_, hm⟩ | ⟨r, hm⟩ <;> rw [hm] at h
      · cases h; exact same rfl rfl
      · rcases commandWrite_cases v s with hc | ⟨_, hc⟩ | ⟨_, hc⟩ <;> rw [hc] at h <;> cases h
        · exact same rfl rfl
        · have env := (instrFrame_acknowledge s).env
          exact same (by rw [env]) (by rw [env])
        · exact same rfl rfl
      · cases h
        have env : (writeReg s r v).env = s.env := by
          rcases writeReg_cases s r v with hr | hr | ⟨_, k, d, hr⟩ <;> rw [hr]
          exact setDesc_env s k d
        exact same (by rw [env]) (by rw [env])
    | rd offset =>
      rw [hostMove_rd (of_decide_eq_true hw)] at h
      cases h; exact same rfl rfl
    | st space address v =>
      cases h
      have env : (hostStore s space address v).env = s.env := by
        rcases hostStore_cases s space address v with ⟨_, hm⟩ | ⟨_, _, _, hm⟩ <;> rw [hm]
        exact setMem_env s space _
      exact same (by rw [env]) (by rw [env])
    | ld space address =>
      cases h
      unfold hostLoad
      split <;> exact ⟨rfl, fun b hb => .inr hb⟩
    | wait =>
      cases h
      by_cases hb : s.ctl.runState = .busy
      · rw [waitMove_of_busy hb]
        exact ⟨rfl, fun b hb => List.mem_cons.1 hb⟩
      · rw [waitMove_of_not_busy hb]
        exact same rfl rfl

/-! ### A BUSY core gets nearer to the end -/

/-- An upper bound on the steps a BUSY core still takes: a step for each listed turn and for each phase left. -/
def stepsLeft (s : State) : Nat := s.env.turns.length + phasesLeft s.hidden.phase s.hidden.image

/-- The operation of a core whose host had the accesses `script` to make has ended: in DONE, in ERROR, or by one of them
being the reset event (R229, R272). -/
def Ended (script : List Access) (t : State) : Prop :=
  t.ctl.runState = .done ∨ t.ctl.runState = .error ∨ (t.ctl.runState = .idle ∧ Access.reset ∈ script)

/-- `t` is a BUSY core with fewer steps left and no new access in the host's script. -/
structure Nearer (s t : State) : Prop where
  busy : t.ctl.runState = .busy
  script : ∀ a ∈ t.env.script, a ∈ s.env.script
  steps : stepsLeft t < stepsLeft s

theorem Ended.mono {script script' : List Access} {t : State} (ended : Ended script t)
    (sub : ∀ a ∈ script, a ∈ script') : Ended script' t :=
  ended.imp_right (.imp_right (.imp_right (sub _)))

/-- A move of the core ends the operation, or leaves one phase less. -/
theorem Advances.ended_or_nearer {s t : State} {ts : List Turn} (adv : Advances (s.withTurns ts) t)
    (hb : s.ctl.runState = .busy) (le : ts.length ≤ s.env.turns.length) : Ended s.env.script t ∨ Nearer s t := by
  rcases adv with ended | ⟨frame, fewer⟩
  · exact .inl (ended.imp_right .inl)
  · refine .inr ⟨by rw [frame]; exact hb, by rw [frame]; exact fun _ ha => ha, ?_⟩
    have turns : t.env.turns = ts := by rw [frame]; rfl
    have fewer_phases : phasesLeft t.hidden.phase t.hidden.image < phasesLeft s.hidden.phase s.hidden.image := fewer
    rw [stepsLeft, stepsLeft, turns]
    omega

/-- An access of the host that takes a turn resets the core, or leaves one turn less. -/
theorem hostMove_ended_or_nearer {s t : State} {a : Access} {e : Env} (hb : s.ctl.runState = .busy)
    (mem : a ∈ s.env.script) (script : ∀ b ∈ e.script, b ∈ s.env.script)
    (turns : e.turns.length < s.env.turns.length) (move : hostMove a { s with env := e } = .next t) :
    Ended s.env.script t ∨ Nearer s t := by
  obtain ⟨same_turns, same_script⟩ := hostMove_env move
  have frame := hostMove_frame_of_busy (s := { s with env := e }) hb move
  rcases hostMove_runState move with same | ⟨not_busy, _⟩ | ⟨at_rest, _⟩ | ⟨idle, rfl⟩
  · rcases frame with frame | rfl
    · refine .inr ⟨same.trans hb, fun b hb => ?_, ?_⟩
      · rcases same_script b hb with rfl | old
        · exact mem
        · exact script b old
      · rw [stepsLeft, stepsLeft, same_turns, frame]
        exact Nat.add_lt_add_right turns _
    · cases move
      cases same.trans hb
  · exact absurd hb not_busy
  · rcases at_rest with at_rest | at_rest <;> cases hb.symm.trans at_rest
  · exact .inl (.inr (.inr ⟨idle, mem⟩))

/-- A turn of the host resets the core, or leaves one turn less. -/
theorem serveHost_ended_or_nearer {s : State} {ts : List Turn} (hb : s.ctl.runState = .busy)
    (wf : ∀ a ∈ s.env.script, a.wf = true) (ht : s.env.turns = .host :: ts) :
    ∃ t, serveHost (s.withTurns ts) = .next t ∧ (Ended s.env.script t ∨ Nearer s t) := by
  have fewer : ts.length < s.env.turns.length := by simp [ht]
  rcases serveHost_cases (s.withTurns ts) with h | ⟨a, rest, script, h⟩ <;> rw [h]
  · exact ⟨_, rfl, .inr ⟨hb, fun _ mem => mem, Nat.add_lt_add_right fewer _⟩⟩
  · have script : s.env.script = a :: rest := script
    have mem : a ∈ s.env.script := script ▸ List.mem_cons_self
    obtain ⟨t, move⟩ := hostMove_of_wf (wf a mem) { s with env := { s.env with script := rest, turns := ts } }
    exact ⟨t, move, hostMove_ended_or_nearer hb mem (fun b hb => script ▸ List.mem_cons_of_mem a hb) fewer move⟩

/-- Every step of a BUSY core ends its operation or brings it nearer to the end. -/
theorem step_ended_or_nearer {s : State} (hb : s.ctl.runState = .busy) (wf : ∀ a ∈ s.env.script, a.wf = true) :
    ∃ t, step s = .next t ∧ (Ended s.env.script t ∨ Nearer s t) := by
  cases ht : s.env.turns with
  | nil =>
    rw [step_no_turn hb ht]
    obtain ⟨t, move, adv⟩ := runMove_advances s
    have same : s.withTurns [] = s := by rw [← ht]; rfl
    exact ⟨t, move, Advances.ended_or_nearer (ts := []) (same.symm ▸ adv) hb (Nat.zero_le _)⟩
  | cons turn ts =>
    have le : ts.length ≤ s.env.turns.length := by simp [ht]
    cases turn with
    | host =>
      rw [step_host_turn hb ht]
      exact serveHost_ended_or_nearer hb wf ht
    | phase =>
      rw [step_phase_turn hb ht]
      obtain ⟨t, move, adv⟩ := phaseMove_advances (s.withTurns ts)
      exact ⟨t, move, adv.ended_or_nearer hb le⟩
    | run =>
      rw [step_run_turn hb ht]
      obtain ⟨t, move, adv⟩ := runMove_advances (s.withTurns ts)
      exact ⟨t, move, adv.ended_or_nearer hb le⟩

/-- A BUSY core ends within the steps it has left. -/
theorem exists_run_ended {m : Nat} {s : State} (hb : s.ctl.runState = .busy)
    (wf : ∀ a ∈ s.env.script, a.wf = true) (le : stepsLeft s ≤ m) :
    ∃ n ≤ m, ∃ t, Host.Core.run Sys2Proof.core n s = .next t ∧ Ended s.env.script t := by
  induction m generalizing s with
  | zero =>
    have := phasesLeft_bounds s.hidden.phase s.hidden.image
    rw [stepsLeft] at le
    omega
  | succ m ih =>
    obtain ⟨t, move, ended | nearer⟩ := step_ended_or_nearer hb wf
    · exact ⟨1, Nat.le_add_left 1 m, t, run_of_step move 0, ended⟩
    · have less := nearer.steps
      obtain ⟨n, hn, u, run, ended⟩ := ih nearer.busy (fun a ha => wf a (nearer.script a ha)) (by omega)
      exact ⟨n + 1, Nat.succ_le_succ hn, u, (run_of_step move n).trans run, ended.mono nearer.script⟩

/-- Settles O60: at most twelve phases are left beside the listed turns. -/
theorem startedOperationsEnd : Obligations.StartedOperationsEnd := by
  intro s hb wf
  have phases := phasesLeft_bounds s.hidden.phase s.hidden.image
  exact exists_run_ended hb wf (by rw [stepsLeft]; omega)

end Sys2Proof.Machine
end

section
/-! The exceptions family (60_exceptions.md): the level `irq`, and the priority of the error causes. A body of an
operation is compared with a list of causes line by line of R250; MERGE joins the lists of its stages. -/

namespace Sys2Proof.Machine

/-! ### The level irq (R256) -/

theorem irq_iff {s : State} :
    irq s = true ↔ s.ctl.ie = true ∧ (s.ctl.runState = .done ∨ s.ctl.runState = .error) := by
  simp [irq]

/-- An ended operation leaves DONE or ERROR, where the level is IE. -/
theorem irq_settle (w : Word) (s : State) (r : Except Raise (List Byte)) :
    irq (settle (startOp w s) r) = s.ctl.ie := by
  cases r with
  | ok bytes => exact Bool.and_true s.ctl.ie
  | error e => exact Bool.and_true s.ctl.ie

theorem irq_startOp (w : Word) (s : State) : irq (startOp w s) = false := Bool.and_false s.ctl.ie

/-- ACK leaves no state in which the level is high: neither DONE nor ERROR is left. -/
theorem irq_acknowledge (s : State) : irq (acknowledge s) = false := by
  rcases acknowledge_cases s with ⟨not_done, not_error, h⟩ | ⟨-, h⟩ <;> rw [h]
  · simp [irq, not_done, not_error]
  · exact Bool.and_false s.ctl.ie

theorem irq_resetEvent (s : State) : irq (resetEvent s) = false := rfl

/-- Settles O9: the level after each of the updates that can change it. -/
theorem irqIsALevel : Obligations.IrqIsALevel := by
  refine fun s => ⟨irq_iff, fun i hi => ?_, fun w => irq_startOp w s, fun _ => ⟨_, exec_ack s, irq_acknowledge s⟩,
    ⟨_, rfl, irq_resetEvent s⟩, fun v => ⟨_, hostMove_wr_reg (r := .ctrl) nofun v s, rfl⟩⟩
  obtain ⟨r, -, hexec⟩ := exec_operation hi s
  exact ⟨_, hexec, irq_settle _ s r⟩

/-! ### A body and its causes -/

/-- A body raises the first of `causes` that holds, and gives a result when none does (R250). -/
def RaisesFirst {α : Type} (r : Except Raise α) (causes : List Cause) : Prop :=
  match firstCause causes with
  | some e => r = .error e
  | none => ∃ a, r = .ok a

theorem firstCause_append (causes rest : List Cause) :
    firstCause (causes ++ rest) = (firstCause causes).or (firstCause rest) := by
  induction causes with
  | nil => rfl
  | cons c causes ih =>
    obtain ⟨holds, e⟩ := c
    cases holds with
    | true => rfl
    | false => exact ih

section Causes

variable {α β : Type} {r : Except Raise α} {causes rest : List Cause}

theorem raisesFirst_nil (h : ∃ a, r = .ok a) : RaisesFirst r [] := h

/-- One line of R250: its cause decides the body, or the later lines do. -/
theorem raisesFirst_cons {c : Cause} (raises : c.1 = true → r = .error c.2)
    (later : c.1 = false → RaisesFirst r causes) : RaisesFirst r (c :: causes) := by
  obtain ⟨holds, e⟩ := c
  cases holds with
  | true => exact raises rfl
  | false => exact later rfl

/-- The two ways a body meets its causes. -/
theorem RaisesFirst.cases (h : RaisesFirst r causes) :
    (∃ e, firstCause causes = some e ∧ r = .error e) ∨ (firstCause causes = none ∧ ∃ a, r = .ok a) := by
  rw [RaisesFirst] at h
  cases first : firstCause causes with
  | some e => exact .inl ⟨e, rfl, by rwa [first] at h⟩
  | none => exact .inr ⟨rfl, by rwa [first] at h⟩

/-- A stage that follows another is examined only when the first gave a result: its causes come later. -/
theorem RaisesFirst.bind {g : α → Except Raise β} (first : RaisesFirst r causes)
    (next : ∀ a, r = .ok a → RaisesFirst (g a) rest) : RaisesFirst (r.bind g) (causes ++ rest) := by
  rw [RaisesFirst, firstCause_append]
  rcases first.cases with ⟨e, hcause, rfl⟩ | ⟨hcause, a, rfl⟩ <;> rw [hcause]
  · rfl
  · exact next a rfl

/-- A stage that cannot fail adds no cause. -/
theorem RaisesFirst.map (g : α → β) (first : RaisesFirst r causes) : RaisesFirst (r.map g) causes := by
  have mapped : r.map g = r.bind fun a => .ok (g a) := by cases r <;> rfl
  rw [mapped, ← List.append_nil causes]
  exact first.bind fun a _ => raisesFirst_nil ⟨_, rfl⟩

/-- An operation ends as its body does (R223, R252). -/
theorem RaisesFirst.endsBy {i : Instr} {s : State} {body : Except Raise (List Byte)}
    (h : RaisesFirst body causes) (hexec : exec i s = .next (settle (startOp (encode i) s) body)) :
    EndsBy i s causes := by
  rw [EndsBy]
  rcases h.cases with ⟨e, hcause, rfl⟩ | ⟨hcause, bytes, rfl⟩ <;> rw [hcause]
  · exact ⟨_, hexec, failed_settle _ s e⟩
  · exact ⟨_, bytes, hexec, completed_settle _ s bytes⟩

end Causes

/-! ### Line 5 of R250 -/

section OneImage

variable {s : State} {k : Img} {f : Format} {samples : List Byte}

theorem oddByteCause_iff :
    (oddByteCause s k f).1 = true ↔ f.depth = .d16 ∧ (s.desc k).rawLen.toNat % 2 = 1 := by
  simp [oddByteCause]

/-- Depth 16 with an odd byte count is the one error of the unpacker (R130). -/
theorem unpack_of_oddByte (odd : (oddByteCause s k f).1 = true) (mode : Mode) :
    unpack (rawBytes s k) f.depth mode = .error lessData := by
  obtain ⟨d16, odd⟩ := oddByteCause_iff.1 odd
  rw [d16]
  exact samplesD16_odd ((rawBytes_length s k).symm ▸ odd)

theorem exists_unpack_of_not_oddByte (even : (oddByteCause s k f).1 = false) (mode : Mode) :
    ∃ samples, unpack (rawBytes s k) f.depth mode = .ok samples := by
  refine exists_unpack_eq_ok (fun d16 => ?_) mode
  rw [rawBytes_length]
  exact Nat.mod_two_ne_one.1 fun odd => Bool.false_ne_true (even.symm.trans (oddByteCause_iff.2 ⟨d16, odd⟩))

theorem unpack_raisesFirst (s : State) (k : Img) (f : Format) :
    RaisesFirst (withImage k (unpack (rawBytes s k) f.depth (modeOf f.model))) [oddByteCause s k f] := by
  refine raisesFirst_cons (fun odd => ?_) fun even => raisesFirst_nil ?_
  · exact congrArg (withImage k) (unpack_of_oddByte odd _)
  · obtain ⟨samples, hu⟩ := exists_unpack_of_not_oddByte even (modeOf f.model)
    exact ⟨samples, congrArg (withImage k) hu⟩

/-! ### Lines 6 to 9 of R250, once the image is unpacked -/

theorem rgbaIdx_absent (palette samples : List Byte) :
    rgbaIdx false palette samples = .error { code := .paletteNotFoundWhenIndexedPng, pos := 0 } := rfl

theorem rgbaIdx_broken {palette : List Byte} (h : palette.length % 3 ≠ 0) (samples : List Byte) :
    rgbaIdx true palette samples = .error { code := .invalidPalette, pos := 0 } := by
  simp only [rgbaIdx, indexTable_present, resolve_error h]

/-- The first index past a whole palette ends IDX (R171). -/
theorem rgbaIdx_badIndex {p : Nat} (whole : (s.desc k).palLen.toNat % 3 = 0)
    (hu : unpack (rawBytes s k) f.depth .index = .ok samples) (bad : firstBadIndex s k f = some p) :
    rgbaIdx true (palBytes s k) samples = .error { code := .invalidIndexForPalette, pos := p } := by
  have samples_length : samples.length = sampleCount f.depth (s.desc k).rawLen.toNat :=
    rawBytes_length s k ▸ unpack_length hu
  rw [firstBadIndex, List.find?_range_eq_some] at bad
  obtain ⟨past, in_range, below⟩ := bad
  have p_lt : p < samples.length := samples_length ▸ List.mem_range.1 in_range
  have stops := lookupPixels_fails (table := rgbGroups (palBytes s k)) (List.getElem?_eq_getElem p_lt)
    (by
      rw [rgbGroups_palBytes_length whole, toNat_unpack_index hu (List.getElem?_eq_getElem p_lt)]
      exact of_decide_eq_true past)
    (fun q i hq hi => by
      rw [rgbGroups_palBytes_length whole, toNat_unpack_index hu hi]
      simpa using below q hq) 0
  simp only [rgbaIdx, indexTable_present, resolve_palBytes whole, stops, Nat.zero_add]

/-- Outside IDX a partial pixel is the one error of a branch (R172). -/
theorem normaliseSamples_partial (palette : List Byte) (not_idx : f.model ≠ .idx)
    (short : samples.length % arityOf f.model ≠ 0) : normaliseSamples f palette samples = .error lessData := by
  obtain ⟨d, m, pp⟩ := f
  cases m with
  | gray => exact absurd (Nat.mod_one _) short
  | graya => exact rgbaGraya_partial short
  | rgb => exact rgbaRgb_partial short
  | rgba => exact rgbaRgba_partial short
  | idx => exact absurd rfl not_idx

/-- The normalisation of an image that unpacks is its branch. -/
theorem normaliseImage_of_unpack (hu : unpack (rawBytes s k) f.depth (modeOf f.model) = .ok samples) :
    normaliseImage s k f = withImage k (normaliseSamples f (palBytes s k) samples) := by
  rw [normaliseImage, normalise_eq, hu]
  rfl

theorem normaliseSamples_idx (idx : f.model = .idx) (palette samples : List Byte) :
    normaliseSamples f palette samples = rgbaIdx f.palPresent palette samples := by
  rw [normaliseSamples, idx]

/-- The normalisation of an image raises by lines 5 to 9 of R250 in their order (R173, R243 to R246). -/
theorem normaliseImage_raisesFirst (s : State) (k : Img) (f : Format) :
    RaisesFirst (normaliseImage s k f) (imageCauses s k f) := by
  refine raisesFirst_cons (fun odd => ?_) fun even => ?_
  · rw [normaliseImage, normalise_eq, unpack_of_oddByte odd]
    rfl
  obtain ⟨samples, hu⟩ := exists_unpack_of_not_oddByte even (modeOf f.model)
  have branch := normaliseImage_of_unpack hu
  have indexed (idx : f.model = .idx) :
      normaliseImage s k f = withImage k (rgbaIdx f.palPresent (palBytes s k) samples) :=
    branch.trans (congrArg (withImage k) (normaliseSamples_idx idx _ _))
  refine raisesFirst_cons (fun absent => ?_) fun present => raisesFirst_cons (fun broken => ?_) fun whole =>
    raisesFirst_cons (fun bad => ?_) fun good => raisesFirst_cons (fun short => ?_) fun enough => raisesFirst_nil ?_
  · obtain ⟨idx, absent⟩ : f.model = .idx ∧ f.palPresent = false := by simpa using absent
    rw [indexed idx, absent, rgbaIdx_absent]
    rfl
  · obtain ⟨idx, broken⟩ : f.model = .idx ∧ (s.desc k).palLen.toNat % 3 ≠ 0 := by simpa using broken
    have present : f.palPresent = true := by simpa [idx] using present
    rw [← palBytes_length] at broken
    rw [indexed idx, present, rgbaIdx_broken broken]
    rfl
  · obtain ⟨idx, bad⟩ : f.model = .idx ∧ (firstBadIndex s k f).isSome = true := by simpa using bad
    have present : f.palPresent = true := by simpa [idx] using present
    have whole : (s.desc k).palLen.toNat % 3 = 0 := by simpa [idx] using whole
    obtain ⟨p, hp⟩ := Option.isSome_iff_exists.1 bad
    rw [idx] at hu
    rw [indexed idx, present, rgbaIdx_badIndex whole hu hp, hp]
    rfl
  · obtain ⟨not_idx, short⟩ : f.model ≠ .idx ∧
        sampleCount f.depth (s.desc k).rawLen.toNat % arityOf f.model ≠ 0 := by simpa using short
    rw [← rawBytes_length, ← unpack_length hu] at short
    rw [branch, normaliseSamples_partial _ not_idx short]
    rfl
  · have clean : firstCause (imageCauses s k f) = none := by
      simp only [firstCause_eq_none, imageCauses, normaliseCauses, List.forall_mem_cons]
      exact ⟨even, present, whole, good, enough, nofun⟩
    obtain ⟨rgba, hrgba⟩ := (noImageCause_of_firstCause clean).exists_normalise_eq_ok
    exact ⟨rgba, congrArg (withImage k) hrgba⟩

end OneImage

/-! ### The one-image commands -/

/-- Settles O53: UNPACK is the unpacker, NORM the normalisation, and MASK adds a stage that cannot fail. -/
theorem oneImageCommandsEndByTheFirstCause : Obligations.OneImageCommandsEndByTheFirstCause := by
  intro s k f legal
  have unpack_body : RaisesFirst (unpackResult s k) [oddByteCause s k f] :=
    unpackResult_of_legal legal ▸ unpack_raisesFirst s k f
  have norm_body : RaisesFirst (normResult s k) (imageCauses s k f) :=
    normResult_of_legal legal ▸ normaliseImage_raisesFirst s k f
  have mask_body : RaisesFirst (maskResult s k) (imageCauses s k f) :=
    maskResult_of_legal legal ▸ (normaliseImage_raisesFirst s k f).map maskOf
  exact ⟨unpack_body.endsBy (exec_unpack k s), norm_body.endsBy (exec_norm k s), mask_body.endsBy (exec_mask k s)⟩

/-! ### The stages of MERGE (R207) -/

section Merge

variable {s : State} {k : Img} {f : Format}

theorem shortCause_iff : (shortCause s k f).1 = true ↔ pixelsOf s k f < pixelCount s := by
  simp [shortCause, pixelCount]

/-- Adjusting a buffer that comes up short exactly when the image has too few pixels raises by line 10 or 12. -/
theorem adjust_raisesFirst {x : List Byte} {n : Nat} (short : x.length < n ↔ pixelsOf s k f < pixelCount s) :
    RaisesFirst (withImage k (adjust x n)) [shortCause s k f] := by
  rw [← shortCause_iff] at short
  refine raisesFirst_cons (fun cause => ?_) fun no_cause => raisesFirst_nil ?_
  · exact congrArg (withImage k) (adjust_short (short.2 cause))
  · have enough : n ≤ x.length := not_lt.1 fun lt => Bool.false_ne_true (no_cause.symm.trans (short.1 lt))
    exact ⟨_, congrArg (withImage k) (adjust_ok enough)⟩

theorem normaliseImage_length {rgba : List Byte} (h : normaliseImage s k f = .ok rgba) :
    rgba.length = 4 * pixelsOf s k f := by
  have len := normalise_length (withImage_eq_ok.1 h)
  rwa [rawBytes_length] at len

/-- Step 2 raises by lines 5 to 10 of image 1 (R203). -/
theorem mergeRgba1_raisesFirst (s : State) (f : Format) :
    RaisesFirst (mergeRgba1 s f) (imageCauses s .img1 f ++ [shortCause s .img1 f]) := by
  have stages : mergeRgba1 s f =
      (normaliseImage s .img1 f).bind fun rgba => withImage .img1 (adjust rgba (pixelCount s * 4)) := by
    rw [mergeRgba1]
    cases normaliseImage s .img1 f <;> rfl
  rw [stages]
  refine (normaliseImage_raisesFirst s .img1 f).bind fun rgba h => adjust_raisesFirst ?_
  have rgba_length := normaliseImage_length h
  omega

/-- Step 3 raises by lines 5 to 9 and 12 of image 2 (R204). -/
theorem mergeAlpha2_raisesFirst (s : State) (f : Format) :
    RaisesFirst (mergeAlpha2 s f) (imageCauses s .img2 f ++ [shortCause s .img2 f]) := by
  have stages : mergeAlpha2 s f =
      (normaliseImage s .img2 f).bind fun rgba => withImage .img2 (adjust (maskOf rgba) (pixelCount s)) := by
    rw [mergeAlpha2]
    cases normaliseImage s .img2 f <;> rfl
  rw [stages]
  refine (normaliseImage_raisesFirst s .img2 f).bind fun rgba h => adjust_raisesFirst ?_
  have rgba_length := normaliseImage_length h
  rw [maskOf_length]
  omega

theorem sizeCause_iff :
    (sizeCause s).1 = true ↔ s.img1.width ≠ s.img2.width ∨ s.img1.height ≠ s.img2.height := by
  simp [sizeCause]

theorem sizesAgree_of_not_sizeCause (same : (sizeCause s).1 = false) : sizesAgree s = true := by
  simpa [sizesAgree, sizeCause] using same

/-- After the size check MERGE makes image 1, then image 2, and composes them, which cannot fail (R205). -/
theorem mergeImages_of_agree (agree : sizesAgree s = true) (f1 f2 : Format) :
    mergeImages s f1 f2 = (mergeRgba1 s f1).bind fun rgba1 => (mergeAlpha2 s f2).map (composePixels rgba1) := by
  rw [mergeImages, if_pos agree]
  cases mergeRgba1 s f1 with
  | error e => rfl
  | ok rgba1 => cases mergeAlpha2 s f2 <;> rfl

theorem mergeImages_raisesFirst (s : State) (f1 f2 : Format) :
    RaisesFirst (mergeImages s f1 f2) (mergeCauses s f1 f2) := by
  refine raisesFirst_cons (fun mismatch => mergeImages_of_mismatch (sizeCause_iff.1 mismatch)) fun same => ?_
  have stages := (mergeRgba1_raisesFirst s f1).bind fun rgba1 _ =>
    (mergeAlpha2_raisesFirst s f2).map (composePixels rgba1)
  rw [mergeImages_of_agree (sizesAgree_of_not_sizeCause same)]
  rwa [List.append_assoc] at stages

end Merge

/-- Settles O54: after both configuration checks the body of MERGE is its stages. -/
theorem mergeEndsByTheFirstCause : Obligations.MergeEndsByTheFirstCause := by
  intro s f1 f2 legal1 legal2
  have merge_body : RaisesFirst (mergeResult s) (mergeCauses s f1 f2) :=
    mergeResult_of_legal legal1 legal2 ▸ mergeImages_raisesFirst s f1 f2
  exact merge_body.endsBy (exec_merge s)

end Sys2Proof.Machine
end

section
/-! The reset family (70_reset_and_hazards.md): what the reset event leaves in the registers, and what the commands do
in the state it leaves. DEPTH 0 is a reserved value (R30), so both configuration checks fail there. -/

namespace Sys2Proof.Machine

/-! ### The registers after the reset event -/

theorem hostMove_reset (s : State) : hostMove .reset s = .next (resetEvent s) := rfl

/-- A cleared descriptor reads 0 in each of its registers, the format word included (R41). -/
theorem readReg_resetEvent (s : State) (r : Reg) : readReg (resetEvent s) r = 0#32 := by
  cases r with
  | cmd | ctrl | outLen | errPos => rfl
  | status => exact statusWord_cleared rfl rfl rfl
  | fmt k =>
    rw [readReg, resetEvent_desc]
    decide
  | width k | height k | rawLen k | palLen k =>
    rw [readReg, resetEvent_desc]
    rfl

/-- Settles O10: the status and the descriptors are cleared, and in IDLE the level `irq` is low. -/
theorem resetEventClearsTheMachine : Obligations.ResetEventClearsTheMachine := fun s =>
  ⟨resetEvent s, hostMove_reset s, rfl, readReg_resetEvent s, irq_resetEvent s⟩

/-! ### The commands after the reset event -/

/-- No format decodes from DEPTH 0, so neither image passes its configuration check (R30, R222). -/
theorem checkImage_resetEvent (s : State) (k : Img) : checkImage (resetEvent s) k = .error (illegalConfig k) := by
  rw [checkImage, resetEvent_desc]
  rfl

/-- The configuration check of its first image is the first thing that ends an operation (R222). -/
theorem opResult_of_illegal_firstImage {i : Instr} {s : State} {r : Raise} (hi : i.isOperation = true)
    (h : checkImage s (firstImage i) = .error r) : opResult i s = some (.error r) := by
  cases i with
  | merge => exact congrArg some (mergeResult_of_illegal_img1 h)
  | unpack | norm | mask => exact opResult_of_illegal h _ (by simp [firstImage])
  | _ => cases hi

/-- ACK has nothing to leave in IDLE (R225). -/
theorem acknowledge_of_idle {s : State} (idle : s.ctl.runState = .idle) : acknowledge s = s := by
  rw [acknowledge, idle]

/-- Settles O11: reset leaves IDLE, where NOP and ACK do nothing, and the check of the first image of an operation
fails. -/
theorem operationsFailAfterReset : Obligations.OperationsFailAfterReset := by
  intro s t h
  cases h
  refine ⟨exec_nop _, (exec_ack _).trans (congrArg _ (acknowledge_of_idle rfl)), fun i hi => ?_⟩
  exact exec_failed (opResult_of_illegal_firstImage hi (checkImage_resetEvent s _))

end Sys2Proof.Machine
end
